-- ==== Sys2Proof/Word.lean ====
section
/-! DEFINITION. Word.lean: the widths of the X10 core's words (00_scope R12, R13; 30_encoding R330, R336, R339). -/

namespace Sys2Proof

/-- The 64-bit command word the host presents (30_encoding R330). -/
abbrev CommandWord := BitVec 64

/-- The 2-bit code on the event port (30_encoding R339). -/
abbrev EventCode := BitVec 2

/-- The 32-bit response word (30_encoding R336). -/
abbrev Response := BitVec 32

/-- The 32-bit frame of a queue slot (30_encoding R310). -/
abbrev Frame := BitVec 32

/-- A 4-bit code in wire order: house, unit or command code, or level nibble (30_encoding R304). -/
abbrev Nibble := BitVec 4

/-- A key of the module state space, 0..255 (20_memory R200, R201). -/
abbrev Key := BitVec 8

/-- One byte. -/
abbrev Byte := BitVec 8

end Sys2Proof
end

