-- ==== Sys2Proof/Syntax.lean ====
section
/-! DEFINITION. Syntax.lean: the instructions of spec/opcode_table.json, one constructor per row, with exactly the
fields 30_encoding R338 says the row uses, and the word a step finds on the core's input ports. -/

namespace Sys2Proof

/-- The eleven host commands (30_encoding R338) and the two input events (30_encoding R339). A field a row does not use is
ignored by the core (30_encoding R335) and so is no argument here. Every field is the unsigned number in its bits (R341). -/
inductive Instr where
  /-- START (46_control R700). -/
  | start
  /-- GET_STATUS (46_control R705). -/
  | getStatus
  /-- ENQ_ADDRESS (40_send_buffer R420). -/
  | enqAddress (ctx : Bool) (reps : BitVec 8) (house : BitVec 5) (unit : BitVec 5)
  /-- ENQ_COMMAND (40_send_buffer R425). -/
  | enqCommand (ctx : Bool) (reps : BitVec 8) (house : BitVec 5) (unit : BitVec 5) (cmd : BitVec 4)
  /-- ENQ_DIM_PERCENT (40_send_buffer R430). -/
  | enqDimPercent (ctx : Bool) (reps : BitVec 8) (house : BitVec 5) (unit : BitVec 5) (val : BitVec 8)
  /-- ENQ_EXT_DIM_PERCENT (40_send_buffer R435). -/
  | enqExtDimPercent (ctx : Bool) (reps : BitVec 8) (house : BitVec 5) (unit : BitVec 5) (time : BitVec 2) (val : BitVec 8)
  /-- ENQ_RAW_EXT (40_send_buffer R440). -/
  | enqRawExt (ctx : Bool) (reps : BitVec 8) (house : BitVec 5) (unit : BitVec 5) (cmd : BitVec 4) (xdata : BitVec 8)
      (xcmd : BitVec 8)
  /-- GET_STATE (45_module_state R670). -/
  | getState (house : BitVec 5) (unit : BitVec 5)
  /-- WIPE_STATE (45_module_state R675). -/
  | wipeState (house : BitVec 5) (unit : BitVec 5)
  /-- PCT_TO_BRIGHT (45_module_state R685). -/
  | pctToBright (val : BitVec 8)
  /-- BRIGHT_TO_PCT (45_module_state R690). -/
  | brightToPct (val : BitVec 8)
  /-- ZC, the zero-crossing event (41_zero_cross R450). -/
  | zc
  /-- TIMER, the timer expiry event (42_bit_slot_timer R500). -/
  | timer
  deriving DecidableEq, Repr

/-- What a step finds presented: a command word on the host port or a code on the event port (30_encoding R330, R339). -/
inductive PortWord where
  | command (w : CommandWord)
  | event (c : EventCode)
  deriving DecidableEq, Repr

end Sys2Proof
end

