-- ==== Sys2Proof/Decode.lean ====
section
/-! DEFINITION. Decode.lean: the command decode procedure, total on any word (30_encoding R340), the event port (R339), and the
encoder written from the same field table (R330). -/

namespace Sys2Proof

/-- Why a presented word is no instruction. -/
inductive DecodeError where
  /-- A command word with `RSVD != 0` (30_encoding R334). -/
  | reservedBits
  /-- A command word whose OP is not in the table (30_encoding R343). -/
  | reservedOpcode
  /-- Event code 00: no event (30_encoding R339). -/
  | noEvent
  /-- Event code 11: reserved (30_encoding R339). -/
  | reservedEvent
  deriving DecidableEq, Repr

/-- What the decoder answers. -/
inductive Decoded where
  | instr (i : Instr)
  | reject (e : DecodeError)
  deriving DecidableEq, Repr

/-! The fields of a command word (30_encoding R330). -/

def fieldOp (w : CommandWord) : BitVec 8 := w.extractLsb' 56 8
def fieldCtx (w : CommandWord) : Bool := w.extractLsb' 55 1 == 1#1
def fieldRsvd (w : CommandWord) : BitVec 7 := w.extractLsb' 48 7
def fieldReps (w : CommandWord) : BitVec 8 := w.extractLsb' 40 8
def fieldHouse (w : CommandWord) : BitVec 5 := w.extractLsb' 35 5
def fieldUnit (w : CommandWord) : BitVec 5 := w.extractLsb' 30 5
def fieldCmd (w : CommandWord) : BitVec 4 := w.extractLsb' 26 4
def fieldTime (w : CommandWord) : BitVec 2 := w.extractLsb' 24 2
def fieldXdata (w : CommandWord) : BitVec 8 := w.extractLsb' 16 8
def fieldXcmd (w : CommandWord) : BitVec 8 := w.extractLsb' 8 8
def fieldVal (w : CommandWord) : BitVec 8 := w.extractLsb' 0 8

/-- The row OP selects, with its fields read from the word (30_encoding R338). -/
def decodeOp (w : CommandWord) : Decoded :=
  match (fieldOp w).toNat with
  | 0x01 => .instr .start
  | 0x02 => .instr .getStatus
  | 0x10 => .instr (.enqAddress (fieldCtx w) (fieldReps w) (fieldHouse w) (fieldUnit w))
  | 0x11 => .instr (.enqCommand (fieldCtx w) (fieldReps w) (fieldHouse w) (fieldUnit w) (fieldCmd w))
  | 0x12 => .instr (.enqDimPercent (fieldCtx w) (fieldReps w) (fieldHouse w) (fieldUnit w) (fieldVal w))
  | 0x13 => .instr (.enqExtDimPercent (fieldCtx w) (fieldReps w) (fieldHouse w) (fieldUnit w) (fieldTime w) (fieldVal w))
  | 0x14 => .instr (.enqRawExt (fieldCtx w) (fieldReps w) (fieldHouse w) (fieldUnit w) (fieldCmd w) (fieldXdata w) (fieldXcmd w))
  | 0x20 => .instr (.getState (fieldHouse w) (fieldUnit w))
  | 0x21 => .instr (.wipeState (fieldHouse w) (fieldUnit w))
  | 0x30 => .instr (.pctToBright (fieldVal w))
  | 0x31 => .instr (.brightToPct (fieldVal w))
  | _ => .reject .reservedOpcode

/-- Decode a command word (30_encoding R340): reserved bits first, then the opcode. -/
def decodeCommand (w : CommandWord) : Decoded :=
  if fieldRsvd w ≠ 0 then .reject .reservedBits else decodeOp w

/-- Decode an event code (30_encoding R339). -/
def decodeEvent (c : EventCode) : Decoded :=
  match c.toNat with
  | 0 => .reject .noEvent
  | 1 => .instr .zc
  | 2 => .instr .timer
  | _ => .reject .reservedEvent

/-- The decoder, total on whatever is presented. -/
def decode : PortWord → Decoded
  | .command w => decodeCommand w
  | .event c => decodeEvent c

/-- A command word from its fields, bit 63 down to bit 0 (30_encoding R330), with RSVD 0. -/
def commandWord (op : BitVec 8) (ctx : Bool) (reps : BitVec 8) (house unit : BitVec 5) (cmd : BitVec 4) (time : BitVec 2)
    (xdata xcmd val : BitVec 8) : CommandWord :=
  op ++ BitVec.ofBool ctx ++ 0#7 ++ reps ++ house ++ unit ++ cmd ++ time ++ xdata ++ xcmd ++ val

/-- The word of an instruction, the fields its row does not use 0 (30_encoding R330, R338, R339). -/
def encode : Instr → PortWord
  | .start => .command (commandWord 0x01 false 0 0 0 0 0 0 0 0)
  | .getStatus => .command (commandWord 0x02 false 0 0 0 0 0 0 0 0)
  | .enqAddress ctx reps house unit => .command (commandWord 0x10 ctx reps house unit 0 0 0 0 0)
  | .enqCommand ctx reps house unit cmd => .command (commandWord 0x11 ctx reps house unit cmd 0 0 0 0)
  | .enqDimPercent ctx reps house unit val => .command (commandWord 0x12 ctx reps house unit 0 0 0 0 val)
  | .enqExtDimPercent ctx reps house unit time val => .command (commandWord 0x13 ctx reps house unit 0 time 0 0 val)
  | .enqRawExt ctx reps house unit cmd xdata xcmd => .command (commandWord 0x14 ctx reps house unit cmd 0 xdata xcmd 0)
  | .getState house unit => .command (commandWord 0x20 false 0 house unit 0 0 0 0 0)
  | .wipeState house unit => .command (commandWord 0x21 false 0 house unit 0 0 0 0 0)
  | .pctToBright val => .command (commandWord 0x30 false 0 0 0 0 0 0 0 val)
  | .brightToPct val => .command (commandWord 0x31 false 0 0 0 0 0 0 0 val)
  | .zc => .event 0b01
  | .timer => .event 0b10

/-- The word whose bits are `w` when the opcode table gives the row `nbits` bits: an event row is 2 bits wide (one whole byte),
a command row 64. Both ports are parallel words whose bit 0 is the least significant (20_memory R209). -/
def tableWord (nbits w : Nat) : PortWord :=
  if nbits ≤ 8 then .event (BitVec.ofNat 2 w) else .command (BitVec.ofNat 64 w)

/-- The instruction the decoder reads from a table word. -/
def decodeTableWord (nbits w : Nat) : Option Instr :=
  match decode (tableWord nbits w) with
  | .instr i => some i
  | .reject _ => none

end Sys2Proof
end

