-- ==== Sys2Proof/Machine/Tables.lean ====
section
/-! DEFINITION. Machine/Tables.lean: the fixed code tables of 30_encoding section 1. Their entries are general knowledge in
the spec's own marking (93 G1 to G4; log entry 16). -/

namespace Sys2Proof.Machine

/-- HOUSE_CODE, index A = 0 .. P = 15 (30_encoding R300). -/
def houseCodes : List Nibble :=
  [0b0110, 0b1110, 0b0010, 0b1010, 0b0001, 0b1001, 0b0101, 0b1101,
   0b0111, 0b1111, 0b0011, 0b1011, 0b0000, 0b1000, 0b0100, 0b1100]

/-- UNIT_CODE, position unit - 1: the same sixteen values in the same order (30_encoding R301). -/
def unitCodes : List Nibble :=
  [0b0110, 0b1110, 0b0010, 0b1010, 0b0001, 0b1001, 0b0101, 0b1101,
   0b0111, 0b1111, 0b0011, 0b1011, 0b0000, 0b1000, 0b0100, 0b1100]

/-- `HOUSE_CODE[h]` (30_encoding R300). -/
def houseCode (h : BitVec 4) : Nibble := houseCodes.getD h.toNat 0

/-- `UNIT_CODE[u-1]` for a unit number 1..16 (30_encoding R301). -/
def unitCode (u : BitVec 5) : Nibble := unitCodes.getD (u.toNat - 1) 0

/-- `house_index(c)`: the i with `HOUSE_CODE[i] == c` (30_encoding R302). -/
def houseIndex (c : Nibble) : BitVec 4 := BitVec.ofNat 4 (houseCodes.idxOf c)

/-- `unit_of(c)`: 1 + the i with `UNIT_CODE[i] == c` (30_encoding R302). -/
def unitOf (c : Nibble) : BitVec 5 := BitVec.ofNat 5 (1 + unitCodes.idxOf c)

/-! The sixteen command codes, wire order (30_encoding R303). -/

def cmdAllUnitsOff : Nibble := 0b0000
def cmdAllLightsOn : Nibble := 0b0001
def cmdOn : Nibble := 0b0010
def cmdOff : Nibble := 0b0011
def cmdDim : Nibble := 0b0100
def cmdBright : Nibble := 0b0101
def cmdAllLightsOff : Nibble := 0b0110
def cmdExtendedCode : Nibble := 0b0111
def cmdHailRequest : Nibble := 0b1000
def cmdHailAcknowledge : Nibble := 0b1001
def cmdPresetDim0 : Nibble := 0b1010
def cmdPresetDim1 : Nibble := 0b1011
def cmdExtendedData : Nibble := 0b1100
def cmdStatusOn : Nibble := 0b1101
def cmdStatusOff : Nibble := 0b1110
def cmdStatusRequest : Nibble := 0b1111

/-- `c in EXT_CMDS` (30_encoding R303). -/
def isExtCmd (c : Nibble) : Bool := c == cmdExtendedCode || c == cmdExtendedData

/-- `is_preset(c) = (c[3:1] == 101)` (30_encoding R303; 90_conflicts C3). -/
def isPreset (c : Nibble) : Bool := c.extractLsb' 1 3 == 0b101#3

/-- `EXT_PRESET_DIM` (30_encoding R305). -/
def extPresetDim : Byte := 0x31

end Sys2Proof.Machine
end

