-- ==== Sys2Proof/Machine/Frame.lean ====
section
/-! DEFINITION. Machine/Frame.lean: the 32-bit frame (30_encoding R310 to R317) and its wire sequence (43_frame_encoder R552
to R558). -/

namespace Sys2Proof.Machine

/-- The four shapes an enqueue produces (30_encoding R311). -/
inductive Shape where
  | standard
  | commandOnly
  | extended
  | addressOnly
  deriving DecidableEq, Repr

/-- The shape tag `f[2:0]` (30_encoding R310). -/
def frameTag (f : Frame) : BitVec 3 := f.extractLsb' 0 3

/-- The shape a tag names; 000 and 101 to 111 name none (30_encoding R311). -/
def shapeOfTag (t : BitVec 3) : Option Shape :=
  match t.toNat with
  | 1 => some .standard
  | 2 => some .commandOnly
  | 3 => some .extended
  | 4 => some .addressOnly
  | _ => none

/-- The shape of a frame, read from its tag alone (43_frame_encoder R552). -/
def frameShape (f : Frame) : Option Shape := shapeOfTag (frameTag f)

/-- `END(tag)`: the repetition length in half-cycles (30_encoding R311; 43_frame_encoder R552). -/
def endCount : Shape → Nat
  | .standard => 62
  | .commandOnly => 22
  | .extended => 62
  | .addressOnly => 22

/-- The KEY1 field `f[27:24]` (30_encoding R310). -/
def frameKey1 (f : Frame) : Nibble := f.extractLsb' 24 4

/-- The STANDARD frame (30_encoding R312); `hp` is the part-two house or level nibble. -/
def standardFrame (h : BitVec 4) (u : BitVec 5) (c hp : Nibble) : Frame :=
  houseCode h ++ unitCode u ++ 0#1 ++ hp ++ c ++ 1#1 ++ 0#11 ++ 0b001#3

/-- The COMMAND_ONLY frame (30_encoding R313); `hf` is the house field. -/
def commandOnlyFrame (hf c : Nibble) : Frame :=
  hf ++ c ++ 1#1 ++ 0#20 ++ 0b010#3

/-- The EXTENDED frame (30_encoding R314). -/
def extendedFrame (h : BitVec 4) (u : BitVec 5) (c : Nibble) (xd xc : Byte) : Frame :=
  houseCode h ++ c ++ 1#1 ++ unitCode u ++ xd ++ xc ++ 0b011#3

/-- The ADDRESS_ONLY frame, `build_address(h, u)` (30_encoding R315, R317). -/
def addressFrame (h : BitVec 4) (u : BitVec 5) : Frame :=
  houseCode h ++ unitCode u ++ 0#1 ++ 0#20 ++ 0b100#3

/-- `build(h, u, c, xd, xc, hp_override)`, `u` 0 for NO_UNIT (30_encoding R317). -/
def buildFrame (h : BitVec 4) (u : BitVec 5) (c : Nibble) (xd xc : Byte) (hpOverride : Option Nibble) : Frame :=
  if isExtCmd c then extendedFrame h u c xd xc
  else if u = 0 then commandOnlyFrame (hpOverride.getD (houseCode h)) c
  else standardFrame h u c (hpOverride.getD (houseCode h))

/-- `START[c]` for c in 1..4: the start code 1,1,1,0 (43_frame_encoder R553). -/
def startBit (c : Nat) : Bool := [true, true, true, false].getD (c - 1) false

/-- `wire_bit(f, tag, c)` (43_frame_encoder R554): odd counts send the frame bit, even counts its complement. -/
def wireBit (f : Frame) (sh : Shape) (c : Nat) : Bool :=
  if c ≤ 4 then startBit c
  else if sh = .standard ∧ 23 ≤ c ∧ c ≤ 40 then false
  else if sh = .standard ∧ 41 ≤ c ∧ c ≤ 44 then startBit (c - 40)
  else
    let j := if sh = .standard ∧ 45 ≤ c then c - 27 else c - 5
    xor (f.getLsbD (31 - j / 2)) (c % 2 == 0)

/-- The wire sequence of one repetition, counts 1 to `END(tag)` (30_encoding R322). -/
def wireSequence (f : Frame) (sh : Shape) : List Bool :=
  (List.range (endCount sh)).map fun i => wireBit f sh (i + 1)

end Sys2Proof.Machine
end

