-- ==== Sys2Proof/Machine/Operands.lean ====
section
/-! DEFINITION. Machine/Operands.lean: what the commands make of their operand fields: validation (40_send_buffer R410,
45_module_state R670 to R690), indices and keys (20_memory R201), and the percent conversions (45_module_state R680). -/

namespace Sys2Proof.Machine

/-- `HOUSE > 15 or UNIT > 16 or REPS == 0`: what every enqueue refuses (40_send_buffer R410). -/
def enqInvalid (reps : BitVec 8) (house unit : BitVec 5) : Bool :=
  decide (house.toNat > 15) || decide (unit.toNat > 16) || reps == 0

/-- `CMD in EXT_CMDS and UNIT == 0` (40_send_buffer R425, R440). -/
def extWithoutUnit (cmd : Nibble) (unit : BitVec 5) : Bool := isExtCmd cmd && unit == 0

/-- `HOUSE > 15 or UNIT == 0 or UNIT > 16`: what GET_STATE refuses (45_module_state R670). -/
def moduleInvalid (house unit : BitVec 5) : Bool :=
  decide (house.toNat > 15) || unit == 0 || decide (unit.toNat > 16)

/-- `(HOUSE > 15 and HOUSE != 31) or UNIT > 16`: what WIPE_STATE refuses (45_module_state R675). -/
def wipeInvalid (house unit : BitVec 5) : Bool :=
  (decide (house.toNat > 15) && house != 31) || decide (unit.toNat > 16)

/-- The house index a valid HOUSE field holds (30_encoding R331). -/
def houseOfField (house : BitVec 5) : BitVec 4 := house.setWidth 4

/-- The key of module (house, unit): `house_index * 16 + unit - 1` (20_memory R201). -/
def moduleKey (h : BitVec 4) (u : BitVec 5) : Key := BitVec.ofNat 8 (h.toNat * 16 + (u.toNat - 1))

/-- `clamp(v, lo, hi)` (00_scope R15). -/
def clampNat (v lo hi : Nat) : Nat := min (max v lo) hi

/-- `p2b(p) = (p * 62 + 50) div 100` (45_module_state R680). -/
def p2bNat (p : Nat) : Nat := (p * 62 + 50) / 100

/-- `b2p(b) = (b * 100 + 31) div 62` (45_module_state R680). -/
def b2pNat (b : Nat) : Nat := (b * 100 + 31) / 62

/-- The brightness of a percent operand, 0..62 in 6 bits. -/
def p2b (p : BitVec 8) : BitVec 6 := BitVec.ofNat 6 (p2bNat p.toNat)

/-- The preset level of ENQ_DIM_PERCENT, `(b + 1) >> 1`, 0..31 (40_send_buffer R430). -/
def presetLevel (val : BitVec 8) : BitVec 5 := BitVec.ofNat 5 ((p2bNat val.toNat + 1) / 2)

/-- The command of ENQ_DIM_PERCENT: `0b1010 | level[4]` (40_send_buffer R430). -/
def presetCmd (level : BitVec 5) : Nibble := 0b101#3 ++ level.extractLsb' 4 1

/-- The level nibble of ENQ_DIM_PERCENT: `HOUSE_CODE[level[3:0]]` (40_send_buffer R430). -/
def presetNibble (level : BitVec 5) : Nibble := houseCode (level.extractLsb' 0 4)

/-- The data byte of ENQ_EXT_DIM_PERCENT: the time in [7:6], the brightness in [5:0] (40_send_buffer R435, 30_encoding R341). -/
def extDimData (time : BitVec 2) (val : BitVec 8) : Byte := time ++ p2b val

/-- The keys WIPE_STATE clears, in increasing key order: HOUSE 31 and UNIT 0 are the wildcards (45_module_state R675). -/
def wipeKeys (house unit : BitVec 5) : List Key :=
  ((List.range 256).filter fun k =>
    (house == 31 || house.toNat == k / 16) && (unit == 0 || unit.toNat == k % 16 + 1)).map (BitVec.ofNat 8)

end Sys2Proof.Machine
end

