-- ==== Sys2Proof/Config.lean ====
section
/-! DEFINITION. Config.lean: the construction-time parameters of the block (00_scope R10) as one record of plain data, the
values R10 allows, its defaults, and the model's one free value. -/

namespace Sys2Proof

/-- The backing of the module state store (00_scope R10; 20_memory R203 to R205). -/
inductive Backend where
  | none
  | volatile
  | persistent
  deriving DecidableEq, Repr

/-- The construction-time parameters (00_scope R10), fixed before reset (70_reset_and_hazards R901). -/
structure Config where
  /-- `N`, the slots of the transmit queue ring. -/
  n : Nat
  /-- `REBUFFER_DELAY_MS`, 0..2^32-1. -/
  rebufferDelayMs : BitVec 32
  /-- `MIN_SILENCE`, 1..255. -/
  minSilence : BitVec 8
  /-- `PART_GAP`, 5..18. -/
  partGap : Nat
  /-- `PHASES`, 1..7. -/
  phases : Nat
  /-- `T_SAMPLE`, in ticks of one microsecond. -/
  tSample : Nat
  /-- `T_PULSE`, in ticks. -/
  tPulse : Nat
  /-- `T_PHASE`, in ticks. -/
  tPhase : Nat
  /-- `BACKEND`. -/
  backend : Backend
  /-- `PRESET_DIM_ENABLE`. -/
  presetDimEnable : Bool
  deriving DecidableEq, Repr

/-- The legal values of the parameters (00_scope R10, column "legal values"). -/
abbrev Config.Legal (c : Config) : Prop :=
  2 ≤ c.n ∧ c.n ≤ 256 ∧ 1 ≤ c.minSilence.toNat ∧ 5 ≤ c.partGap ∧ c.partGap ≤ 18 ∧ 1 ≤ c.phases ∧ c.phases ≤ 7 ∧
    1 ≤ c.tSample ∧ c.tSample ≤ 65535 ∧ c.tSample < c.tPulse ∧ c.tPulse < c.tPhase

/-- The defaults of 00_scope R10. R10 leaves `REBUFFER_DELAY_MS` OPEN: 500 is the value its vectors use.
DESIGN CHOICE, unsafe (log entry 2). -/
def Config.default : Config where
  n := 16
  rebufferDelayMs := 500
  minSilence := 6
  partGap := 5
  phases := 1
  tSample := 500
  tPulse := 1000
  tPhase := 2778
  backend := .volatile
  presetDimEnable := false

/-- What the 16-bit `timer_delay` holds when `arm_timer` is asked for a delay that does not fit 16 bits: 00_scope R10 gives
`T_PULSE` and `T_PHASE` no upper bound, 10_state R122 gives the register 16 bits, and nothing states the value. A free value:
no body, so no proof can see it. DESIGN CHOICE, safe (log entry 15). -/
opaque Config.freeDelay : Nat → BitVec 16

end Sys2Proof
end

