-- ==== Sys2Proof/Machine/State.lean ====
section
/-! DEFINITION. Machine/State.lean: the architectural state of 10_state.md as plain data, the reasons a step can stop, and the
state right after reset (70_reset_and_hazards R900). -/

namespace Sys2Proof.Machine

/-- Why a step stops with a fault. The spec's core has no fault (60_exceptions R800): both constructors stand for states the
spec says no run reaches. -/
inductive Fault where
  /-- Raised by ZC when the encoder is asked for a bit of a head frame whose tag is 000 or 101 to 111. 43_frame_encoder R552
  calls these unreachable and 93 I6 says a model that must give them a meaning uses a fault. Safe (log entry 8). -/
  | reservedShapeTag
  /-- Raised by TIMER when the timer is armed and `slot` is 0 or above `2*PHASES`, which 42_bit_slot_timer R511 and R512 rule
  out. Safe (log entry 9). -/
  | slotOutOfRange
  deriving DecidableEq, Repr

/-- Why a step is refused. -/
inductive Refusal where
  /-- Raised by an arm of `exec` whose instruction has no meaning yet. Safe. No arm uses it. -/
  | notModelled (mnemonic : String)
  /-- Raised by `step` on event code 11, which has no step and is recorded as refused (30_encoding R339, 93 I4). The spec
  lists it as an assumption on the provider: unsafe only for a provider that presents the code (log entry 6). -/
  | reservedEventCode
  /-- Raised by TIMER while `timer_armed` is 0, where the event has no step (60_exceptions R811, 93 I5). The spec lists it as
  an assumption on the provider: unsafe only for a provider that delivers an unrequested event (log entry 7). -/
  | timerNotArmed
  deriving DecidableEq, Repr

/-- The module state bytes as a list of (key, logical byte) cells: keys strictly rising, no cell equal to what an unlisted key
reads as. The external store's raw bytes are a view of it (20_memory R204; log entry 11). -/
abbrev Memory := List Host.Cell

/-- One slot of the transmit queue ring: `Q_frame[i]` and `Q_reps[i]` (10_state R105, R106). -/
structure QSlot where
  frame : Frame
  reps  : BitVec 8
  deriving DecidableEq, Repr

/-- The receive accumulator (10_state R117 to R121). The defaults are the reset values, to which `clear_acc()` returns every
field (44_frame_decoder R615). -/
structure RxAcc where
  /-- `rx_active` (R117). -/
  active     : Bool := false
  /-- `rx_count` (R118). -/
  count      : BitVec 8 := 0
  /-- `rx_raw` (R119). -/
  raw        : Bool := false
  /-- `rx_buf` (R119). -/
  buf        : BitVec 8 := 0
  /-- `rx_house` (R120). -/
  house      : Nibble := 0
  /-- `rx_key` (R120). -/
  key        : Nibble := 0
  /-- `rx_cmd` (R120). -/
  cmd        : Nibble := 0
  /-- `cmd_valid` (R120). -/
  cmdValid   : Bool := false
  /-- `xunit` (R121). -/
  xunit      : Nibble := 0
  /-- `xunit_valid` (R121). -/
  xunitValid : Bool := false
  /-- `rx_data` (R121). -/
  data       : Byte := 0
  /-- `data_valid` (R121). -/
  dataValid  : Bool := false
  /-- `rx_xcmd` (R121). -/
  xcmd       : Byte := 0
  /-- `xcmd_valid` (R121). -/
  xcmdValid  : Bool := false
  deriving DecidableEq, Repr

/-- The pending address (10_state R123), kept apart from the accumulator because it survives an address-only message. -/
structure PendingAddr where
  /-- `addr_valid`. -/
  valid : Bool := false
  /-- `addr_house`, wire order. -/
  house : Nibble := 0
  /-- `addr_unit`, wire order. -/
  unit  : Nibble := 0
  deriving DecidableEq, Repr

/-- One NOTIFY record (44_frame_decoder R630). -/
structure Notify where
  house    : BitVec 4
  /-- 1..16, or 0 for none. -/
  unit     : BitVec 5
  command  : Nibble
  data     : Byte
  xcmd     : Byte
  bitcount : BitVec 8
  deriving DecidableEq, Repr

/-- One input of the core: what is presented on the command or event port, and the two draws of the step that takes it, the
clock and the line level (00_scope R9). DESIGN CHOICE (log entries 3 and 4). -/
structure Input where
  word   : PortWord
  /-- `now_ms` (20_memory R224). -/
  nowMs  : BitVec 32
  /-- `read_in()` (20_memory R221). -/
  readIn : Bool
  deriving DecidableEq, Repr

/-- The state of 10_state.md (R103 to R125), the parameters of 00_scope R10 as one constant field, and the core's ports. -/
structure State where
  /-- The construction-time parameters (00_scope R10), written by no step. -/
  cfg        : Config
  /-- `ENABLE` (R103). -/
  enable     : Bool
  /-- `OVERRUN` (R104). -/
  overrun    : Bool
  /-- `Q_frame` and `Q_reps`, `N` slots (R105, R106). -/
  slots      : List QSlot
  /-- `Q_head` (R107). -/
  qHead      : Nat
  /-- `Q_tail` (R107). -/
  qTail      : Nat
  /-- `last_ms` (R108). -/
  lastMs     : BitVec 32
  /-- `tx_count` (R110). -/
  txCount    : BitVec 8
  /-- `tx_out` (R111). -/
  txOut      : Bool
  /-- `out_level` (R114). -/
  outLevel   : Bool
  /-- `slot` (R112). -/
  slot       : BitVec 4
  /-- `in_latch` (R113). -/
  inLatch    : Bool
  /-- `ones_count` (R115). -/
  onesCount  : BitVec 3
  /-- `zero_count` (R116). -/
  zeroCount  : BitVec 8
  /-- `timer_armed` (R122). -/
  timerArmed : Bool
  /-- `timer_delay` (R122), observation only. -/
  timerDelay : BitVec 16
  /-- The receive accumulator (R117 to R121). -/
  rx         : RxAcc
  /-- The pending address (R123). -/
  addr       : PendingAddr
  /-- `MS` (R124), logical values. -/
  mem        : Memory
  /-- `NLOG` (R125), oldest first. -/
  nlog       : List Notify
  /-- The model's own: the `writeByte(key, byte)` requests sent to the external store, oldest first (20_memory R204, R206;
  log entry 12). -/
  storeLog   : List Host.Cell
  /-- The model's own: the response word of the step just taken (30_encoding R336; log entry 10). -/
  rsp        : Option Response
  /-- The model's own: the NOTIFY word and its one-step valid strobe (44_frame_decoder R630; log entry 10). -/
  notifyPort : Option (BitVec 37)
  /-- The model's own: the clock the provider presents at this step, a free input (00_scope R9; log entry 4). -/
  nowMs      : BitVec 32
  /-- The model's own: the line level the provider presents at this step, a free input (00_scope R9; log entry 4). -/
  readIn     : Bool
  /-- The model's own: the inputs still to be taken, in the order the host and the provider present them (60_exceptions R812;
  log entry 3). -/
  port       : List Input
  deriving DecidableEq, Repr

/-- The logical content of a byte store whose raw bytes from key `k` on are listed: logical = raw + 1 mod 256, a missing byte
counts as erased, keys stop at 255 (20_memory R202, R204). -/
def Memory.ofRaw : Nat → List Byte → Memory
  | _, [] => []
  | k, b :: bs => if 256 ≤ k then [] else if b + 1 = 0 then Memory.ofRaw (k + 1) bs else (k, b + 1) :: Memory.ofRaw (k + 1) bs

/-- The content of `MS` at reset (10_state R124; 20_memory R208): the external store's for PERSISTENT, 0 in every byte for
VOLATILE, and no store for NONE. -/
def Memory.atReset (b : Backend) (store : List Byte) : Memory :=
  match b with
  | .none => []
  | .volatile => []
  | .persistent => Memory.ofRaw 0 store

/-- The machine right after reset (70_reset_and_hazards R900, R901): the parameters and, for PERSISTENT, the raw bytes the
external store holds are the arguments of the launch. -/
def State.launch (cfg : Config) (store : List Byte) : State where
  cfg := cfg
  enable := false
  overrun := false
  slots := List.replicate cfg.n ⟨0, 0⟩
  qHead := 0
  qTail := 0
  lastMs := 0
  txCount := 0
  txOut := false
  outLevel := false
  slot := 0
  inLatch := false
  onesCount := 0
  zeroCount := 0
  timerArmed := false
  timerDelay := 0
  rx := {}
  addr := {}
  mem := Memory.atReset cfg.backend store
  nlog := []
  storeLog := []
  rsp := none
  notifyPort := none
  nowMs := 0
  readIn := false
  port := []

/-- The machine right after reset with the default parameters of 00_scope R10 (log entries 1 and 2). -/
def State.reset : State := State.launch Config.default []

end Sys2Proof.Machine
end

