-- ==== Sys2Proof/Machine/Flags.lean ====
section
/-! DEFINITION. Machine/Flags.lean: every predicate and status computation the spec gives: the queue predicates (10_state R107),
the transmit condition (41_zero_cross R452), the module status booleans (45_module_state R651), and the result words built from
them (40_send_buffer R411, 45_module_state R670, 46_control R705). -/

namespace Sys2Proof.Machine

/-- STATUS codes (30_encoding R337). -/
inductive Status where
  | ok
  | full
  | invalid
  | illegal
  deriving DecidableEq, Repr

/-- `rsp[31:24]` (30_encoding R336, R337). -/
def statusCode : Status → BitVec 8
  | .ok => 0
  | .full => 1
  | .invalid => 2
  | .illegal => 3

/-- The slot at a ring index. An index below `N` is always in the list; one outside reads as a reset slot (log entry 14). -/
def State.slotAt (s : State) (i : Nat) : QSlot := s.slots.getD i ⟨0, 0⟩

/-- `q_empty` (10_state R107). -/
def State.qEmpty (s : State) : Bool := s.qHead == s.qTail

/-- `q_full` (10_state R107). -/
def State.qFull (s : State) : Bool := (s.qTail + 1) % s.cfg.n == s.qHead

/-- `q_len = (Q_tail - Q_head) mod N` (10_state R107). -/
def State.qLen (s : State) : Nat := (s.qTail + s.cfg.n - s.qHead) % s.cfg.n

/-- `q_last = (Q_tail - 1) mod N` (10_state R107). -/
def State.qLast (s : State) : Nat := (s.qTail + s.cfg.n - 1) % s.cfg.n

/-- The head entry: `Q_frame[Q_head]` and `Q_reps[Q_head]`. -/
def State.headSlot (s : State) : QSlot := s.slotAt s.qHead

/-- "Elapsed" test of the duplicate suppression: the clock ran back, or the window has passed (40_send_buffer R407). -/
def State.rebufferElapsed (s : State) : Bool :=
  decide (s.nowMs.toNat < s.lastMs.toNat) || decide (s.nowMs.toNat - s.lastMs.toNat ≥ s.cfg.rebufferDelayMs.toNat)

/-- `tx_ready()` (41_zero_cross R452). -/
def State.txReady (s : State) : Bool :=
  !s.qEmpty && decide (s.headSlot.reps.toNat > 0) &&
    (decide (s.txCount.toNat > 0) || decide (s.zeroCount.toNat ≥ s.cfg.minSilence.toNat))

/-! The module state byte (45_module_state R650, R651). -/

/-- ST, bits 7:6. -/
def byteSt (v : Byte) : BitVec 2 := v.extractLsb' 6 2

/-- BR, bits 5:0. -/
def byteBr (v : Byte) : BitVec 6 := v.extractLsb' 0 6

def isSeen (v : Byte) : Bool := byteSt v != 0

def isKnown (v : Byte) : Bool := (byteSt v).getLsbD 1

def isOn (v : Byte) : Bool := byteSt v == 0b11#2

/-! Result words. -/

/-- RESULT of an enqueue with STATUS OK: `[15:8]` q_len after the step, `[1:0]` the action (40_send_buffer R411). -/
def enqResult (qlen : Nat) (action : BitVec 2) : BitVec 24 := 0#8 ++ BitVec.ofNat 8 qlen ++ 0#6 ++ action

/-- RESULT of GET_STATE: `[22:16]` percent, `[10]` isOn, `[9]` isKnown, `[8]` isSeen, `[7:0]` the byte (45_module_state R670). -/
def stateResult (v : Byte) : BitVec 24 :=
  0#1 ++ BitVec.ofNat 7 (b2pNat (min (byteBr v).toNat 62)) ++ 0#5 ++ BitVec.ofBool (isOn v) ++ BitVec.ofBool (isKnown v) ++
    BitVec.ofBool (isSeen v) ++ v

/-- RESULT of GET_STATUS (46_control R705). -/
def State.statusResult (s : State) : BitVec 24 :=
  s.zeroCount ++ BitVec.ofNat 8 s.qLen ++ 0#4 ++ BitVec.ofBool s.rx.active ++ BitVec.ofBool (s.txCount != 0) ++
    BitVec.ofBool s.overrun ++ BitVec.ofBool s.enable

end Sys2Proof.Machine
end

