-- ==== Sys2Proof/Machine/Ops.lean ====
section
/-! DEFINITION. Machine/Ops.lean: the named operations over the state: the module state memory and its backends (20_memory R203
to R206), the queue (40_send_buffer R401, R404), the provider's outputs (00_scope R15), the response and notification ports,
the input port, and the reset of a running machine. The core raises no exception (60_exceptions R800, R820), so there is no
exception entry and no return here. -/

namespace Sys2Proof.Machine

/-! ## Memory -/

/-- What a key not listed reads as: the unseen module's 0, the logical value of an erased cell (20_memory R204, R208;
10_state R124; log entry 11). -/
def Memory.unlisted : Byte := 0

/-- The logical byte at a key. -/
def Memory.read : Memory → Nat → Byte
  | [], _ => Memory.unlisted
  | c :: m, a => if c.1 = a then c.2 else Memory.read m a

/-- Set the logical byte at a key, keeping the canonical form. -/
def Memory.write : Memory → Nat → Byte → Memory
  | [], a, v => if v = Memory.unlisted then [] else [(a, v)]
  | c :: m, a, v =>
    if a < c.1 then (if v = Memory.unlisted then c :: m else (a, v) :: c :: m)
    else if c.1 = a then (if v = Memory.unlisted then m else (a, v) :: m)
    else c :: Memory.write m a v

/-- Canonical from key `lo` on: keys rising and below 256 (20_memory R200, R202), no cell equal to what an unlisted key reads. -/
def Memory.wfFrom : Nat → Memory → Bool
  | _, [] => true
  | lo, c :: m => decide (lo ≤ c.1) && decide (c.1 < 256) && decide (c.2 ≠ Memory.unlisted) && Memory.wfFrom (c.1 + 1) m

/-- The memory is in its one canonical form. -/
def Memory.wf (m : Memory) : Bool := Memory.wfFrom 0 m

/-- `readByte(key)` of the external store: stored = logical - 1 mod 256 (20_memory R204). -/
def State.readByte (s : State) (k : Key) : Byte := s.mem.read k.toNat - 1

/-- `writeByte(key, byte)`: the external store takes the byte; the request is logged (20_memory R204, log entry 12). -/
def State.writeByte (s : State) (k : Key) (b : Byte) : State :=
  { s with mem := s.mem.write k.toNat (b + 1), storeLog := s.storeLog ++ [(k.toNat, b)] }

/-- `MemRead(k, 1)` on each backend (20_memory R203, R204, R205). -/
def State.memRead (s : State) (k : Key) : Byte :=
  match s.cfg.backend with
  | .none => 0
  | .volatile => s.mem.read k.toNat
  | .persistent => s.readByte k + 1

/-- `MemWrite(k, 1, v)` on each backend (20_memory R203, R204, R205). -/
def State.memWrite (s : State) (k : Key) (v : Byte) : State :=
  match s.cfg.backend with
  | .none => s
  | .volatile => { s with mem := s.mem.write k.toNat v }
  | .persistent => s.writeByte k (v - 1)

/-- One `MemWrite(k, 1, 0)` per key, in the order listed (45_module_state R675). -/
def State.wipe : List Key → State → State
  | [], s => s
  | k :: ks, s => State.wipe ks (s.memWrite k 0)

/-! ## Provider outputs (00_scope R15, 20_memory R220) -/

/-- `set_out(v)`. -/
def State.setOut (s : State) (v : Bool) : State := { s with outLevel := v }

/-- What `timer_delay` holds after `arm_timer(d)`: d, or a free value when d does not fit the register (log entry 15). -/
def delayWord (d : Nat) : BitVec 16 := if d < 65536 then BitVec.ofNat 16 d else Config.freeDelay d

/-- `arm_timer(d)` (10_state R122). -/
def State.armTimer (s : State) (d : Nat) : State := { s with timerArmed := true, timerDelay := delayWord d }

/-- `disarm_timer()` (10_state R122). -/
def State.disarmTimer (s : State) : State := { s with timerArmed := false }

/-! ## Response and notification -/

/-- `respond(STATUS, RESULT)`: the response word of the step (30_encoding R336). -/
def State.respond (s : State) (st : Status) (result : BitVec 24) : State := { s with rsp := some (statusCode st ++ result) }

/-- The ILLEGAL response: `0x03000000`, no other change (46_control R712). -/
def State.respondIllegal (s : State) : State := s.respond .illegal 0

/-- The 37-bit record word (44_frame_decoder R630). -/
def Notify.pack (r : Notify) : BitVec 37 := r.house ++ r.unit ++ r.command ++ r.data ++ r.xcmd ++ r.bitcount

/-- `emit NOTIFY(h, u, c, d, x, n)`: append the record and strobe the output port (44_frame_decoder R630). -/
def State.emit (s : State) (r : Notify) : State := { s with nlog := s.nlog ++ [r], notifyPort := some r.pack }

/-! ## Queue -/

/-- Replace the repetition count of the head entry. -/
def State.setHeadReps (s : State) (r : BitVec 8) : State :=
  { s with slots := s.slots.set s.qHead ⟨s.headSlot.frame, r⟩ }

/-- `append(f, reps, ctx, now)` with the quiescence reset of an interrupt-context append into an empty queue
(40_send_buffer R404, R405). -/
def State.append (s : State) (f : Frame) (reps : BitVec 8) (ctx : Bool) : State :=
  { s with
    slots := s.slots.set s.qTail ⟨f, reps⟩
    qTail := (s.qTail + 1) % s.cfg.n
    lastMs := s.nowMs
    zeroCount := if ctx && s.qEmpty then 0 else s.zeroCount }

/-- Answer an enqueue: OK, the queue length as it now is, and the action taken (40_send_buffer R411). -/
def State.respondEnq (s : State) (action : BitVec 2) : State := s.respond .ok (enqResult s.qLen action)

/-- `enqueue(f, reps, ctx)`: the coalescing rules, checked in order (40_send_buffer R401, R402, R406, R408). -/
def State.enqueue (s : State) (f : Frame) (reps : BitVec 8) (ctx : Bool) : State :=
  if s.headSlot.frame = f ∧ s.headSlot.reps.toNat > 0 then (s.setHeadReps reps).respondEnq 1
  else if s.qFull = false then
    if (s.slotAt s.qLast).frame ≠ f ∨ s.rebufferElapsed = true then (s.append f reps ctx).respondEnq 0
    else s.respondEnq 2
  else s.respond .full 0

/-- `retire()` (43_frame_encoder R566). -/
def State.retire (s : State) : State := { s with qHead := (s.qHead + 1) % s.cfg.n }

/-! ## Receive accumulator -/

/-- `clear_acc()` (44_frame_decoder R615). -/
def State.clearAcc (s : State) : State := { s with rx := {} }

/-- `clear_all()` (44_frame_decoder R615). -/
def State.clearAll (s : State) : State := { s.clearAcc with addr := {} }

/-! ## The input port (log entries 3, 4 and 10) -/

/-- Take the presented input: its draws become the step's, and the one-step strobes of the step before are dropped. -/
def State.present (s : State) (x : Input) (rest : List Input) : State :=
  { s with nowMs := x.nowMs, readIn := x.readIn, rsp := none, notifyPort := none, port := rest }

/-- What a presented word that is no instruction does: an undecodable command word answers ILLEGAL (30_encoding R334, R343),
event code 00 is no event, event code 11 is refused (30_encoding R339). -/
def State.undecoded (s : State) (e : DecodeError) : Host.Outcome State Fault Refusal :=
  match e with
  | .reservedBits => .next s.respondIllegal
  | .reservedOpcode => .next s.respondIllegal
  | .noEvent => .next s
  | .reservedEvent => .refused .reservedEventCode

/-- Put a word before what is still to be taken, with the draws the ports now show. -/
def State.offer (s : State) (w : PortWord) : State := { s with port := ⟨w, s.nowMs, s.readIn⟩ :: s.port }

/-- A provider offers a TIMER only for an armed request (60_exceptions R811): an idle timer is first given the request a
half-cycle's start gives it, sample pending (log entry 5). -/
def State.offerTableWord (s : State) (w : PortWord) : State :=
  if w = .event 0b10 ∧ s.timerArmed = false then { s with timerArmed := true, slot := 1 }.offer w else s.offer w

/-! ## Reset of a running machine -/

/-- Reset applied to a running machine: every element returns to its reset value (70_reset_and_hazards R900), the parameters
stay (R901), and the external store of PERSISTENT keeps its content (20_memory R208). What the host and the provider are
presenting is theirs and stays (log entry 23). -/
def State.applyReset (s : State) : State :=
  { State.launch s.cfg [] with
    mem := (match s.cfg.backend with
      | .none => []
      | .volatile => []
      | .persistent => s.mem)
    nowMs := s.nowMs
    readIn := s.readIn
    port := s.port }

end Sys2Proof.Machine
end

