-- ==== Sys2Proof/Machine/ModuleState.lean ====
section
/-! DEFINITION. Machine/ModuleState.lean: the module state update (45_module_state section 2) and the commands that read, wipe
and convert (section 3). -/

namespace Sys2Proof.Machine

/-- A module state byte from its status code and brightness (45_module_state R650). -/
def mkByte (st : BitVec 2) (br : BitVec 6) : Byte := st ++ br

/-- The preset level of a data byte: `min(d[5:0], 62)` (45_module_state R660). -/
def dataLevel (d : Byte) : BitVec 6 := BitVec.ofNat 6 (min (d.extractLsb' 0 6).toNat 62)

/-- DIM (45_module_state R658): one step of 9 down from known-on, clamped to 1..62; a snap to 53 from any other state. The lower
clamp makes the subtraction on Nat agree with the one on integers. -/
def dimBr (st : BitVec 2) (br : BitVec 6) : BitVec 6 :=
  if st = 0b11 then BitVec.ofNat 6 (clampNat (br.toNat - 9) 1 62) else 53

/-- BRIGHT (45_module_state R659): one step of 9 up from known-on, clamped to 1..62; a snap to 9 from any other state. -/
def brightBr (st : BitVec 2) (br : BitVec 6) : BitVec 6 :=
  if st = 0b11 then BitVec.ofNat 6 (clampNat (br.toNat + 9) 1 62) else 9

/-- The byte a decoded command makes of a module's byte (45_module_state R655): `presetDim` is PRESET_DIM_ENABLE, `d` the data,
`x` the sub-command and `xvalid` whether it was received. -/
def updatedByte (presetDim : Bool) (v : Byte) (cmd : Nibble) (d x : Byte) (xvalid : Bool) : Byte :=
  let st := byteSt v
  let br := byteBr v
  if cmd = cmdOn ∨ cmd = cmdStatusOn then mkByte 0b11 (if br = 0 then 62 else br)
  else if cmd = cmdOff ∨ cmd = cmdStatusOff then mkByte 0b10 br
  else if cmd = cmdDim then mkByte 0b11 (dimBr st br)
  else if cmd = cmdBright then mkByte 0b11 (brightBr st br)
  else if (presetDim = true ∧ isPreset cmd = true) ∨ (cmd = cmdExtendedCode ∧ xvalid = true ∧ x = extPresetDim) then
    if dataLevel d = 0 then mkByte 0b10 br else mkByte 0b11 (dataLevel d)
  else mkByte (if st = 0b00 then 0b01 else st) br

/-- `module_update(h, u, cmd, d, x, xvalid)`: one read-modify-write of one byte (45_module_state R655, R663). -/
def State.moduleUpdate (s : State) (h : BitVec 4) (u : BitVec 5) (cmd : Nibble) (d x : Byte) (xvalid : Bool) : State :=
  let k := moduleKey h u
  s.memWrite k (updatedByte s.cfg.presetDimEnable (s.memRead k) cmd d x xvalid)

/-- GET_STATE (45_module_state R670). -/
def execGetState (house unit : BitVec 5) (s : State) : Host.Outcome State Fault Refusal :=
  if moduleInvalid house unit then .next (s.respond .invalid 0)
  else .next (s.respond .ok (stateResult (s.memRead (moduleKey (houseOfField house) unit))))

/-- WIPE_STATE (45_module_state R675). -/
def execWipeState (house unit : BitVec 5) (s : State) : Host.Outcome State Fault Refusal :=
  if wipeInvalid house unit then .next (s.respond .invalid 0)
  else .next ((State.wipe (wipeKeys house unit) s).respond .ok 0)

/-- PCT_TO_BRIGHT (45_module_state R685). -/
def execPctToBright (val : BitVec 8) (s : State) : Host.Outcome State Fault Refusal :=
  if val.toNat > 100 then .next (s.respond .invalid 0)
  else .next (s.respond .ok (BitVec.ofNat 24 (p2bNat val.toNat)))

/-- BRIGHT_TO_PCT (45_module_state R690). -/
def execBrightToPct (val : BitVec 8) (s : State) : Host.Outcome State Fault Refusal :=
  if val.toNat > 62 then .next (s.respond .invalid 0)
  else .next (s.respond .ok (BitVec.ofNat 24 (b2pNat val.toNat)))

end Sys2Proof.Machine
end

