-- ==== Sys2Proof/Machine/FrameDecoder.lean ====
section
/-! DEFINITION. Machine/FrameDecoder.lean: start detection (42_bit_slot_timer section 3) and the frame decoder
(44_frame_decoder). Both run inside the finish step of a half-cycle. -/

namespace Sys2Proof.Machine

/-- `start_rx()`: the start code's four half-cycles are counted (42_bit_slot_timer R523, R524). -/
def State.startRx (s : State) : State :=
  { s.clearAcc with rx := { (s.clearAcc).rx with active := true, count := 4 } }

/-- `detect(b)`: exactly three ones, then a zero (42_bit_slot_timer R522). -/
def State.detect (s : State) (b : Bool) : State :=
  if b then { s with onesCount := BitVec.ofNat 3 (min (s.onesCount.toNat + 1) 4) }
  else if s.onesCount = 3 then { s.startRx with onesCount := 0 }
  else { s with onesCount := 0 }

/-- What a processed command reports and updates (44_frame_decoder R614). -/
structure Resolved where
  house : BitVec 4
  /-- 1..16, or 0 for none. -/
  unit  : BitVec 5
  data  : Byte
  xcmd  : Byte
  deriving DecidableEq, Repr

/-- The target of an extended command (44_frame_decoder R616): fields not received report 0. -/
def resolveExtended (r : RxAcc) : Resolved where
  house := houseIndex r.house
  unit := if r.xunitValid then unitOf r.xunit else 0
  data := if r.dataValid then r.data else 0
  xcmd := if r.xcmdValid then r.xcmd else 0

/-- The target of a standard preset dim: the pending address, the level from the command bit and the house field
(44_frame_decoder R618). -/
def resolvePreset (r : RxAcc) (a : PendingAddr) : Resolved where
  house := houseIndex a.house
  unit := unitOf a.unit
  data := BitVec.ofNat 8 (2 * (16 * (r.cmd.getLsbD 0).toNat + (houseIndex r.house).toNat))
  xcmd := 0

/-- The target of any other command: the pending unit when its house code is the block's, else none (44_frame_decoder R617). -/
def resolveStandard (r : RxAcc) (a : PendingAddr) : Resolved where
  house := houseIndex r.house
  unit := if a.valid = true ∧ a.house = r.house then unitOf a.unit else 0
  data := 0
  xcmd := 0

/-- Resolve a command message; `none` is a preset dim without a pending address, which is discarded (44_frame_decoder R614,
R618). -/
def resolveCommand (presetDim : Bool) (r : RxAcc) (a : PendingAddr) : Option Resolved :=
  if isExtCmd r.cmd then some (resolveExtended r)
  else if presetDim = true ∧ isPreset r.cmd = true then
    if a.valid then some (resolvePreset r a) else none
  else some (resolveStandard r a)

/-- Update the module if the message named a unit, then emit the record (44_frame_decoder R614, R631). -/
def State.deliver (s : State) (t : Resolved) (n : BitVec 8) : State :=
  let cmd := s.rx.cmd
  let s1 :=
    if t.unit = 0 then s
    else s.moduleUpdate t.house t.unit cmd t.data t.xcmd (isExtCmd cmd && s.rx.xcmdValid)
  s1.emit ⟨t.house, t.unit, cmd, t.data, t.xcmd, n⟩

/-- `process_command(n)` (44_frame_decoder R614). -/
def State.processCommand (s : State) (n : BitVec 8) : State :=
  match resolveCommand s.cfg.presetDimEnable s.rx s.addr with
  | none => s.clearAll
  | some t => (s.deliver t n).clearAll

/-- `end_of_message(n)` (44_frame_decoder R612): a message with no command keeps the pending address (R613). -/
def State.endOfMessage (s : State) (n : BitVec 8) : State :=
  if s.rx.cmdValid = false then s.clearAcc else s.processCommand n

/-- Accept a valid pair: shift the raw bit into the low end of the rolling buffer (44_frame_decoder R604). -/
def State.acceptBit (s : State) : State :=
  { s with rx := { s.rx with buf := (s.rx.buf <<< 1) ||| (BitVec.ofBool s.rx.raw).setWidth 8 } }

/-- `address_block()` (44_frame_decoder R607). -/
def State.addressBlock (s : State) : State :=
  { s with addr := { valid := true, house := s.rx.house, unit := s.rx.key } }

/-- `command_block()` (44_frame_decoder R608). -/
def State.commandBlock (s : State) : State :=
  { s with rx := { s.rx with cmd := s.rx.key, cmdValid := true } }

/-- The last four bits received, earliest in bit 3 (44_frame_decoder R604). -/
def State.bufNibble (s : State) : Nibble := s.rx.buf.extractLsb' 0 4

/-- `checkpoint(c)` (44_frame_decoder R606). -/
def State.checkpoint (s : State) (c : Nat) : State :=
  if c = 12 then { s with rx := { s.rx with house := s.bufNibble } }
  else if c = 20 then { s with rx := { s.rx with key := s.bufNibble } }
  else if c = 22 then
    if s.rx.buf.getLsbD 0 = false then s.addressBlock else s.commandBlock
  else if s.rx.cmdValid = true ∧ isExtCmd s.rx.cmd = true then
    if c = 30 then { s with rx := { s.rx with xunit := s.bufNibble, xunitValid := true } }
    else if c = 46 then { s with rx := { s.rx with data := s.rx.buf, dataValid := true } }
    else if c = 62 then { s with rx := { s.rx with xcmd := s.rx.buf, xcmdValid := true } }
    else s
  else s

/-- `rx_step(b)` (44_frame_decoder R601). -/
def State.rxStep (s : State) (b : Bool) : State :=
  let c := s.rx.count.toNat + 1
  let s1 := { s with rx := { s.rx with count := BitVec.ofNat 8 c } }
  if c % 2 = 1 then { s1 with rx := { s1.rx with raw := b } }
  else if b = s1.rx.raw then { s1.endOfMessage (BitVec.ofNat 8 (c - 2)) with onesCount := if b then 2 else 0 }
  else
    let s2 := s1.acceptBit.checkpoint c
    if c = 62 then s2.endOfMessage 62 else s2

end Sys2Proof.Machine
end

