-- ==== Sys2Proof/Machine/BitSlotTimer.lean ====
section
/-! DEFINITION. Machine/BitSlotTimer.lean: the TIMER event (42_bit_slot_timer sections 1 and 2). -/

namespace Sys2Proof.Machine

/-- `update_silence()`: a half-cycle with neither a sampled nor a transmitted one is silent; the count saturates at 255
(42_bit_slot_timer R520). -/
def State.updateSilence (s : State) : State :=
  { s with zeroCount :=
      if s.inLatch = false ∧ s.txOut = false then BitVec.ofNat 8 (min (s.zeroCount.toNat + 1) 255) else 0 }

/-- `finish()` (42_bit_slot_timer R513). -/
def State.finish (s : State) : State :=
  let s1 := { s.disarmTimer with slot := 0 }.updateSilence
  if s1.rx.active then s1.rxStep s1.inLatch else s1.detect s1.inLatch

/-- Slot 1: sample the input line (42_bit_slot_timer R505). -/
def State.sampleLine (s : State) : State :=
  { { s with inLatch := s.readIn }.armTimer (s.cfg.tPulse - s.cfg.tSample) with slot := 2 }

/-- Slot 2: end of the first pulse window (42_bit_slot_timer R507). -/
def State.endFirstPulse (s : State) : State :=
  let s1 := s.setOut false
  if s1.txOut = true ∧ s1.cfg.phases > 1 then { s1.armTimer (s1.cfg.tPhase - s1.cfg.tPulse) with slot := 3 }
  else s1.finish

/-- Odd slot k from 3: start a phase pulse (42_bit_slot_timer R508). -/
def State.startPhasePulse (s : State) : State :=
  { (s.setOut true).armTimer s.cfg.tPulse with slot := s.slot + 1 }

/-- Even slot k from 4: end a phase pulse, and the half-cycle if it was the last (42_bit_slot_timer R509). -/
def State.endPhasePulse (s : State) : State :=
  let s1 := s.setOut false
  if s1.slot.toNat = 2 * s1.cfg.phases then s1.finish
  else { s1.armTimer (s1.cfg.tPhase - s1.cfg.tPulse) with slot := s1.slot + 1 }

/-- TIMER (42_bit_slot_timer R500). It has no step while the timer is not armed (60_exceptions R811; log entry 7); the slot
values R511 and R512 rule out are a fault (log entry 9). -/
def execTimer (s : State) : Host.Outcome State Fault Refusal :=
  if s.timerArmed = false then .refused .timerNotArmed
  else
    let s1 := { s with timerArmed := false }
    if s.slot.toNat = 0 ∨ s.slot.toNat > 2 * s.cfg.phases then .fault .slotOutOfRange
    else if s.slot.toNat = 1 then .next s1.sampleLine
    else if s.slot.toNat = 2 then .next s1.endFirstPulse
    else if s.slot.toNat % 2 = 1 then .next s1.startPhasePulse
    else .next s1.endPhasePulse

end Sys2Proof.Machine
end

