-- ==== Sys2Proof/Machine/Control.lean ====
section
/-! DEFINITION. Machine/Control.lean: START and GET_STATUS (46_control). -/

namespace Sys2Proof.Machine

/-- START: ENABLE <- 1, OK (46_control R700). -/
def execStart (s : State) : Host.Outcome State Fault Refusal :=
  .next ({ s with enable := true }.respond .ok 0)

/-- GET_STATUS: read the control and progress state (46_control R705). -/
def execGetStatus (s : State) : Host.Outcome State Fault Refusal :=
  .next (s.respond .ok s.statusResult)

end Sys2Proof.Machine
end

