-- ==== Sys2Proof/Machine/SendBuffer.lean ====
section
/-! DEFINITION. Machine/SendBuffer.lean: the five enqueue commands (40_send_buffer section 2). Each validates its operands,
builds a frame and runs the common procedure `State.enqueue` (R400). -/

namespace Sys2Proof.Machine

/-- ENQ_ADDRESS (40_send_buffer R420). -/
def execEnqAddress (ctx : Bool) (reps : BitVec 8) (house unit : BitVec 5) (s : State) : Host.Outcome State Fault Refusal :=
  if enqInvalid reps house unit || unit == 0 then .next (s.respond .invalid 0)
  else .next (s.enqueue (addressFrame (houseOfField house) unit) reps ctx)

/-- ENQ_COMMAND (40_send_buffer R425). -/
def execEnqCommand (ctx : Bool) (reps : BitVec 8) (house unit : BitVec 5) (cmd : BitVec 4) (s : State) :
    Host.Outcome State Fault Refusal :=
  if enqInvalid reps house unit || extWithoutUnit cmd unit then .next (s.respond .invalid 0)
  else .next (s.enqueue (buildFrame (houseOfField house) unit cmd 0x00 0x00 none) reps ctx)

/-- ENQ_DIM_PERCENT (40_send_buffer R430). -/
def execEnqDimPercent (ctx : Bool) (reps : BitVec 8) (house unit : BitVec 5) (val : BitVec 8) (s : State) :
    Host.Outcome State Fault Refusal :=
  if enqInvalid reps house unit || decide (val.toNat > 100) then .next (s.respond .invalid 0)
  else
    let level := presetLevel val
    .next (s.enqueue
      (buildFrame (houseOfField house) unit (presetCmd level) 0x00 0x00 (some (presetNibble level))) reps ctx)

/-- ENQ_EXT_DIM_PERCENT (40_send_buffer R435). -/
def execEnqExtDimPercent (ctx : Bool) (reps : BitVec 8) (house unit : BitVec 5) (time : BitVec 2) (val : BitVec 8)
    (s : State) : Host.Outcome State Fault Refusal :=
  if enqInvalid reps house unit || unit == 0 || decide (val.toNat > 100) then .next (s.respond .invalid 0)
  else .next (s.enqueue
    (buildFrame (houseOfField house) unit cmdExtendedCode (extDimData time val) extPresetDim none) reps ctx)

/-- ENQ_RAW_EXT (40_send_buffer R440). -/
def execEnqRawExt (ctx : Bool) (reps : BitVec 8) (house unit : BitVec 5) (cmd : BitVec 4) (xdata xcmd : BitVec 8)
    (s : State) : Host.Outcome State Fault Refusal :=
  if enqInvalid reps house unit || extWithoutUnit cmd unit then .next (s.respond .invalid 0)
  else if isExtCmd cmd then .next (s.enqueue (buildFrame (houseOfField house) unit cmd xdata xcmd none) reps ctx)
  else .next (s.enqueue (buildFrame (houseOfField house) unit cmd 0x00 0x00 none) reps ctx)

end Sys2Proof.Machine
end

