-- ==== Sys2Proof/Machine/FrameEncoder.lean ====
section
/-! DEFINITION. Machine/FrameEncoder.lean: `next_bit()` and the end of a repetition (43_frame_encoder R551, R565 to R567). -/

namespace Sys2Proof.Machine

/-- The hold before part two: a STANDARD repetition at count 40 on a line not yet silent for PART_GAP half-cycles
(43_frame_encoder R551, R555). -/
def State.holdsPartTwo (s : State) (sh : Shape) : Bool :=
  sh == .standard && s.txCount == 40 && decide (s.zeroCount.toNat < s.cfg.partGap)

/-- The DIM/BRIGHT pre-seed applies: a COMMAND_ONLY frame whose command is DIM or BRIGHT (43_frame_encoder R567). -/
def preSeeds (f : Frame) (sh : Shape) : Bool :=
  sh == .commandOnly && (frameKey1 f == cmdDim || frameKey1 f == cmdBright)

/-- `end_of_repetition(f, tag)` (43_frame_encoder R565 to R567). -/
def State.endOfRepetition (s : State) (f : Frame) (sh : Shape) : State :=
  let s1 := { s.setHeadReps (s.headSlot.reps - 1) with txCount := 0 }
  if s1.headSlot.reps = 0 then s1.retire
  else if preSeeds f sh then { s1 with zeroCount := s.cfg.minSilence }
  else s1

/-- `next_bit()` for a head frame of a produced shape (43_frame_encoder R551): the bit sent and the state after. -/
def State.nextBitOf (s : State) (f : Frame) (sh : Shape) : Bool × State :=
  if s.holdsPartTwo sh then (false, s)
  else
    let c := s.txCount.toNat + 1
    let s1 := { s with txCount := BitVec.ofNat 8 c }
    (wireBit f sh c, if c = endCount sh then s1.endOfRepetition f sh else s1)

/-- `next_bit()`: the shape comes from the head frame's tag alone (43_frame_encoder R552); a tag no enqueue produces never
reaches the encoder (93 I6; log entry 8). -/
def State.nextBit (s : State) : Option (Bool × State) :=
  match frameShape s.headSlot.frame with
  | none => none
  | some sh => some (s.nextBitOf s.headSlot.frame sh)

end Sys2Proof.Machine
end

