-- ==== Sys2Proof/Machine/ZeroCross.lean ====
section
/-! DEFINITION. Machine/ZeroCross.lean: the ZC event (41_zero_cross). -/

namespace Sys2Proof.Machine

/-- The overrun part of a ZC that finds the previous half-cycle's sequence unfinished (41_zero_cross R451). -/
def State.markOverrun (s : State) : State :=
  if s.slot = 0 then s else { s with overrun := true }.setOut false

/-- Begin a half-cycle: reset the latches, sub-state 1, arm the sample (41_zero_cross R450). -/
def State.beginHalfCycle (s : State) : State :=
  { s with inLatch := false, txOut := false, slot := 1 }.armTimer s.cfg.tSample

/-- Latch the bit the encoder handed out and start its pulse (41_zero_cross R450, R454). -/
def State.driveBit (s : State) (b : Bool) : State :=
  if b then { s with txOut := true }.setOut true else { s with txOut := false }

/-- ZC (41_zero_cross R450 to R452). -/
def execZc (s : State) : Host.Outcome State Fault Refusal :=
  if s.enable = false then .next s
  else
    let s1 := s.markOverrun.beginHalfCycle
    if s1.txReady then
      match s1.nextBit with
      | none => .fault .reservedShapeTag
      | some (b, s2) => .next (s2.driveBit b)
    else .next s1

end Sys2Proof.Machine
end

