-- ==== Sys2Proof/Machine/Dispatch.lean ====
section
/-! DEFINITION. Machine/Dispatch.lean: one arm per row of spec/opcode_table.json. -/

namespace Sys2Proof.Machine

/-- The meaning of each instruction. -/
def exec (i : Instr) (s : State) : Host.Outcome State Fault Refusal :=
  match i with
  | .start => Sys2Proof.Machine.execStart s
  | .getStatus => Sys2Proof.Machine.execGetStatus s
  | .enqAddress ctx reps house unit => Sys2Proof.Machine.execEnqAddress ctx reps house unit s
  | .enqCommand ctx reps house unit cmd => Sys2Proof.Machine.execEnqCommand ctx reps house unit cmd s
  | .enqDimPercent ctx reps house unit val => Sys2Proof.Machine.execEnqDimPercent ctx reps house unit val s
  | .enqExtDimPercent ctx reps house unit time val => Sys2Proof.Machine.execEnqExtDimPercent ctx reps house unit time val s
  | .enqRawExt ctx reps house unit cmd xdata xcmd => Sys2Proof.Machine.execEnqRawExt ctx reps house unit cmd xdata xcmd s
  | .getState house unit => Sys2Proof.Machine.execGetState house unit s
  | .wipeState house unit => Sys2Proof.Machine.execWipeState house unit s
  | .pctToBright val => Sys2Proof.Machine.execPctToBright val s
  | .brightToPct val => Sys2Proof.Machine.execBrightToPct val s
  | .zc => Sys2Proof.Machine.execZc s
  | .timer => Sys2Proof.Machine.execTimer s

end Sys2Proof.Machine
end

