-- ==== Sys2Proof/Machine/Step.lean ====
section
/-! DEFINITION. Machine/Step.lean: one step of the core: exactly one presented command or event, taken whole (00_scope R7,
20_memory R230). -/

namespace Sys2Proof.Machine

/-- One step. With nothing presented the core waits, unchanged (70_reset_and_hazards R902). -/
def step (s : State) : Host.Outcome State Fault Refusal :=
  match s.port with
  | [] => .next s
  | x :: rest =>
    match decode x.word with
    | .instr i => exec i (s.present x rest)
    | .reject e => (s.present x rest).undecoded e

/-- The state in which the very next step takes the table word `w` of a row of `nbits` bits (log entry 5). -/
def State.withFetchWord (s : State) (nbits w : Nat) : State := s.offerTableWord (tableWord nbits w)

end Sys2Proof.Machine
end

