-- ==== Sys2Proof/WellFormed.lean ====
section
/-! DEFINITION. WellFormed.lean: the operand ranges each command's own "Operands" line gives (40_send_buffer R420 to R440,
45_module_state R670 to R690), written from those lines and not from the pseudocode the meanings follow. Every instruction,
well formed or not, has an encoding and executes: an ill-formed command answers INVALID (30_encoding R331, R332, R333). -/

namespace Sys2Proof

/-- A house index, A = 0 .. P = 15 (30_encoding R331). -/
def houseOk (h : BitVec 5) : Bool := h.toNat < 16

/-- A unit number 1..16 (30_encoding R332). -/
def unitOk (u : BitVec 5) : Bool := 1 ≤ u.toNat && u.toNat ≤ 16

/-- A unit number, or 0 for NO_UNIT (30_encoding R332). -/
def unitOrNoneOk (u : BitVec 5) : Bool := u.toNat ≤ 16

/-- A repetition count, 1..255 (30_encoding R333). -/
def repsOk (r : BitVec 8) : Bool := 1 ≤ r.toNat

/-- A percentage, 0..100. -/
def percentOk (v : BitVec 8) : Bool := v.toNat ≤ 100

/-- An extended command code needs a unit (40_send_buffer R425, R440): EXTENDED_CODE is 0111, EXTENDED_DATA 1100. -/
def extendedUnitOk (cmd : BitVec 4) (u : BitVec 5) : Bool := (cmd.toNat != 7 && cmd.toNat != 12) || u.toNat != 0

/-- The operands are in the ranges the command's rule lists. -/
def Instr.wellFormed : Instr → Bool
  | .start => true
  | .getStatus => true
  | .enqAddress _ reps house unit => repsOk reps && houseOk house && unitOk unit
  | .enqCommand _ reps house unit cmd => repsOk reps && houseOk house && unitOrNoneOk unit && extendedUnitOk cmd unit
  | .enqDimPercent _ reps house unit val => repsOk reps && houseOk house && unitOrNoneOk unit && percentOk val
  | .enqExtDimPercent _ reps house unit _ val => repsOk reps && houseOk house && unitOk unit && percentOk val
  | .enqRawExt _ reps house unit cmd _ _ => repsOk reps && houseOk house && unitOrNoneOk unit && extendedUnitOk cmd unit
  | .getState house unit => houseOk house && unitOk unit
  | .wipeState house unit => (houseOk house || house.toNat == 31) && unitOrNoneOk unit
  | .pctToBright val => percentOk val
  | .brightToPct val => val.toNat ≤ 62
  | .zc => true
  | .timer => true

end Sys2Proof
end

