-- ==== Sys2Proof/Safety.lean ====
section
/-! DEFINITION. Safety.lean: the terms claims use: the invariants the spec gives the state (10_state R109, 42_bit_slot_timer R511
and R512, the ranges of 10_state), what a processed message stores to, and whole half-cycles (30_encoding R344). -/

namespace Sys2Proof.Machine

/-! ## Invariants -/

/-- Slot `i` lies in the ring interval `[Q_head, Q_tail)` (10_state R109). -/
abbrev State.queued (s : State) (i : Nat) : Prop := (i + s.cfg.n - s.qHead) % s.cfg.n < s.qLen

/-- The ring is well indexed (10_state R105 to R107) and holds repetitions exactly in the interval (R109). -/
abbrev State.QueueInv (s : State) : Prop :=
  s.slots.length = s.cfg.n ∧ s.qHead < s.cfg.n ∧ s.qTail < s.cfg.n ∧
    ∀ i < s.cfg.n, (s.queued i ↔ 1 ≤ (s.slotAt i).reps.toNat)

/-- A frame some enqueue can produce: its tag names a shape, its function bits are the shape's, and the bits its layout marks 0
are 0 (30_encoding R311 to R316). -/
def producedFrame (f : Frame) : Bool :=
  match frameShape f with
  | none => false
  | some .standard =>
    !f.getLsbD 23 && f.getLsbD 14 && f.extractLsb' 3 11 == 0 && !isExtCmd (f.extractLsb' 15 4)
  | some .commandOnly => f.getLsbD 23 && f.extractLsb' 3 20 == 0 && !isExtCmd (frameKey1 f)
  | some .extended => f.getLsbD 23 && isExtCmd (frameKey1 f)
  | some .addressOnly => !f.getLsbD 23 && f.extractLsb' 3 20 == 0

/-- Every slot holds its reset frame 0 or a produced frame, and every queued one a produced frame (10_state R105; 30_encoding
R316; 43_frame_encoder R552). -/
abbrev State.FramesInv (s : State) : Prop :=
  ∀ i < s.cfg.n, ((s.slotAt i).frame = 0 ∨ producedFrame (s.slotAt i).frame = true) ∧
    (s.queued i → producedFrame (s.slotAt i).frame = true)

/-- A repetition in progress is of the head entry and has not reached its end count (10_state R110; 41_zero_cross R452). -/
abbrev State.TxInv (s : State) : Prop :=
  s.txCount = 0 ∨ (s.qEmpty = false ∧
    (frameShape s.headSlot.frame).any (fun sh => decide (s.txCount.toNat < endCount sh)) = true)

/-- The sub-state is in range (42_bit_slot_timer R512), 0 exactly while the timer is disarmed (R511), a phase-repeat state only in
a one-bit half-cycle (R508), and the output is high exactly inside a pulse (41_zero_cross R454; R507 to R509). -/
abbrev State.TimerInv (s : State) : Prop :=
  s.slot.toNat ≤ 2 * s.cfg.phases ∧ (s.slot = 0 ↔ s.timerArmed = false) ∧ (3 ≤ s.slot.toNat → s.txOut = true) ∧
    (s.outLevel = true ↔
      ((s.slot = 1 ∨ s.slot = 2) ∧ s.txOut = true) ∨ (4 ≤ s.slot.toNat ∧ s.slot.toNat % 2 = 0))

/-- The receive accumulator's ranges: cleared while idle (44_frame_decoder R615), the count within a message (10_state R118), the
detector at rest while a message is received (42_bit_slot_timer R522, R525), and the valid bits set by their checkpoints and
by nothing else (44_frame_decoder R606). -/
abbrev State.RxInv (s : State) : Prop :=
  s.onesCount.toNat ≤ 4 ∧ (s.rx.active = false → s.rx = ({} : RxAcc)) ∧
    (s.rx.active = true → s.onesCount = 0 ∧ 4 ≤ s.rx.count.toNat ∧ s.rx.count.toNat < 62) ∧
    (s.rx.cmdValid = true → 22 ≤ s.rx.count.toNat) ∧
    (s.rx.xunitValid = true ↔ s.rx.cmdValid = true ∧ isExtCmd s.rx.cmd = true ∧ 30 ≤ s.rx.count.toNat) ∧
    (s.rx.dataValid = true ↔ s.rx.cmdValid = true ∧ isExtCmd s.rx.cmd = true ∧ 46 ≤ s.rx.count.toNat) ∧
    s.rx.xcmdValid = false ∧ (s.addr.valid = false → s.addr = ({} : PendingAddr))

/-- The module memory is canonical (20_memory R200, R202), absent on BACKEND = NONE (R205), holds brightness 0..62 on VOLATILE
(45_module_state R653), and only a PERSISTENT store is sent byte writes (R204). -/
abbrev State.MemInv (s : State) : Prop :=
  Memory.wf s.mem = true ∧ (s.cfg.backend = .none → s.mem = []) ∧
    (s.cfg.backend = .volatile → ∀ c ∈ s.mem, (byteBr c.2).toNat ≤ 62) ∧
    (s.cfg.backend ≠ .persistent → s.storeLog = [])

/-- Every record's unit is 0..16 and its bit count an even 22..62 (44_frame_decoder R630). -/
abbrev State.LogInv (s : State) : Prop :=
  ∀ r ∈ s.nlog, r.unit.toNat ≤ 16 ∧ 22 ≤ r.bitcount.toNat ∧ r.bitcount.toNat ≤ 62 ∧ r.bitcount.toNat % 2 = 0

/-- Until START the core neither transmits nor receives (10_state R103; 41_zero_cross R450). -/
abbrev State.DisabledInv (s : State) : Prop :=
  s.enable = false → s.overrun = false ∧ s.slot = 0 ∧ s.timerArmed = false ∧ s.txCount = 0 ∧ s.txOut = false ∧
    s.outLevel = false ∧ s.inLatch = false ∧ s.onesCount = 0 ∧ s.rx = ({} : RxAcc) ∧ s.addr = ({} : PendingAddr) ∧
    s.nlog = []

/-- The invariant of every reachable state: legal parameters (00_scope R10) and all of the above. -/
abbrev State.Inv (s : State) : Prop :=
  s.cfg.Legal ∧ s.QueueInv ∧ s.FramesInv ∧ s.TxInv ∧ s.TimerInv ∧ s.RxInv ∧ s.MemInv ∧ s.LogInv ∧ s.DisabledInv

/-! ## Which instructions are what -/

/-- The two events; everything else is a host command (00_scope R7). -/
def isEvent : Instr → Bool
  | .zc => true
  | .timer => true
  | _ => false

/-- What a well-formed enqueue command asks to be queued: the frame, the repetitions and CTX (40_send_buffer R420 to R440). -/
def enqRequest (i : Instr) : Option (Frame × BitVec 8 × Bool) :=
  if i.wellFormed = false then none
  else
    match i with
    | .enqAddress ctx reps house unit => some (addressFrame (houseOfField house) unit, reps, ctx)
    | .enqCommand ctx reps house unit cmd => some (buildFrame (houseOfField house) unit cmd 0 0 none, reps, ctx)
    | .enqDimPercent ctx reps house unit val =>
      some (buildFrame (houseOfField house) unit (presetCmd (presetLevel val)) 0 0 (some (presetNibble (presetLevel val))),
        reps, ctx)
    | .enqExtDimPercent ctx reps house unit time val =>
      some (extendedFrame (houseOfField house) unit cmdExtendedCode (extDimData time val) extPresetDim, reps, ctx)
    | .enqRawExt ctx reps house unit cmd xdata xcmd =>
      some (if isExtCmd cmd then extendedFrame (houseOfField house) unit cmd xdata xcmd
        else buildFrame (houseOfField house) unit cmd 0 0 none, reps, ctx)
    | _ => none

/-- The same instruction with its CTX bit set to `x`; an instruction without one is unchanged (46_control R713). -/
def withCtx (x : Bool) : Instr → Instr
  | .enqAddress _ reps house unit => .enqAddress x reps house unit
  | .enqCommand _ reps house unit cmd => .enqCommand x reps house unit cmd
  | .enqDimPercent _ reps house unit val => .enqDimPercent x reps house unit val
  | .enqExtDimPercent _ reps house unit time val => .enqExtDimPercent x reps house unit time val
  | .enqRawExt _ reps house unit cmd xdata xcmd => .enqRawExt x reps house unit cmd xdata xcmd
  | i => i

/-- The bits of a command word an instruction's row uses: OP, RSVD and the fields of 30_encoding R338. -/
def usedBits : Instr → CommandWord
  | .start => 0xFF7F000000000000
  | .getStatus => 0xFF7F000000000000
  | .enqAddress _ _ _ _ => 0xFFFFFFFFC0000000
  | .enqCommand _ _ _ _ _ => 0xFFFFFFFFFC000000
  | .enqDimPercent _ _ _ _ _ => 0xFFFFFFFFC00000FF
  | .enqExtDimPercent _ _ _ _ _ _ => 0xFFFFFFFFC30000FF
  | .enqRawExt _ _ _ _ _ _ _ => 0xFFFFFFFFFCFFFF00
  | .getState _ _ => 0xFF7F00FFC0000000
  | .wipeState _ _ => 0xFF7F00FFC0000000
  | .pctToBright _ => 0xFF7F0000000000FF
  | .brightToPct _ => 0xFF7F0000000000FF
  | .zc => 0
  | .timer => 0

/-! ## Frame layouts, field by field -/

/-- 30_encoding R312: house code, unit code, command and the part-two nibble in their places. -/
abbrev StandardLayout (f : Frame) (house unit cmd hp : Nibble) : Prop :=
  f.extractLsb' 28 4 = house ∧ f.extractLsb' 24 4 = unit ∧ f.getLsbD 23 = false ∧ f.extractLsb' 19 4 = hp ∧
    f.extractLsb' 15 4 = cmd ∧ f.getLsbD 14 = true ∧ f.extractLsb' 3 11 = 0 ∧ f.extractLsb' 0 3 = 1

/-- 30_encoding R313. -/
abbrev CommandOnlyLayout (f : Frame) (hf cmd : Nibble) : Prop :=
  f.extractLsb' 28 4 = hf ∧ f.extractLsb' 24 4 = cmd ∧ f.getLsbD 23 = true ∧ f.extractLsb' 3 20 = 0 ∧ f.extractLsb' 0 3 = 2

/-- 30_encoding R314. -/
abbrev ExtendedLayout (f : Frame) (house cmd unit : Nibble) (xd xc : Byte) : Prop :=
  f.extractLsb' 28 4 = house ∧ f.extractLsb' 24 4 = cmd ∧ f.getLsbD 23 = true ∧ f.extractLsb' 19 4 = unit ∧
    f.extractLsb' 11 8 = xd ∧ f.extractLsb' 3 8 = xc ∧ f.extractLsb' 0 3 = 3

/-- 30_encoding R315. -/
abbrev AddressLayout (f : Frame) (house unit : Nibble) : Prop :=
  f.extractLsb' 28 4 = house ∧ f.extractLsb' 24 4 = unit ∧ f.getLsbD 23 = false ∧ f.extractLsb' 3 20 = 0 ∧
    f.extractLsb' 0 3 = 4

/-! ## What the end of a message stores to -/

/-- A TIMER at this state runs the finish step: the last pulse window of the half-cycle ends (42_bit_slot_timer R507, R509). -/
def State.finishing (s : State) : Bool :=
  (s.slot == 2 && !(s.txOut && decide (s.cfg.phases > 1))) ||
    (decide (4 ≤ s.slot.toNat) && s.slot.toNat == 2 * s.cfg.phases)

/-- The half-cycle being finished ends the message being received: a complement mismatch, or the ceiling (44_frame_decoder R610,
R611). -/
def State.endsMessage (s : State) : Bool :=
  s.rx.active && (s.rx.count.toNat + 1) % 2 == 0 && (s.inLatch == s.rx.raw || s.rx.count.toNat + 1 == 62)

/-- The key a TIMER at this state stores to, if it stores: the module the ending message resolves to (44_frame_decoder R614). -/
def State.storeTarget (s : State) : Option Key :=
  if s.finishing && s.endsMessage && s.rx.cmdValid then
    match resolveCommand s.cfg.presetDimEnable s.rx s.addr with
    | none => none
    | some t => if t.unit = 0 then none else some (moduleKey t.house t.unit)
  else none

/-! ## The ends of a half-cycle -/

/-- A half-cycle just begun with nothing sent yet: latches reset, sub-state 1, the sample armed, an overrun recorded and its
output dropped (41_zero_cross R450, R451). -/
def State.begun (s : State) : State :=
  { s with
    overrun := s.overrun || s.slot != 0
    outLevel := s.outLevel && s.slot == 0
    inLatch := false
    txOut := false
    slot := 1
    timerArmed := true
    timerDelay := BitVec.ofNat 16 s.cfg.tSample }

/-- The transmit condition, from the fields (41_zero_cross R452). -/
abbrev State.mayTransmit (s : State) : Prop :=
  s.qHead ≠ s.qTail ∧ 0 < (s.slotAt s.qHead).reps.toNat ∧ (0 < s.txCount.toNat ∨ s.cfg.minSilence.toNat ≤ s.zeroCount.toNat)

/-- A STANDARD repetition held at count 40 (43_frame_encoder R551, R555). -/
abbrev State.heldAtGap (s : State) (sh : Shape) : Prop :=
  sh = .standard ∧ s.txCount = 40 ∧ s.zeroCount.toNat < s.cfg.partGap

/-- A half-cycle just finished, before the receive path has its bit: output low, timer off, sub-state idle, the silence count
saturating at 255 (42_bit_slot_timer R507, R513, R520). -/
def State.ended (s : State) : State :=
  { s with
    outLevel := false
    timerArmed := false
    slot := 0
    zeroCount :=
      if s.inLatch || s.txOut then 0 else if s.zeroCount = 255 then 255 else s.zeroCount + 1 }

/-- A TIMER that finishes a half-cycle: the request is armed, the parameters are legal and the last window ends. -/
abbrev State.atFinish (s : State) : Prop := s.timerArmed = true ∧ s.cfg.Legal ∧ s.finishing = true

/-- What the end of a command message leaves: the record appended and strobed, accumulator and pending address cleared, the
detector seeded, and the module of the record, if it has one, holding its updated byte (44_frame_decoder R612, R614, R615,
R630, R631). -/
abbrev State.Delivered (s t : State) (r : Notify) (xvalid : Bool) (ones : BitVec 3) : Prop :=
  t = { s.ended with
    rx := {}
    addr := {}
    onesCount := ones
    nlog := s.nlog ++ [r]
    notifyPort := some (r.house ++ r.unit ++ r.command ++ r.data ++ r.xcmd ++ r.bitcount)
    mem := t.mem
    storeLog := t.storeLog } ∧
  ∀ k : Key, t.memRead k =
    if r.unit ≠ 0 ∧ s.cfg.backend ≠ .none ∧ k = moduleKey r.house r.unit then
      updatedByte s.cfg.presetDimEnable (s.memRead k) r.command r.data r.xcmd xvalid
    else s.memRead k

/-! ## Whole half-cycles (30_encoding R344) -/

/-- Go on with the next state; a fault or refusal stops. -/
def andThen {σ φ ρ : Type} (o : Host.Outcome σ φ ρ) (f : σ → Host.Outcome σ φ ρ) : Host.Outcome σ φ ρ :=
  match o with
  | .next s => f s
  | .fault r => .fault r
  | .refused r => .refused r

/-- Apply a change to the next state; a fault or refusal is kept. -/
def mapNext {σ φ ρ : Type} (f : σ → σ) (o : Host.Outcome σ φ ρ) : Host.Outcome σ φ ρ :=
  match o with
  | .next s => .next (f s)
  | .fault r => .fault r
  | .refused r => .refused r

/-- TIMER events until the sub-state is idle, at most as many as there are sub-states. -/
def drainTimer : Nat → State → Host.Outcome State Fault Refusal
  | 0, s => .next s
  | k + 1, s => if s.slot = 0 then .next s else andThen (exec .timer s) (drainTimer k)

/-- `HALF in=b`: ZC, then TIMER with the line at `b`, then TIMER until `slot == 0`, with no command between them. -/
def halfCycle (b : Bool) (s : State) : Host.Outcome State Fault Refusal :=
  andThen (exec .zc s) fun s1 => andThen (exec .timer { s1 with readIn := b }) (drainTimer 14)

/-- Half-cycles with the line at each listed level in turn. -/
def halfCycles : List Bool → State → Host.Outcome State Fault Refusal
  | [], s => .next s
  | b :: bs, s => andThen (halfCycle b s) (halfCycles bs)

/-- The bits the core sends in those half-cycles: `tx_out` at the end of each. -/
def sentBits : List Bool → State → List Bool
  | [], _ => []
  | b :: bs, s =>
    match halfCycle b s with
    | .next t => t.txOut :: sentBits bs t
    | _ => []

end Sys2Proof.Machine
end

