-- ==== Sys2Proof/Certificates/Slice0/Obligations.lean ====
section
/-! DEFINITION. Certificates/Slice0/Obligations.lean: the statements for the provers. -/

open Sys2Proof Sys2Proof.Machine

/-! ## Decoding and the step -/

/-- 00_scope R7, 20_memory R230: the next presented word, when it decodes, is executed whole; `port`, the draws and the one-step
strobes are the model's own (log entries 3, 4, 10). With nothing presented the core waits (70 R902). -/
def Obligations.StepRunsDecodedInstruction : Prop :=
  (∀ (s : State) (x : Input) (rest : List Input) (i : Instr), s.port = x :: rest → decode x.word = .instr i →
    step s = exec i { s with nowMs := x.nowMs, readIn := x.readIn, rsp := none, notifyPort := none, port := rest }) ∧
  ∀ s : State, s.port = [] → step s = .next s

/-- 30_encoding R339: code 00 is no event, code 11 is refused (log entry 6). -/
def Obligations.EventCodesWithoutAnEvent : Prop :=
  ∀ (s : State) (x : Input) (rest : List Input), s.port = x :: rest →
    (x.word = .event 0b00 →
      step s = .next { s with nowMs := x.nowMs, readIn := x.readIn, rsp := none, notifyPort := none, port := rest }) ∧
    (x.word = .event 0b11 → step s = .refused .reservedEventCode)

/-- 30_encoding R334, R343; 46_control R712: a command word with a reserved bit set or an opcode outside the table answers
`0x03000000` and changes nothing. -/
def Obligations.UndecodableWordsAnswerIllegal : Prop :=
  ∀ (s : State) (w : BitVec 64) (now : BitVec 32) (b : Bool) (rest : List Input), s.port = ⟨.command w, now, b⟩ :: rest →
    (w.extractLsb' 48 7 ≠ 0 ∨
      (w.extractLsb' 56 8).toNat ∉ [0x01, 0x02, 0x10, 0x11, 0x12, 0x13, 0x14, 0x20, 0x21, 0x30, 0x31]) →
    step s = .next { s with nowMs := now, readIn := b, rsp := some 0x03000000, notifyPort := none, port := rest }

/-- 30_encoding R330, R338 to R340: decoding an instruction's word gives the instruction back, with every operand at every
value of its field. -/
def Obligations.DecodeInvertsEncode : Prop :=
  ∀ i : Instr, decode (encode i) = .instr i

/-- 30_encoding R335: a field the row does not use may hold anything: a word that agrees with a decodable word on OP, RSVD and
the row's own fields decodes to the same instruction. -/
def Obligations.UnusedFieldsAreIgnored : Prop :=
  ∀ (w w' : BitVec 64) (i : Instr), decode (.command w) = .instr i → w &&& usedBits i = w' &&& usedBits i →
    decode (.command w') = .instr i

/-- The spec's own example words (30_encoding R342; 40_send_buffer R420 to R440; 45_module_state R670, R675, R685). -/
def Obligations.ExampleWordsDecode : Prop :=
  decode (.command 0x1100020048000000) = .instr (.enqCommand false 2 0 1 0b0010) ∧
  decode (.command 0x1000010040000000) = .instr (.enqAddress false 1 0 1) ∧
  decode (.command 0x1200010040000032) = .instr (.enqDimPercent false 1 0 1 50) ∧
  decode (.command 0x1300010940000032) = .instr (.enqExtDimPercent false 1 1 5 0 50) ∧
  decode (.command 0x140001095C1F3100) = .instr (.enqRawExt false 1 1 5 0b0111 0x1F 0x31) ∧
  decode (.command 0x210000F800000000) = .instr (.wipeState 31 0) ∧
  decode (.command 0x3000000000000032) = .instr (.pctToBright 50) ∧
  decode (.event 0b01) = .instr .zc ∧ decode (.event 0b10) = .instr .timer

/-! ## Control -/

/-- 46_control R700: START sets ENABLE, answers OK, changes nothing else, and a second START changes nothing. -/
def Obligations.StartEnablesTheCore : Prop :=
  ∀ s : State, exec .start s = .next { s with enable := true, rsp := some 0x00000000 } ∧
    ∀ t, exec .start s = .next t → exec .start t = .next t

/-- 46_control R705: GET_STATUS answers OK with every field of the status word and changes no state. -/
def Obligations.GetStatusReportsTheState : Prop :=
  ∀ s : State, s.cfg.Legal → s.qHead < s.cfg.n → s.qTail < s.cfg.n →
    ∃ r : BitVec 32, exec .getStatus s = .next { s with rsp := some r } ∧ r.extractLsb' 24 8 = 0 ∧
      r.getLsbD 0 = s.enable ∧ r.getLsbD 1 = s.overrun ∧ (r.getLsbD 2 = true ↔ s.txCount ≠ 0) ∧
      r.getLsbD 3 = s.rx.active ∧ r.extractLsb' 4 4 = 0 ∧
      ((r.extractLsb' 8 8).toNat : Int) = ((s.qTail : Int) - (s.qHead : Int)) % (s.cfg.n : Int) ∧
      r.extractLsb' 16 8 = s.zeroCount

/-- 46_control R710: ENABLE gates only ZC. With ENABLE = 0 a ZC has no effect at all (41_zero_cross R450); every command, and
TIMER, does the same whatever ENABLE is, GET_STATUS reporting it and START setting it. -/
def Obligations.EnableGatesOnlyZc : Prop :=
  (∀ s : State, s.enable = false → exec .zc s = .next s) ∧
  ∀ (i : Instr) (s t : State) (b : Bool), i ≠ .zc → exec i s = .next t →
    ∃ r, exec i { s with enable := b } = .next { t with enable := b || decide (i = .start), rsp := r } ∧
      (i ≠ .getStatus → r = t.rsp)

/-! ## The enqueue commands -/

/-- 40_send_buffer R401, R402, R411: an enqueue of the head entry's own frame overwrites its repetition count and nothing else;
the answer is action 1 with the queue length unchanged. Covers ENQ_ADDRESS, ENQ_COMMAND, ENQ_DIM_PERCENT, ENQ_EXT_DIM_PERCENT and
ENQ_RAW_EXT, every well-formed operand. -/
def Obligations.EnqueueOfHeadOverwritesRepetitions : Prop :=
  ∀ (s : State) (i : Instr) (f : Frame) (reps : BitVec 8) (ctx : Bool), enqRequest i = some (f, reps, ctx) →
    s.cfg.Legal → (s.slotAt s.qHead).frame = f → 0 < (s.slotAt s.qHead).reps.toNat →
    exec i s = .next { s with
      slots := s.slots.set s.qHead ⟨f, reps⟩
      rsp := some (BitVec.ofNat 32 (s.qLen * 256 + 1)) }

/-- 40_send_buffer R401, R403, R404, R405, R407, R411: with space, a new frame, or one past the rebuffer window or with the clock
run back, is appended at the tail; the queue grows by one; CTX = 1 into an empty queue resets the silence count. Covers the five
enqueue commands. -/
def Obligations.EnqueueAppendsAtTheTail : Prop :=
  ∀ (s : State) (i : Instr) (f : Frame) (reps : BitVec 8) (ctx : Bool), enqRequest i = some (f, reps, ctx) →
    s.cfg.Legal → s.qHead < s.cfg.n → s.qTail < s.cfg.n →
    ¬((s.slotAt s.qHead).frame = f ∧ 0 < (s.slotAt s.qHead).reps.toNat) → (s.qTail + 1) % s.cfg.n ≠ s.qHead →
    ((s.slotAt ((s.qTail + s.cfg.n - 1) % s.cfg.n)).frame ≠ f ∨ s.nowMs.toNat < s.lastMs.toNat ∨
      s.cfg.rebufferDelayMs.toNat ≤ s.nowMs.toNat - s.lastMs.toNat) →
    exec i s = .next { s with
      slots := s.slots.set s.qTail ⟨f, reps⟩
      qTail := (s.qTail + 1) % s.cfg.n
      lastMs := s.nowMs
      zeroCount := if ctx = true ∧ s.qHead = s.qTail then 0 else s.zeroCount
      rsp := some (BitVec.ofNat 32 ((s.qLen + 1) * 256)) }

/-- 40_send_buffer R401, R406, R407, R411: the tail entry's own frame inside the window is a duplicate: OK, action 2, no state
change. Covers the five enqueue commands. -/
def Obligations.EnqueueSuppressesADuplicate : Prop :=
  ∀ (s : State) (i : Instr) (f : Frame) (reps : BitVec 8) (ctx : Bool), enqRequest i = some (f, reps, ctx) →
    s.cfg.Legal → ¬((s.slotAt s.qHead).frame = f ∧ 0 < (s.slotAt s.qHead).reps.toNat) →
    (s.qTail + 1) % s.cfg.n ≠ s.qHead → (s.slotAt ((s.qTail + s.cfg.n - 1) % s.cfg.n)).frame = f →
    s.lastMs.toNat ≤ s.nowMs.toNat → s.nowMs.toNat - s.lastMs.toNat < s.cfg.rebufferDelayMs.toNat →
    exec i s = .next { s with rsp := some (BitVec.ofNat 32 (s.qLen * 256 + 2)) }

/-- 40_send_buffer R408: on a full queue every frame but the head's answers FULL and changes no state. Covers the five enqueue
commands. -/
def Obligations.EnqueueOnAFullQueueFails : Prop :=
  ∀ (s : State) (i : Instr) (f : Frame) (reps : BitVec 8) (ctx : Bool), enqRequest i = some (f, reps, ctx) →
    ¬((s.slotAt s.qHead).frame = f ∧ 0 < (s.slotAt s.qHead).reps.toNat) → (s.qTail + 1) % s.cfg.n = s.qHead →
    exec i s = .next { s with rsp := some 0x01000000 }

/-- 40_send_buffer R410, R420 to R440; 45_module_state R670 to R690; 60_exceptions R801: a command whose operands are outside the
ranges its rule lists answers INVALID and changes nothing, and no other command answers INVALID. -/
def Obligations.InvalidExactlyOnOperandsOutOfRange : Prop :=
  (∀ (i : Instr) (s : State), i.wellFormed = false → exec i s = .next { s with rsp := some 0x02000000 }) ∧
  ∀ (i : Instr) (s t : State), i.wellFormed = true → isEvent i = false → exec i s = .next t → t.rsp ≠ some 0x02000000

/-- 30_encoding R312 to R317; 40_send_buffer R420 to R440: the frame each enqueue command builds, field by field, with the
repetitions and CTX it passes on. -/
def Obligations.EnqueuedFrameLayouts : Prop :=
  ∀ (x ctx : Bool) (reps r : BitVec 8) (house unit : BitVec 5) (cmd : BitVec 4) (time : BitVec 2) (xd xc val : BitVec 8)
    (f : Frame),
    let hc := houseCode (BitVec.ofNat 4 house.toNat)
    let uc := unitCode unit
    let b := (val.toNat * 62 + 50) / 100
    let lvl := (b + 1) / 2
    let nib := houseCode (BitVec.ofNat 4 (lvl % 16))
    let pcmd : Nibble := BitVec.ofNat 4 (10 + lvl / 16)
    (enqRequest (.enqAddress ctx reps house unit) = some (f, r, x) → AddressLayout f hc uc ∧ r = reps ∧ x = ctx) ∧
    (enqRequest (.enqCommand ctx reps house unit cmd) = some (f, r, x) →
      (if isExtCmd cmd = true then ExtendedLayout f hc cmd uc 0 0
        else if unit = 0 then CommandOnlyLayout f hc cmd else StandardLayout f hc uc cmd hc) ∧ r = reps ∧ x = ctx) ∧
    (enqRequest (.enqDimPercent ctx reps house unit val) = some (f, r, x) →
      (if unit = 0 then CommandOnlyLayout f nib pcmd else StandardLayout f hc uc pcmd nib) ∧ r = reps ∧ x = ctx) ∧
    (enqRequest (.enqExtDimPercent ctx reps house unit time val) = some (f, r, x) →
      ExtendedLayout f hc 0b0111 uc (BitVec.ofNat 8 (time.toNat * 64 + b)) 0x31 ∧ r = reps ∧ x = ctx) ∧
    (enqRequest (.enqRawExt ctx reps house unit cmd xd xc) = some (f, r, x) →
      (if isExtCmd cmd = true then ExtendedLayout f hc cmd uc xd xc
        else if unit = 0 then CommandOnlyLayout f hc cmd else StandardLayout f hc uc cmd hc) ∧ r = reps ∧ x = ctx)

/-- 30_encoding R336, R337; 46_control R711: every command completes in its own step with one response word; its STATUS is OK,
FULL or INVALID, and RESULT is 0 unless it is OK. -/
def Obligations.EveryCommandAnswersOnce : Prop :=
  ∀ (i : Instr) (s : State), isEvent i = false →
    ∃ (t : State) (r : BitVec 32), exec i s = .next t ∧ t.rsp = some r ∧
      (r.extractLsb' 24 8 = 0 ∨ ((r.extractLsb' 24 8 = 1 ∨ r.extractLsb' 24 8 = 2) ∧ r.extractLsb' 0 24 = 0))

/-- 40_send_buffer R405, R404; 46_control R713: CTX has no effect but the quiescence reset of an append into an empty queue. -/
def Obligations.CtxOnlyResetsQuiescence : Prop :=
  ∀ (i : Instr) (s t : State), s.cfg.Legal → s.qTail < s.cfg.n → exec (withCtx false i) s = .next t → isEvent i = false →
    exec (withCtx true i) s =
      .next { t with zeroCount := if s.qHead = s.qTail ∧ t.qTail ≠ s.qTail then 0 else t.zeroCount }

/-! ## Module state and conversions -/

/-- 45_module_state R680, R685: PCT_TO_BRIGHT of a percentage 0..100. -/
def Obligations.PctToBrightConverts : Prop :=
  ∀ (s : State) (val : BitVec 8), val.toNat ≤ 100 →
    exec (.pctToBright val) s = .next { s with rsp := some (BitVec.ofNat 32 ((val.toNat * 62 + 50) / 100)) }

/-- 45_module_state R680, R690: BRIGHT_TO_PCT of a brightness 0..62. -/
def Obligations.BrightToPctConverts : Prop :=
  ∀ (s : State) (val : BitVec 8), val.toNat ≤ 62 →
    exec (.brightToPct val) s = .next { s with rsp := some (BitVec.ofNat 32 ((val.toNat * 100 + 31) / 62)) }

/-- 45_module_state R681 (marked derived there): converting a percentage to brightness and back is off by at most 1. -/
def Obligations.PercentRoundTripWithinOne : Prop :=
  ∀ (s : State) (val : BitVec 8), val.toNat ≤ 100 →
    ∃ b p : BitVec 32, exec (.pctToBright val) s = .next { s with rsp := some b } ∧
      exec (.brightToPct (b.setWidth 8)) s = .next { s with rsp := some p } ∧
      p.toNat ≤ val.toNat + 1 ∧ val.toNat ≤ p.toNat + 1

/-- 45_module_state R651, R670; 20_memory R201: GET_STATE answers the module's byte, its three booleans and its percentage, and
changes no state. -/
def Obligations.GetStateReportsTheModule : Prop :=
  ∀ (s : State) (house unit : BitVec 5), house.toNat ≤ 15 → 1 ≤ unit.toNat → unit.toNat ≤ 16 →
    let v := s.memRead (BitVec.ofNat 8 (house.toNat * 16 + unit.toNat - 1))
    ∃ r : BitVec 32, exec (.getState house unit) s = .next { s with rsp := some r } ∧ r.extractLsb' 0 8 = v ∧
      (r.getLsbD 8 = true ↔ v.toNat / 64 ≠ 0) ∧ (r.getLsbD 9 = true ↔ 2 ≤ v.toNat / 64) ∧
      (r.getLsbD 10 = true ↔ v.toNat / 64 = 3) ∧ r.extractLsb' 11 5 = 0 ∧
      (r.extractLsb' 16 7).toNat = (min (v.toNat % 64) 62 * 100 + 31) / 62 ∧ r.getLsbD 23 = false ∧
      r.extractLsb' 24 8 = 0

/-- 45_module_state R675; 20_memory R206: WIPE_STATE makes every matching module unseen and no other, sending a PERSISTENT store
one erased byte per matching key in increasing order; it writes nothing else. -/
def Obligations.WipeStateClearsMatchingModules : Prop :=
  ∀ (s : State) (house unit : BitVec 5), house.toNat ≤ 15 ∨ house.toNat = 31 → unit.toNat ≤ 16 → s.mem.wf = true →
    let hit := fun k : Nat => (house.toNat = 31 ∨ house.toNat = k / 16) ∧ (unit.toNat = 0 ∨ unit.toNat = k % 16 + 1)
    ∃ t : State, exec (.wipeState house unit) s = .next t ∧
      t = { s with mem := t.mem, storeLog := t.storeLog, rsp := some 0 } ∧
      (∀ k : Key, t.memRead k = if hit k.toNat then 0 else s.memRead k) ∧
      t.storeLog =
        if s.cfg.backend = .persistent then
          s.storeLog ++ ((List.range 256).filter fun k => decide (hit k)).map fun k => (k, 0xFF)
        else s.storeLog

/-- 45_module_state R655 to R661: the byte after a decoded command, in numbers: ST is the byte div 64, BR the byte mod 64. -/
def Obligations.ModuleByteFollowsTheCommand : Prop :=
  ∀ (presetDim : Bool) (v : Byte) (cmd : Nibble) (d x : Byte) (xvalid : Bool),
    let st := v.toNat / 64
    let br := v.toNat % 64
    let c := cmd.toNat
    let lvl := min (d.toNat % 64) 62
    let preset := (presetDim = true ∧ (c = 10 ∨ c = 11)) ∨ (c = 7 ∧ xvalid = true ∧ x = 0x31)
    let w := (updatedByte presetDim v cmd d x xvalid).toNat
    (c = 2 ∨ c = 13 → w = 192 + (if br = 0 then 62 else br)) ∧
    (c = 3 ∨ c = 14 → w = 128 + br) ∧
    (c = 4 → (w : Int) = 192 + (if st = 3 then max 1 (min 62 ((br : Int) - 9)) else 53)) ∧
    (c = 5 → w = 192 + (if st = 3 then max 1 (min 62 (br + 9)) else 9)) ∧
    (preset → w = if lvl = 0 then 128 + br else 192 + lvl) ∧
    (c ∉ [2, 3, 4, 5, 13, 14] → ¬preset → w = 64 * max st 1 + br)

/-! ## The receive path, inside TIMER -/

/-- 42_bit_slot_timer R513, R520, R522, R523: a finish step while no message is received: the half-cycle ends, and the detector
counts the ones, starts a message at exactly three ones and a zero, or starts again. -/
def Obligations.FinishStepDetectsStartCodes : Prop :=
  ∀ s : State, s.atFinish → s.rx.active = false → s.onesCount.toNat ≤ 4 →
    exec .timer s = .next { s.ended with
      onesCount := if s.inLatch = false then 0 else if s.onesCount = 4 then 4 else s.onesCount + 1
      rx := if s.inLatch = false ∧ s.onesCount = 3 then { active := true, count := 4 } else s.rx }

/-- 44_frame_decoder R602: at an odd count the decoder only latches the sample. -/
def Obligations.RawHalfIsOnlyLatched : Prop :=
  ∀ s : State, s.atFinish → s.rx.active = true → s.rx.count.toNat % 2 = 0 → s.rx.count.toNat < 255 →
    exec .timer s = .next { s.ended with rx := { s.rx with count := s.rx.count + 1, raw := s.inLatch } }

/-- 44_frame_decoder R603, R604, R606 to R609: a valid pair shifts its bit into the rolling buffer, and the checkpoints capture
house, key, function bit and, after an extended command, unit and data. -/
def Obligations.ValidPairIsShiftedAndCaptured : Prop :=
  ∀ s : State, s.atFinish → s.rx.active = true → s.rx.count.toNat % 2 = 1 → s.rx.count.toNat < 255 →
    s.rx.count.toNat ≠ 61 → s.inLatch ≠ s.rx.raw →
    let c := s.rx.count.toNat + 1
    let buf := (s.rx.buf.toNat * 2 + s.rx.raw.toNat) % 256
    let ext := s.rx.cmdValid = true ∧ (s.rx.cmd = 0b0111 ∨ s.rx.cmd = 0b1100)
    ∃ t : State, exec .timer s = .next t ∧ t = { s.ended with rx := t.rx, addr := t.addr } ∧
      t.rx.active = true ∧ t.rx.count.toNat = c ∧ t.rx.raw = s.rx.raw ∧ t.rx.buf.toNat = buf ∧
      t.rx.house.toNat = (if c = 12 then buf % 16 else s.rx.house.toNat) ∧
      t.rx.key.toNat = (if c = 20 then buf % 16 else s.rx.key.toNat) ∧
      t.rx.cmd = (if c = 22 ∧ s.rx.raw = true then s.rx.key else s.rx.cmd) ∧
      (t.rx.cmdValid = true ↔ (c = 22 ∧ s.rx.raw = true) ∨ s.rx.cmdValid = true) ∧
      t.addr = (if c = 22 ∧ s.rx.raw = false then ⟨true, s.rx.house, s.rx.key⟩ else s.addr) ∧
      t.rx.xunit.toNat = (if c = 30 ∧ ext then buf % 16 else s.rx.xunit.toNat) ∧
      (t.rx.xunitValid = true ↔ (c = 30 ∧ ext) ∨ s.rx.xunitValid = true) ∧
      t.rx.data.toNat = (if c = 46 ∧ ext then buf else s.rx.data.toNat) ∧
      (t.rx.dataValid = true ↔ (c = 46 ∧ ext) ∨ s.rx.dataValid = true) ∧
      t.rx.xcmd = s.rx.xcmd ∧ t.rx.xcmdValid = s.rx.xcmdValid

/-- 44_frame_decoder R610 to R613, R620: a message that ends without a command leaves no trace but the pending address; the
detector is seeded from the failing pair, or left as it was at the ceiling. -/
def Obligations.MessageWithoutCommandIsDropped : Prop :=
  ∀ s : State, s.atFinish → s.rx.active = true → s.rx.cmdValid = false → s.rx.count.toNat % 2 = 1 →
    s.rx.count.toNat < 255 →
    (s.inLatch = s.rx.raw →
      exec .timer s = .next { s.ended with rx := {}, onesCount := if s.inLatch then 2 else 0 }) ∧
    (s.inLatch ≠ s.rx.raw → s.rx.count = 61 → exec .timer s = .next { s.ended with rx := {} })

/-- 44_frame_decoder R610, R611, R614, R617; 45_module_state R655: a standard command goes to the pending unit of the same house
code, or to no unit, and its record and module update happen in the step that ends the message. -/
def Obligations.StandardCommandIsResolvedAndReported : Prop :=
  ∀ s : State, s.atFinish → s.rx.active = true → s.rx.cmdValid = true → isExtCmd s.rx.cmd = false →
    ¬(s.cfg.presetDimEnable = true ∧ isPreset s.rx.cmd = true) → s.rx.count.toNat % 2 = 1 → s.rx.count.toNat < 255 →
    s.mem.wf = true →
    let u := if s.addr.valid = true ∧ s.addr.house = s.rx.house then unitOf s.addr.unit else 0
    (s.inLatch = s.rx.raw → ∃ t, exec .timer s = .next t ∧
      s.Delivered t ⟨houseIndex s.rx.house, u, s.rx.cmd, 0, 0, s.rx.count - 1⟩ false (if s.inLatch then 2 else 0)) ∧
    (s.inLatch ≠ s.rx.raw → s.rx.count = 61 → ∃ t, exec .timer s = .next t ∧
      s.Delivered t ⟨houseIndex s.rx.house, u, s.rx.cmd, 0, 0, 62⟩ false s.onesCount)

/-- 44_frame_decoder R609 to R611, R614, R616; 45_module_state R655: an extended command reports the fields received, 0 for the
others, and goes to its own unit field; the sub-command is the byte complete at the ceiling. -/
def Obligations.ExtendedCommandIsResolvedAndReported : Prop :=
  ∀ s : State, s.atFinish → s.rx.active = true → s.rx.cmdValid = true → isExtCmd s.rx.cmd = true →
    s.rx.count.toNat % 2 = 1 → s.rx.count.toNat < 255 → s.mem.wf = true →
    let u := if s.rx.xunitValid then unitOf s.rx.xunit else 0
    let d := if s.rx.dataValid then s.rx.data else 0
    let x := if s.rx.xcmdValid then s.rx.xcmd else 0
    (s.inLatch = s.rx.raw → ∃ t, exec .timer s = .next t ∧
      s.Delivered t ⟨houseIndex s.rx.house, u, s.rx.cmd, d, x, s.rx.count - 1⟩ s.rx.xcmdValid
        (if s.inLatch then 2 else 0)) ∧
    (s.inLatch ≠ s.rx.raw → s.rx.count = 61 → ∃ t, exec .timer s = .next t ∧
      s.Delivered t
        ⟨houseIndex s.rx.house, u, s.rx.cmd, d, BitVec.ofNat 8 (s.rx.buf.toNat * 2 + s.rx.raw.toNat), 62⟩ true s.onesCount)

/-- 44_frame_decoder R610, R611, R614, R618: with PRESET_DIM_ENABLE a preset command goes to the pending address, whatever its
house, with data twice the 5-bit level; without one it is discarded; at a mismatch and at the ceiling alike. The source calls the
path unverified (93 I16). -/
def Obligations.PresetDimGoesToThePendingAddress : Prop :=
  ∀ s : State, s.atFinish → s.rx.active = true → s.rx.cmdValid = true → s.cfg.presetDimEnable = true →
    s.rx.cmd = 0b1010 ∨ s.rx.cmd = 0b1011 → s.rx.count.toNat % 2 = 1 → s.rx.count.toNat < 255 → s.mem.wf = true →
    let h := houseIndex s.addr.house
    let u := unitOf s.addr.unit
    let d : Byte := BitVec.ofNat 8 (2 * (16 * (s.rx.cmd.toNat % 2) + (houseIndex s.rx.house).toNat))
    (s.inLatch = s.rx.raw →
      (s.addr.valid = true → ∃ t, exec .timer s = .next t ∧
        s.Delivered t ⟨h, u, s.rx.cmd, d, 0, s.rx.count - 1⟩ false (if s.inLatch then 2 else 0)) ∧
      (s.addr.valid = false →
        exec .timer s = .next { s.ended with rx := {}, addr := {}, onesCount := if s.inLatch then 2 else 0 })) ∧
    (s.inLatch ≠ s.rx.raw → s.rx.count = 61 →
      (s.addr.valid = true → ∃ t, exec .timer s = .next t ∧
        s.Delivered t ⟨h, u, s.rx.cmd, d, 0, 62⟩ false s.onesCount) ∧
      (s.addr.valid = false → exec .timer s = .next { s.ended with rx := {}, addr := {} }))

/-! ## The sub-states of TIMER -/

/-- 42_bit_slot_timer R505, R506: at slot 1 TIMER latches the line and arms the end of the pulse window. -/
def Obligations.TimerSamplesTheLine : Prop :=
  ∀ s : State, s.timerArmed = true → s.slot = 1 → s.cfg.Legal → s.cfg.tPulse < 65536 →
    exec .timer s = .next { s with
      inLatch := s.readIn
      slot := 2
      timerArmed := true
      timerDelay := BitVec.ofNat 16 (s.cfg.tPulse - s.cfg.tSample) }

/-- 42_bit_slot_timer R506 to R509: the phase repeats of a one-bit half-cycle. -/
def Obligations.TimerDrivesPhaseRepeats : Prop :=
  ∀ s : State, s.timerArmed = true → s.cfg.Legal → s.cfg.tPhase < 65536 →
    (s.slot = 2 → s.txOut = true → 1 < s.cfg.phases →
      exec .timer s = .next { s with
        outLevel := false, slot := 3, timerArmed := true, timerDelay := BitVec.ofNat 16 (s.cfg.tPhase - s.cfg.tPulse) }) ∧
    (3 ≤ s.slot.toNat → s.slot.toNat % 2 = 1 → s.slot.toNat < 2 * s.cfg.phases →
      exec .timer s = .next { s with
        outLevel := true, slot := s.slot + 1, timerArmed := true, timerDelay := BitVec.ofNat 16 s.cfg.tPulse }) ∧
    (4 ≤ s.slot.toNat → s.slot.toNat % 2 = 0 → s.slot.toNat < 2 * s.cfg.phases →
      exec .timer s = .next { s with
        outLevel := false, slot := s.slot + 1, timerArmed := true,
        timerDelay := BitVec.ofNat 16 (s.cfg.tPhase - s.cfg.tPulse) })

/-- 60_exceptions R811: TIMER has no step while the timer is not armed; the model refuses it by name (log entry 7). -/
def Obligations.TimerIsRefusedUnlessArmed : Prop :=
  ∀ s : State, s.timerArmed = false → exec .timer s = .refused .timerNotArmed

/-- 42_bit_slot_timer R500, R515; 44_frame_decoder R614; 45_module_state R655: what TIMER leaves alone: the transmitter, the queue,
the host's registers, and every module byte but that of the message it ends. -/
def Obligations.TimerFrame : Prop :=
  ∀ s t : State, exec .timer s = .next t →
    t = { s with
      outLevel := t.outLevel, slot := t.slot, inLatch := t.inLatch, onesCount := t.onesCount, zeroCount := t.zeroCount
      timerArmed := t.timerArmed, timerDelay := t.timerDelay, rx := t.rx, addr := t.addr, mem := t.mem, nlog := t.nlog
      storeLog := t.storeLog, notifyPort := t.notifyPort } ∧
    ∀ k : Key, s.storeTarget ≠ some k → t.memRead k = s.memRead k

/-- 45_module_state R663; 20_memory R204, R206: a TIMER that ends a command message for a unit sends a PERSISTENT store exactly
one byte write, of the module's new byte less one, even when it equals the old; no other TIMER sends any. The log of writes is
the model's observation (log entry 12). -/
def Obligations.OneByteWritePerAddressedCommand : Prop :=
  ∀ s t : State, s.mem.wf = true → exec .timer s = .next t →
    t.storeLog =
      match s.storeTarget with
      | some k => if s.cfg.backend = .persistent then s.storeLog ++ [(k.toNat, t.memRead k - 1)] else s.storeLog
      | none => s.storeLog

/-! ## The ZC event -/

/-- 41_zero_cross R450 to R452: a ZC with nothing to send begins a half-cycle; one that finds the previous sequence unfinished
records an overrun, drops the output and abandons the sequence. -/
def Obligations.ZcBeginsASilentHalfCycle : Prop :=
  ∀ s : State, s.enable = true → s.cfg.Legal → ¬s.mayTransmit → exec .zc s = .next s.begun

/-- 41_zero_cross R450, R452, R454; 43_frame_encoder R551, R554: a ZC inside a repetition sends the wire bit of the next count. -/
def Obligations.ZcSendsTheNextWireBit : Prop :=
  ∀ (s : State) (sh : Shape), s.enable = true → s.cfg.Legal → s.mayTransmit → frameShape (s.slotAt s.qHead).frame = some sh →
    ¬s.heldAtGap sh → s.txCount.toNat + 1 < endCount sh →
    let b := wireBit (s.slotAt s.qHead).frame sh (s.txCount.toNat + 1)
    exec .zc s = .next { s.begun with txCount := s.txCount + 1, txOut := b, outLevel := b || s.begun.outLevel }

/-- 43_frame_encoder R551, R555: a STANDARD repetition at count 40 sends 0 and keeps its count until the line has been silent for
PART_GAP half-cycles. -/
def Obligations.ZcHoldsBeforePartTwo : Prop :=
  ∀ s : State, s.enable = true → s.cfg.Legal → s.mayTransmit → frameShape (s.slotAt s.qHead).frame = some .standard →
    s.txCount = 40 → s.zeroCount.toNat < s.cfg.partGap → exec .zc s = .next s.begun

/-- 43_frame_encoder R551, R565 to R567: the ZC that sends a repetition's last count spends one repetition; the last one retires
the entry; a COMMAND_ONLY DIM or BRIGHT with repetitions left pre-seeds the silence count. -/
def Obligations.ZcEndsTheRepetition : Prop :=
  ∀ (s : State) (sh : Shape), s.enable = true → s.cfg.Legal → s.mayTransmit → s.qHead < s.slots.length →
    frameShape (s.slotAt s.qHead).frame = some sh → s.txCount.toNat + 1 = endCount sh →
    let f := (s.slotAt s.qHead).frame
    let r := (s.slotAt s.qHead).reps
    let b := wireBit f sh (endCount sh)
    exec .zc s = .next { s.begun with
      txCount := 0
      slots := s.slots.set s.qHead ⟨f, r - 1⟩
      qHead := if r = 1 then (s.qHead + 1) % s.cfg.n else s.qHead
      zeroCount :=
        if r ≠ 1 ∧ sh = .commandOnly ∧ (f.extractLsb' 24 4 = 0b0100 ∨ f.extractLsb' 24 4 = 0b0101) then s.cfg.minSilence
        else s.zeroCount
      txOut := b
      outLevel := b || s.begun.outLevel }

/-- 41_zero_cross R450, R455; 10_state R105: what ZC leaves alone: the receive path, the module store, the records, the clock, the
queue's tail, every frame, and every repetition count but the head's. -/
def Obligations.ZcFrame : Prop :=
  ∀ s t : State, exec .zc s = .next t →
    t = { s with
      overrun := t.overrun, slots := t.slots, qHead := t.qHead, txCount := t.txCount, txOut := t.txOut
      outLevel := t.outLevel, slot := t.slot, inLatch := t.inLatch, zeroCount := t.zeroCount, timerArmed := t.timerArmed
      timerDelay := t.timerDelay } ∧
    (∀ i, (t.slotAt i).frame = (s.slotAt i).frame ∧ (i ≠ s.qHead → (t.slotAt i).reps = (s.slotAt i).reps)) ∧
    ∀ k : Key, t.memRead k = s.memRead k

/-! ## The wire sequence -/

/-- 43_frame_encoder R553, R554, R556 to R558: the wire content at every count, frame bit by frame bit: start code, raw and
complement pairs, and for STANDARD the gap, the second start code and part two. -/
def Obligations.WireSequenceCountMap : Prop :=
  ∀ (f : Frame) (sh : Shape),
    (wireSequence f sh).length = endCount sh ∧
    (∀ c, 1 ≤ c → c ≤ endCount sh → (wireSequence f sh)[c - 1]? = some (wireBit f sh c)) ∧
    (∀ c, 1 ≤ c → c ≤ 4 → wireBit f sh c = decide (c ≠ 4)) ∧
    (∀ p < 9, wireBit f sh (5 + 2 * p) = f.getLsbD (31 - p) ∧ wireBit f sh (6 + 2 * p) = !f.getLsbD (31 - p)) ∧
    (sh = .extended → ∀ p < 29,
      wireBit f sh (5 + 2 * p) = f.getLsbD (31 - p) ∧ wireBit f sh (6 + 2 * p) = !f.getLsbD (31 - p)) ∧
    (sh = .standard →
      (∀ c, 23 ≤ c → c ≤ 40 → wireBit f sh c = false) ∧
      (∀ c, 41 ≤ c → c ≤ 44 → wireBit f sh c = decide (c ≠ 44)) ∧
      ∀ p < 9, wireBit f sh (45 + 2 * p) = f.getLsbD (22 - p) ∧ wireBit f sh (46 + 2 * p) = !f.getLsbD (22 - p))

/-- 43_frame_encoder R551 to R568: on a line where only the core itself is heard, echoed or not, one repetition of the head entry
sends exactly its wire sequence, one bit a half-cycle, and then spends a repetition. -/
def Obligations.RepetitionSendsItsWireSequence : Prop :=
  ∀ (s : State) (sh : Shape) (levels : List Bool), s.Inv → s.enable = true → s.slot = 0 → s.qHead ≠ s.qTail →
    s.txCount = 0 → s.cfg.minSilence.toNat ≤ s.zeroCount.toNat → frameShape (s.slotAt s.qHead).frame = some sh →
    levels.length = endCount sh →
    (∀ k < endCount sh, levels[k]? = some true → wireBit (s.slotAt s.qHead).frame sh (k + 1) = true) →
    sentBits levels s = wireSequence (s.slotAt s.qHead).frame sh ∧
    ∃ t, halfCycles levels s = .next t ∧ t.slot = 0 ∧ t.txCount = 0 ∧
      (t.slotAt s.qHead).reps = (s.slotAt s.qHead).reps - 1 ∧
      t.qHead = if (s.slotAt s.qHead).reps = 1 then (s.qHead + 1) % s.cfg.n else s.qHead

/-- 44_frame_decoder R633 (marked derived there): the round trip. Feeding the wire sequence of a produced frame and two silent
half-cycles into an idle core that is not transmitting gives back exactly the message the frame was built from. -/
def Obligations.WireSequenceDecodesToItsMessage : Prop :=
  ∀ (s : State) (h : BitVec 4) (u : BitVec 5) (c : Nibble) (xd xc : Byte), s.Inv → s.enable = true → s.slot = 0 →
    s.qHead = s.qTail → s.rx.active = false → s.onesCount = 0 → s.addr.valid = false → 1 ≤ u.toNat → u.toNat ≤ 16 →
    (isExtCmd c = false → (isPreset c = true → s.cfg.presetDimEnable = false) →
      (∃ t, halfCycles (wireSequence (standardFrame h u c (houseCode h)) .standard ++ [false, false]) s = .next t ∧
        t.nlog = s.nlog ++ [⟨h, u, c, 0, 0, 22⟩] ∧ t.addr.valid = false) ∧
      ∃ t, halfCycles (wireSequence (commandOnlyFrame (houseCode h) c) .commandOnly ++ [false, false]) s = .next t ∧
        t.nlog = s.nlog ++ [⟨h, 0, c, 0, 0, 22⟩]) ∧
    (isExtCmd c = true →
      ∃ t, halfCycles (wireSequence (extendedFrame h u c xd xc) .extended ++ [false, false]) s = .next t ∧
        t.nlog = s.nlog ++ [⟨h, u, c, xd, xc, 62⟩]) ∧
    ∃ t, halfCycles (wireSequence (addressFrame h u) .addressOnly ++ [false, false]) s = .next t ∧
      t.nlog = s.nlog ∧ t.addr = ⟨true, houseCode h, unitCode u⟩

/-! ## Reset -/

/-- 70_reset_and_hazards R900, R901; 10_state R103 to R125; 20_memory R208: every element at its reset value, for all parameters
and every content of an external store. A reset of a running machine (the model's operation, log entry 23) gives the same elements:
module bytes 0, or kept where the store is PERSISTENT. -/
def Obligations.ResetStateIsAsTabulated : Prop :=
  ∀ (cfg : Config) (store : List Byte) (s : State),
    let r := State.launch cfg store
    r.cfg = cfg ∧ r.enable = false ∧ r.overrun = false ∧ (∀ i, r.slotAt i = ⟨0, 0⟩) ∧ r.slots.length = cfg.n ∧
    r.qHead = 0 ∧ r.qTail = 0 ∧ r.lastMs = 0 ∧ r.txCount = 0 ∧ r.txOut = false ∧ r.outLevel = false ∧ r.slot = 0 ∧
    r.inLatch = false ∧ r.onesCount = 0 ∧ r.zeroCount = 0 ∧ r.timerArmed = false ∧ r.timerDelay = 0 ∧
    r.rx = ⟨false, 0, false, 0, 0, 0, 0, false, 0, false, 0, false, 0, false⟩ ∧ r.addr = ⟨false, 0, 0⟩ ∧ r.nlog = [] ∧
    (∀ k : Key, r.memRead k = if cfg.backend = .persistent then store.getD k.toNat 0xFF + 1 else 0) ∧
    (∀ k : Key, s.applyReset.memRead k = if s.cfg.backend = .persistent then s.memRead k else 0) ∧
    (s.cfg.backend ≠ .persistent → s.applyReset.mem = []) ∧
    { s.applyReset with mem := [], nowMs := 0, readIn := false, port := [] } = { State.launch s.cfg [] with mem := [] }

/-- The invariant holds at every launch with legal parameters, whatever an external store holds. -/
def Obligations.LaunchMeetsTheInvariant : Prop :=
  ∀ (cfg : Config) (store : List Byte), cfg.Legal → (State.launch cfg store).Inv

/-- The invariant holds at `State.reset` (70_reset_and_hazards R900). -/
def Obligations.ResetMeetsTheInvariant : Prop :=
  State.reset.Inv

/-! ## Invariants every step keeps, in every state that meets them -/

/-- 10_state R109 (marked derived there): repetitions stand exactly in the ring interval. -/
def Obligations.StepKeepsTheQueueInvariant : Prop :=
  ∀ s t : State, s.cfg.Legal → s.QueueInv → step s = .next t → t.QueueInv

/-- 42_bit_slot_timer R511, R512 (marked derived there), R508; 41_zero_cross R454: the sub-state, the timer request and the output
level stay tied together. -/
def Obligations.StepKeepsTheTimerInvariant : Prop :=
  ∀ s t : State, s.cfg.Legal → s.TimerInv → step s = .next t → t.TimerInv

/-- 10_state R115, R118, R121; 44_frame_decoder R606, R612, R615: the receiver's ranges, and a cleared accumulator while idle. -/
def Obligations.StepKeepsTheReceiverInvariant : Prop :=
  ∀ s t : State, s.RxInv → step s = .next t → t.RxInv

/-- 20_memory R200, R202 to R205; 45_module_state R653: the module memory stays canonical, and on VOLATILE within brightness
0..62. -/
def Obligations.StepKeepsTheMemoryInvariant : Prop :=
  ∀ s t : State, s.MemInv → step s = .next t → t.MemInv

/-- Every step keeps the whole invariant: queue, frames, transmitter, timer, receiver, memory, records and the silence of a core
not yet started. -/
def Obligations.StepKeepsTheInvariant : Prop :=
  ∀ s t : State, s.Inv → step s = .next t → t.Inv

/-- 60_exceptions R803: no state meeting the invariant faults, and it refuses only the two inputs no conforming provider presents:
a TIMER that was not requested and event code 11. -/
def Obligations.InvariantRulesOutEveryStop : Prop :=
  ∀ s : State, s.Inv →
    (∀ f, step s ≠ .fault f) ∧
    ∀ r, step s = .refused r → ∃ x rest, s.port = x :: rest ∧
      ((r = .timerNotArmed ∧ x.word = .event 0b10 ∧ s.timerArmed = false) ∨
        (r = .reservedEventCode ∧ x.word = .event 0b11))

/-! ## Rules about the whole machine -/

/-- 10_state R103, R104; 70 R901: who writes ENABLE, OVERRUN and the parameters. -/
def Obligations.EnableAndOverrunHaveOneWriter : Prop :=
  ∀ (i : Instr) (s t : State), exec i s = .next t →
    t.cfg = s.cfg ∧ t.enable = (s.enable || decide (i = .start)) ∧
      t.overrun = (s.overrun || (decide (i = .zc) && s.enable && s.slot != 0))

/-- 44_frame_decoder R613, R614, R620, R630: records only grow, by exactly one, and only in the TIMER step that ends a message with
a command; the record word is strobed in that step. -/
def Obligations.OnlyAnEndedCommandMessageNotifies : Prop :=
  ∀ (i : Instr) (s t : State), exec i s = .next t →
    (t.nlog = s.nlog ∧ t.notifyPort = s.notifyPort) ∨
    (i = .timer ∧ s.finishing = true ∧ s.endsMessage = true ∧ s.rx.cmdValid = true ∧
      ∃ r : Notify, t.nlog = s.nlog ++ [r] ∧
        t.notifyPort = some (r.house ++ r.unit ++ r.command ++ r.data ++ r.xcmd ++ r.bitcount))

/-- 40_send_buffer R412; 46_control R713; 45_module_state R662: a command never touches the line side, the receiver or the records;
only WIPE_STATE writes module bytes, and only an enqueue the queue, its clock and the silence count. -/
def Obligations.CommandsLeaveTheLineSideAlone : Prop :=
  ∀ (i : Instr) (s t : State), isEvent i = false → exec i s = .next t →
    t = { s with
      enable := t.enable, slots := t.slots, qTail := t.qTail, lastMs := t.lastMs, zeroCount := t.zeroCount, mem := t.mem
      storeLog := t.storeLog, rsp := t.rsp } ∧
    ((∀ house unit, i ≠ .wipeState house unit) → t.mem = s.mem ∧ t.storeLog = s.storeLog) ∧
    (enqRequest i = none →
      t.slots = s.slots ∧ t.qTail = s.qTail ∧ t.lastMs = s.lastMs ∧ t.zeroCount = s.zeroCount)

/-- 20_memory R236; 40_send_buffer R412: no command removes or replaces a queued entry. -/
def Obligations.NoCommandRemovesAnEntry : Prop :=
  ∀ (i : Instr) (s t : State), s.cfg.Legal → s.QueueInv → isEvent i = false → exec i s = .next t →
    t.qHead = s.qHead ∧ ∀ j < s.cfg.n, s.queued j →
      t.queued j ∧ (t.slotAt j).frame = (s.slotAt j).frame ∧ 1 ≤ (t.slotAt j).reps.toNat

/-- 00_scope R9; 42_bit_slot_timer R505; 20_memory R224: the line level is read at the sample step only, the clock by enqueues
only. -/
def Obligations.DrawsAreReadOnlyWhereStated : Prop :=
  ∀ (i : Instr) (s : State) (b : Bool) (now : BitVec 32),
    (¬(i = .timer ∧ s.slot = 1) →
      exec i { s with readIn := b } = mapNext (fun t => { t with readIn := b }) (exec i s)) ∧
    (enqRequest i = none → exec i { s with nowMs := now } = mapNext (fun t => { t with nowMs := now }) (exec i s))

/-- 70_reset_and_hazards R920; 10_state R122; 42_bit_slot_timer R506: no rule depends on a delay: with other tick parameters and
another `timer_delay` a step does the same but for `timer_delay`. -/
def Obligations.TickValuesAreObservationOnly : Prop :=
  ∀ (i : Instr) (s t : State) (d : BitVec 16) (a b c : Nat), exec i s = .next t →
    ∃ d', exec i { s with timerDelay := d, cfg := { s.cfg with tSample := a, tPulse := b, tPhase := c } } =
      .next { t with timerDelay := d', cfg := { s.cfg with tSample := a, tPulse := b, tPhase := c } }

/-- 20_memory R204: the "+1" encoding of a PERSISTENT store is invisible: every instruction does what it does on VOLATILE, but for
the byte writes the store is sent. -/
def Obligations.PersistentActsAsVolatile : Prop :=
  ∀ (i : Instr) (s t : State), s.cfg.backend = .volatile → exec i s = .next t →
    ∃ log, exec i { s with cfg := { s.cfg with backend := .persistent } } =
      .next { t with cfg := { s.cfg with backend := .persistent }, storeLog := s.storeLog ++ log }

/-- 20_memory R205: without a store every module reads 0, nothing is ever written, GET_STATE reports an unseen module and
WIPE_STATE has no effect. -/
def Obligations.BackendNoneHasNoModuleState : Prop :=
  ∀ s : State, s.cfg.backend = .none →
    (∀ k : Key, s.memRead k = 0) ∧
    (∀ (i : Instr) (t : State), exec i s = .next t → t.mem = s.mem ∧ t.storeLog = s.storeLog) ∧
    (∀ house unit, (Instr.getState house unit).wellFormed = true →
      exec (.getState house unit) s = .next { s with rsp := some 0x00000000 }) ∧
    ∀ house unit, (Instr.wipeState house unit).wellFormed = true →
      exec (.wipeState house unit) s = .next { s with rsp := some 0x00000000 }
end

