-- ==== Sys2Proof/Laws/Encoding.lean ====
section
/-! SUPPORT. Laws/Encoding.lean: what each field of an assembled command word reads back (30_encoding R330), so that no later
proof takes a word apart. -/

namespace Sys2Proof

variable (op : BitVec 8) (ctx : Bool) (reps : BitVec 8) (house unit : BitVec 5) (cmd : BitVec 4) (time : BitVec 2)
  (xdata xcmd val : BitVec 8)

@[simp] theorem fieldOp_commandWord :
    fieldOp (commandWord op ctx reps house unit cmd time xdata xcmd val) = op := by
  unfold fieldOp commandWord
  iterate 10 rw [BitVec.extractLsb'_append_eq_of_le (by decide)]
  simp

@[simp] theorem fieldRsvd_commandWord :
    fieldRsvd (commandWord op ctx reps house unit cmd time xdata xcmd val) = 0 := by
  unfold fieldRsvd commandWord
  iterate 8 rw [BitVec.extractLsb'_append_eq_of_le (by decide)]
  rw [BitVec.extractLsb'_append_eq_of_add_le (by decide)]
  simp

@[simp] theorem fieldReps_commandWord :
    fieldReps (commandWord op ctx reps house unit cmd time xdata xcmd val) = reps := by
  unfold fieldReps commandWord
  iterate 7 rw [BitVec.extractLsb'_append_eq_of_le (by decide)]
  rw [BitVec.extractLsb'_append_eq_of_add_le (by decide)]
  simp

@[simp] theorem fieldHouse_commandWord :
    fieldHouse (commandWord op ctx reps house unit cmd time xdata xcmd val) = house := by
  unfold fieldHouse commandWord
  iterate 6 rw [BitVec.extractLsb'_append_eq_of_le (by decide)]
  rw [BitVec.extractLsb'_append_eq_of_add_le (by decide)]
  simp

@[simp] theorem fieldUnit_commandWord :
    fieldUnit (commandWord op ctx reps house unit cmd time xdata xcmd val) = unit := by
  unfold fieldUnit commandWord
  iterate 5 rw [BitVec.extractLsb'_append_eq_of_le (by decide)]
  rw [BitVec.extractLsb'_append_eq_of_add_le (by decide)]
  simp

@[simp] theorem fieldCmd_commandWord :
    fieldCmd (commandWord op ctx reps house unit cmd time xdata xcmd val) = cmd := by
  unfold fieldCmd commandWord
  iterate 4 rw [BitVec.extractLsb'_append_eq_of_le (by decide)]
  rw [BitVec.extractLsb'_append_eq_of_add_le (by decide)]
  simp

@[simp] theorem fieldTime_commandWord :
    fieldTime (commandWord op ctx reps house unit cmd time xdata xcmd val) = time := by
  unfold fieldTime commandWord
  iterate 3 rw [BitVec.extractLsb'_append_eq_of_le (by decide)]
  rw [BitVec.extractLsb'_append_eq_of_add_le (by decide)]
  simp

@[simp] theorem fieldXdata_commandWord :
    fieldXdata (commandWord op ctx reps house unit cmd time xdata xcmd val) = xdata := by
  unfold fieldXdata commandWord
  iterate 2 rw [BitVec.extractLsb'_append_eq_of_le (by decide)]
  rw [BitVec.extractLsb'_append_eq_of_add_le (by decide)]
  simp

@[simp] theorem fieldXcmd_commandWord :
    fieldXcmd (commandWord op ctx reps house unit cmd time xdata xcmd val) = xcmd := by
  unfold fieldXcmd commandWord
  iterate 1 rw [BitVec.extractLsb'_append_eq_of_le (by decide)]
  rw [BitVec.extractLsb'_append_eq_of_add_le (by decide)]
  simp

@[simp] theorem fieldVal_commandWord :
    fieldVal (commandWord op ctx reps house unit cmd time xdata xcmd val) = val := by
  unfold fieldVal commandWord
  rw [BitVec.extractLsb'_append_eq_of_add_le (by decide)]
  simp

@[simp] theorem fieldCtx_commandWord :
    fieldCtx (commandWord op ctx reps house unit cmd time xdata xcmd val) = ctx := by
  unfold fieldCtx commandWord
  iterate 9 rw [BitVec.extractLsb'_append_eq_of_le (by decide)]
  rw [BitVec.extractLsb'_append_eq_of_add_le (by decide)]
  cases ctx <;> rfl

/-- An assembled word has no reserved bit set, so its opcode selects the row. -/
theorem decodeCommand_commandWord :
    decodeCommand (commandWord op ctx reps house unit cmd time xdata xcmd val) =
      decodeOp (commandWord op ctx reps house unit cmd time xdata xcmd val) := by
  simp [decodeCommand]

end Sys2Proof
end

