-- ==== Sys2Proof/Laws/Memory.lean ====
section
/-! SUPPORT. Laws/Memory.lean: the module memory's own laws: a read after a write, the canonical form every operation keeps, and
that the form is canonical: memories in it that read alike are equal data. -/

namespace Sys2Proof.Machine

@[simp] theorem Memory.read_nil (a : Nat) : Memory.read [] a = Memory.unlisted := rfl

@[simp] theorem Memory.read_cons (c : Host.Cell) (m : Memory) (a : Nat) :
    Memory.read (c :: m) a = if c.1 = a then c.2 else Memory.read m a := rfl

theorem Memory.wfFrom_cons {lo : Nat} {c : Host.Cell} {m : Memory} :
    Memory.wfFrom lo (c :: m) = true ↔
      lo ≤ c.1 ∧ c.1 < 256 ∧ c.2 ≠ Memory.unlisted ∧ Memory.wfFrom (c.1 + 1) m = true := by
  simp [Memory.wfFrom, and_assoc]

theorem Memory.wfFrom_mono {lo lo' : Nat} {m : Memory} (h : lo' ≤ lo) (hm : Memory.wfFrom lo m = true) :
    Memory.wfFrom lo' m = true := by
  cases m with
  | nil => rfl
  | cons c m =>
    rw [Memory.wfFrom_cons] at hm ⊢
    exact ⟨by omega, hm.2⟩

/-- Below the least key a canonical memory reads as unlisted. -/
theorem Memory.read_below {lo a : Nat} {m : Memory} (hm : Memory.wfFrom lo m = true) (h : a < lo) :
    m.read a = Memory.unlisted := by
  induction m generalizing lo with
  | nil => rfl
  | cons c m ih =>
    rw [Memory.wfFrom_cons] at hm
    have hc : c.1 ≠ a := by omega
    simp [hc, ih hm.2.2.2 (by omega)]

/-- A write is read back. -/
theorem Memory.read_write_same {lo : Nat} {m : Memory} (hm : Memory.wfFrom lo m = true) (a : Nat) (v : Byte) :
    (m.write a v).read a = v := by
  induction m generalizing lo with
  | nil => by_cases hv : v = Memory.unlisted <;> simp [Memory.write, hv]
  | cons c m ih =>
    rw [Memory.wfFrom_cons] at hm
    obtain ⟨-, -, -, hrest⟩ := hm
    unfold Memory.write
    split
    · by_cases hv : v = Memory.unlisted
      · have hc : c.1 ≠ a := by omega
        simp [hv, hc, Memory.read_below hrest (by omega : a < c.1 + 1)]
      · simp [hv]
    · split
      · rename_i hca
        by_cases hv : v = Memory.unlisted
        · subst hca
          simp [hv, Memory.read_below hrest (by omega : c.1 < c.1 + 1)]
        · simp [hv]
      · rename_i hca
        simp [hca, ih hrest]

/-- A write leaves every other key alone. -/
theorem Memory.read_write_other (m : Memory) {a b : Nat} (h : a ≠ b) (v : Byte) : (m.write a v).read b = m.read b := by
  induction m with
  | nil => by_cases hv : v = Memory.unlisted <;> simp [Memory.write, hv, h]
  | cons c m ih =>
    unfold Memory.write
    split
    · by_cases hv : v = Memory.unlisted <;> simp [hv, h]
    · split
      · rename_i hca
        subst hca
        by_cases hv : v = Memory.unlisted <;> simp [hv, h]
      · simp [ih]

/-- A write keeps the canonical form. -/
theorem Memory.write_wfFrom {lo a : Nat} {m : Memory} (hm : Memory.wfFrom lo m = true) (hlo : lo ≤ a) (ha : a < 256)
    (v : Byte) : Memory.wfFrom lo (m.write a v) = true := by
  induction m generalizing lo with
  | nil =>
    unfold Memory.write
    split
    · rfl
    · rename_i hv
      exact Memory.wfFrom_cons.mpr ⟨hlo, ha, hv, rfl⟩
  | cons c m ih =>
    have hcm := Memory.wfFrom_cons.mp hm
    obtain ⟨h1, h2, h3, hrest⟩ := hcm
    unfold Memory.write
    split
    · split
      · exact hm
      · rename_i hac hv
        exact Memory.wfFrom_cons.mpr ⟨hlo, ha, hv, Memory.wfFrom_cons.mpr ⟨hac, h2, h3, hrest⟩⟩
    · split
      · rename_i hca
        split
        · exact Memory.wfFrom_mono (by omega) hrest
        · rename_i hv
          subst hca
          exact Memory.wfFrom_cons.mpr ⟨hlo, ha, hv, hrest⟩
      · exact Memory.wfFrom_cons.mpr ⟨h1, h2, h3, ih hrest (by omega)⟩

theorem Memory.write_wf {m : Memory} (hm : m.wf = true) (k : Key) (v : Byte) : (m.write k.toNat v).wf = true :=
  Memory.write_wfFrom hm (Nat.zero_le _) k.isLt v

/-- No cell of a canonical memory equals what an unlisted key reads as. -/
theorem Memory.ne_unlisted_of_mem {lo : Nat} {m : Memory} (hm : Memory.wfFrom lo m = true) {c : Host.Cell} (hc : c ∈ m) :
    c.2 ≠ Memory.unlisted := by
  induction m generalizing lo with
  | nil => simp at hc
  | cons d m ih =>
    rw [Memory.wfFrom_cons] at hm
    rcases List.mem_cons.mp hc with rfl | hc
    · exact hm.2.2.1
    · exact ih hm.2.2.2 hc

/-- A listed cell of a canonical memory is what its key reads. -/
theorem Memory.read_of_mem {lo : Nat} {m : Memory} (hm : Memory.wfFrom lo m = true) {c : Host.Cell} (hc : c ∈ m) :
    m.read c.1 = c.2 := by
  induction m generalizing lo with
  | nil => simp at hc
  | cons d m ih =>
    rw [Memory.wfFrom_cons] at hm
    rcases List.mem_cons.mp hc with rfl | hc
    · simp
    · have hne : d.1 ≠ c.1 := by
        intro heq
        have h0 := ih hm.2.2.2 hc
        rw [← heq, Memory.read_below hm.2.2.2 (Nat.lt_succ_self _)] at h0
        exact absurd h0.symm (Memory.ne_unlisted_of_mem hm.2.2.2 hc)
      simp [hne, ih hm.2.2.2 hc]

/-- The cells a write leaves: the written one or cells listed before. -/
theorem Memory.mem_write {m : Memory} {a : Nat} {v : Byte} {c : Host.Cell} (h : c ∈ m.write a v) :
    c = (a, v) ∨ c ∈ m := by
  induction m with
  | nil =>
    unfold Memory.write at h
    split at h <;> simp_all
  | cons d m ih =>
    unfold Memory.write at h
    split at h
    · split at h
      · exact .inr h
      · exact (List.mem_cons.mp h).imp id id
    · split at h
      · split at h
        · exact .inr (List.mem_cons_of_mem _ h)
        · exact (List.mem_cons.mp h).imp id (List.mem_cons_of_mem _)
      · rcases List.mem_cons.mp h with rfl | h
        · exact .inr List.mem_cons_self
        · exact (ih h).imp id (List.mem_cons_of_mem _)

/-- Canonical: two memories in the form that read alike at every key are the same list. -/
theorem Memory.ext_of_read {lo : Nat} {m m' : Memory} (hm : Memory.wfFrom lo m = true) (hm' : Memory.wfFrom lo m' = true)
    (h : ∀ a, m.read a = m'.read a) : m = m' := by
  induction m generalizing lo m' with
  | nil =>
    cases m' with
    | nil => rfl
    | cons c m' =>
      have hc := (Memory.wfFrom_cons.mp hm').2.2.1
      exact absurd (by simpa using (h c.1).symm) hc
  | cons c m ih =>
    have hcm := Memory.wfFrom_cons.mp hm
    cases m' with
    | nil => exact absurd (by simpa using h c.1) hcm.2.2.1
    | cons d m' =>
      have hdm := Memory.wfFrom_cons.mp hm'
      have hkey : c.1 = d.1 := by
        rcases Nat.lt_trichotomy c.1 d.1 with hlt | heq | hgt
        · have := h c.1
          rw [Memory.read_below (Memory.wfFrom_cons.mpr ⟨Nat.le_refl _, hdm.2⟩ : Memory.wfFrom d.1 (d :: m') = true) hlt] at this
          exact absurd (by simpa using this) hcm.2.2.1
        · exact heq
        · have := h d.1
          rw [Memory.read_below (Memory.wfFrom_cons.mpr ⟨Nat.le_refl _, hcm.2⟩ : Memory.wfFrom c.1 (c :: m) = true) hgt] at this
          exact absurd (by simpa using this.symm) hdm.2.2.1
      have hval : c.2 = d.2 := by simpa [hkey] using h c.1
      have hcd : c = d := Prod.ext hkey hval
      subst hcd
      have : m = m' := by
        refine ih hcm.2.2.2 hdm.2.2.2 fun a => ?_
        by_cases ha : a < c.1 + 1
        · rw [Memory.read_below hcm.2.2.2 ha, Memory.read_below hdm.2.2.2 ha]
        · have hne : c.1 ≠ a := by omega
          simpa [hne] using h a
      rw [this]

/-- The reset content of a PERSISTENT store is canonical (20_memory R208). -/
theorem Memory.ofRaw_wfFrom (bs : List Byte) (k : Nat) : Memory.wfFrom k (Memory.ofRaw k bs) = true := by
  induction bs generalizing k with
  | nil => rfl
  | cons b bs ih =>
    unfold Memory.ofRaw
    split
    · rfl
    · split
      · exact Memory.wfFrom_mono (Nat.le_succ k) (ih (k + 1))
      · rename_i hk hb
        exact Memory.wfFrom_cons.mpr ⟨Nat.le_refl k, by omega, hb, ih (k + 1)⟩

theorem Memory.atReset_wf (b : Backend) (store : List Byte) : (Memory.atReset b store).wf = true := by
  cases b
  · rfl
  · rfl
  · exact Memory.ofRaw_wfFrom store 0

end Sys2Proof.Machine
end

