-- ==== Sys2Proof/Laws/State.lean ====
section
/-! SUPPORT. Laws/State.lean: for each named update, what every field of the state reads after it. -/

namespace Sys2Proof.Machine

variable (s : State)

/-! ### setOut -/

@[simp] theorem State.setOut_cfg (v : Bool) : (s.setOut v).cfg = s.cfg := rfl
@[simp] theorem State.setOut_enable (v : Bool) : (s.setOut v).enable = s.enable := rfl
@[simp] theorem State.setOut_overrun (v : Bool) : (s.setOut v).overrun = s.overrun := rfl
@[simp] theorem State.setOut_slots (v : Bool) : (s.setOut v).slots = s.slots := rfl
@[simp] theorem State.setOut_qHead (v : Bool) : (s.setOut v).qHead = s.qHead := rfl
@[simp] theorem State.setOut_qTail (v : Bool) : (s.setOut v).qTail = s.qTail := rfl
@[simp] theorem State.setOut_lastMs (v : Bool) : (s.setOut v).lastMs = s.lastMs := rfl
@[simp] theorem State.setOut_txCount (v : Bool) : (s.setOut v).txCount = s.txCount := rfl
@[simp] theorem State.setOut_txOut (v : Bool) : (s.setOut v).txOut = s.txOut := rfl
@[simp] theorem State.setOut_outLevel (v : Bool) : (s.setOut v).outLevel = v := rfl
@[simp] theorem State.setOut_slot (v : Bool) : (s.setOut v).slot = s.slot := rfl
@[simp] theorem State.setOut_inLatch (v : Bool) : (s.setOut v).inLatch = s.inLatch := rfl
@[simp] theorem State.setOut_onesCount (v : Bool) : (s.setOut v).onesCount = s.onesCount := rfl
@[simp] theorem State.setOut_zeroCount (v : Bool) : (s.setOut v).zeroCount = s.zeroCount := rfl
@[simp] theorem State.setOut_timerArmed (v : Bool) : (s.setOut v).timerArmed = s.timerArmed := rfl
@[simp] theorem State.setOut_timerDelay (v : Bool) : (s.setOut v).timerDelay = s.timerDelay := rfl
@[simp] theorem State.setOut_rx (v : Bool) : (s.setOut v).rx = s.rx := rfl
@[simp] theorem State.setOut_addr (v : Bool) : (s.setOut v).addr = s.addr := rfl
@[simp] theorem State.setOut_mem (v : Bool) : (s.setOut v).mem = s.mem := rfl
@[simp] theorem State.setOut_nlog (v : Bool) : (s.setOut v).nlog = s.nlog := rfl
@[simp] theorem State.setOut_storeLog (v : Bool) : (s.setOut v).storeLog = s.storeLog := rfl
@[simp] theorem State.setOut_rsp (v : Bool) : (s.setOut v).rsp = s.rsp := rfl
@[simp] theorem State.setOut_notifyPort (v : Bool) : (s.setOut v).notifyPort = s.notifyPort := rfl
@[simp] theorem State.setOut_nowMs (v : Bool) : (s.setOut v).nowMs = s.nowMs := rfl
@[simp] theorem State.setOut_readIn (v : Bool) : (s.setOut v).readIn = s.readIn := rfl
@[simp] theorem State.setOut_port (v : Bool) : (s.setOut v).port = s.port := rfl

/-! ### armTimer -/

@[simp] theorem State.armTimer_cfg (d : Nat) : (s.armTimer d).cfg = s.cfg := rfl
@[simp] theorem State.armTimer_enable (d : Nat) : (s.armTimer d).enable = s.enable := rfl
@[simp] theorem State.armTimer_overrun (d : Nat) : (s.armTimer d).overrun = s.overrun := rfl
@[simp] theorem State.armTimer_slots (d : Nat) : (s.armTimer d).slots = s.slots := rfl
@[simp] theorem State.armTimer_qHead (d : Nat) : (s.armTimer d).qHead = s.qHead := rfl
@[simp] theorem State.armTimer_qTail (d : Nat) : (s.armTimer d).qTail = s.qTail := rfl
@[simp] theorem State.armTimer_lastMs (d : Nat) : (s.armTimer d).lastMs = s.lastMs := rfl
@[simp] theorem State.armTimer_txCount (d : Nat) : (s.armTimer d).txCount = s.txCount := rfl
@[simp] theorem State.armTimer_txOut (d : Nat) : (s.armTimer d).txOut = s.txOut := rfl
@[simp] theorem State.armTimer_outLevel (d : Nat) : (s.armTimer d).outLevel = s.outLevel := rfl
@[simp] theorem State.armTimer_slot (d : Nat) : (s.armTimer d).slot = s.slot := rfl
@[simp] theorem State.armTimer_inLatch (d : Nat) : (s.armTimer d).inLatch = s.inLatch := rfl
@[simp] theorem State.armTimer_onesCount (d : Nat) : (s.armTimer d).onesCount = s.onesCount := rfl
@[simp] theorem State.armTimer_zeroCount (d : Nat) : (s.armTimer d).zeroCount = s.zeroCount := rfl
@[simp] theorem State.armTimer_timerArmed (d : Nat) : (s.armTimer d).timerArmed = true := rfl
@[simp] theorem State.armTimer_timerDelay (d : Nat) : (s.armTimer d).timerDelay = delayWord d := rfl
@[simp] theorem State.armTimer_rx (d : Nat) : (s.armTimer d).rx = s.rx := rfl
@[simp] theorem State.armTimer_addr (d : Nat) : (s.armTimer d).addr = s.addr := rfl
@[simp] theorem State.armTimer_mem (d : Nat) : (s.armTimer d).mem = s.mem := rfl
@[simp] theorem State.armTimer_nlog (d : Nat) : (s.armTimer d).nlog = s.nlog := rfl
@[simp] theorem State.armTimer_storeLog (d : Nat) : (s.armTimer d).storeLog = s.storeLog := rfl
@[simp] theorem State.armTimer_rsp (d : Nat) : (s.armTimer d).rsp = s.rsp := rfl
@[simp] theorem State.armTimer_notifyPort (d : Nat) : (s.armTimer d).notifyPort = s.notifyPort := rfl
@[simp] theorem State.armTimer_nowMs (d : Nat) : (s.armTimer d).nowMs = s.nowMs := rfl
@[simp] theorem State.armTimer_readIn (d : Nat) : (s.armTimer d).readIn = s.readIn := rfl
@[simp] theorem State.armTimer_port (d : Nat) : (s.armTimer d).port = s.port := rfl

/-! ### disarmTimer -/

@[simp] theorem State.disarmTimer_cfg : (s.disarmTimer).cfg = s.cfg := rfl
@[simp] theorem State.disarmTimer_enable : (s.disarmTimer).enable = s.enable := rfl
@[simp] theorem State.disarmTimer_overrun : (s.disarmTimer).overrun = s.overrun := rfl
@[simp] theorem State.disarmTimer_slots : (s.disarmTimer).slots = s.slots := rfl
@[simp] theorem State.disarmTimer_qHead : (s.disarmTimer).qHead = s.qHead := rfl
@[simp] theorem State.disarmTimer_qTail : (s.disarmTimer).qTail = s.qTail := rfl
@[simp] theorem State.disarmTimer_lastMs : (s.disarmTimer).lastMs = s.lastMs := rfl
@[simp] theorem State.disarmTimer_txCount : (s.disarmTimer).txCount = s.txCount := rfl
@[simp] theorem State.disarmTimer_txOut : (s.disarmTimer).txOut = s.txOut := rfl
@[simp] theorem State.disarmTimer_outLevel : (s.disarmTimer).outLevel = s.outLevel := rfl
@[simp] theorem State.disarmTimer_slot : (s.disarmTimer).slot = s.slot := rfl
@[simp] theorem State.disarmTimer_inLatch : (s.disarmTimer).inLatch = s.inLatch := rfl
@[simp] theorem State.disarmTimer_onesCount : (s.disarmTimer).onesCount = s.onesCount := rfl
@[simp] theorem State.disarmTimer_zeroCount : (s.disarmTimer).zeroCount = s.zeroCount := rfl
@[simp] theorem State.disarmTimer_timerArmed : (s.disarmTimer).timerArmed = false := rfl
@[simp] theorem State.disarmTimer_timerDelay : (s.disarmTimer).timerDelay = s.timerDelay := rfl
@[simp] theorem State.disarmTimer_rx : (s.disarmTimer).rx = s.rx := rfl
@[simp] theorem State.disarmTimer_addr : (s.disarmTimer).addr = s.addr := rfl
@[simp] theorem State.disarmTimer_mem : (s.disarmTimer).mem = s.mem := rfl
@[simp] theorem State.disarmTimer_nlog : (s.disarmTimer).nlog = s.nlog := rfl
@[simp] theorem State.disarmTimer_storeLog : (s.disarmTimer).storeLog = s.storeLog := rfl
@[simp] theorem State.disarmTimer_rsp : (s.disarmTimer).rsp = s.rsp := rfl
@[simp] theorem State.disarmTimer_notifyPort : (s.disarmTimer).notifyPort = s.notifyPort := rfl
@[simp] theorem State.disarmTimer_nowMs : (s.disarmTimer).nowMs = s.nowMs := rfl
@[simp] theorem State.disarmTimer_readIn : (s.disarmTimer).readIn = s.readIn := rfl
@[simp] theorem State.disarmTimer_port : (s.disarmTimer).port = s.port := rfl

/-! ### respond -/

@[simp] theorem State.respond_cfg (st : Status) (r : BitVec 24) : (s.respond st r).cfg = s.cfg := rfl
@[simp] theorem State.respond_enable (st : Status) (r : BitVec 24) : (s.respond st r).enable = s.enable := rfl
@[simp] theorem State.respond_overrun (st : Status) (r : BitVec 24) : (s.respond st r).overrun = s.overrun := rfl
@[simp] theorem State.respond_slots (st : Status) (r : BitVec 24) : (s.respond st r).slots = s.slots := rfl
@[simp] theorem State.respond_qHead (st : Status) (r : BitVec 24) : (s.respond st r).qHead = s.qHead := rfl
@[simp] theorem State.respond_qTail (st : Status) (r : BitVec 24) : (s.respond st r).qTail = s.qTail := rfl
@[simp] theorem State.respond_lastMs (st : Status) (r : BitVec 24) : (s.respond st r).lastMs = s.lastMs := rfl
@[simp] theorem State.respond_txCount (st : Status) (r : BitVec 24) : (s.respond st r).txCount = s.txCount := rfl
@[simp] theorem State.respond_txOut (st : Status) (r : BitVec 24) : (s.respond st r).txOut = s.txOut := rfl
@[simp] theorem State.respond_outLevel (st : Status) (r : BitVec 24) : (s.respond st r).outLevel = s.outLevel := rfl
@[simp] theorem State.respond_slot (st : Status) (r : BitVec 24) : (s.respond st r).slot = s.slot := rfl
@[simp] theorem State.respond_inLatch (st : Status) (r : BitVec 24) : (s.respond st r).inLatch = s.inLatch := rfl
@[simp] theorem State.respond_onesCount (st : Status) (r : BitVec 24) : (s.respond st r).onesCount = s.onesCount := rfl
@[simp] theorem State.respond_zeroCount (st : Status) (r : BitVec 24) : (s.respond st r).zeroCount = s.zeroCount := rfl
@[simp] theorem State.respond_timerArmed (st : Status) (r : BitVec 24) : (s.respond st r).timerArmed = s.timerArmed := rfl
@[simp] theorem State.respond_timerDelay (st : Status) (r : BitVec 24) : (s.respond st r).timerDelay = s.timerDelay := rfl
@[simp] theorem State.respond_rx (st : Status) (r : BitVec 24) : (s.respond st r).rx = s.rx := rfl
@[simp] theorem State.respond_addr (st : Status) (r : BitVec 24) : (s.respond st r).addr = s.addr := rfl
@[simp] theorem State.respond_mem (st : Status) (r : BitVec 24) : (s.respond st r).mem = s.mem := rfl
@[simp] theorem State.respond_nlog (st : Status) (r : BitVec 24) : (s.respond st r).nlog = s.nlog := rfl
@[simp] theorem State.respond_storeLog (st : Status) (r : BitVec 24) : (s.respond st r).storeLog = s.storeLog := rfl
@[simp] theorem State.respond_rsp (st : Status) (r : BitVec 24) : (s.respond st r).rsp = some (statusCode st ++ r) := rfl
@[simp] theorem State.respond_notifyPort (st : Status) (r : BitVec 24) : (s.respond st r).notifyPort = s.notifyPort := rfl
@[simp] theorem State.respond_nowMs (st : Status) (r : BitVec 24) : (s.respond st r).nowMs = s.nowMs := rfl
@[simp] theorem State.respond_readIn (st : Status) (r : BitVec 24) : (s.respond st r).readIn = s.readIn := rfl
@[simp] theorem State.respond_port (st : Status) (r : BitVec 24) : (s.respond st r).port = s.port := rfl

/-! ### emit -/

@[simp] theorem State.emit_cfg (r : Notify) : (s.emit r).cfg = s.cfg := rfl
@[simp] theorem State.emit_enable (r : Notify) : (s.emit r).enable = s.enable := rfl
@[simp] theorem State.emit_overrun (r : Notify) : (s.emit r).overrun = s.overrun := rfl
@[simp] theorem State.emit_slots (r : Notify) : (s.emit r).slots = s.slots := rfl
@[simp] theorem State.emit_qHead (r : Notify) : (s.emit r).qHead = s.qHead := rfl
@[simp] theorem State.emit_qTail (r : Notify) : (s.emit r).qTail = s.qTail := rfl
@[simp] theorem State.emit_lastMs (r : Notify) : (s.emit r).lastMs = s.lastMs := rfl
@[simp] theorem State.emit_txCount (r : Notify) : (s.emit r).txCount = s.txCount := rfl
@[simp] theorem State.emit_txOut (r : Notify) : (s.emit r).txOut = s.txOut := rfl
@[simp] theorem State.emit_outLevel (r : Notify) : (s.emit r).outLevel = s.outLevel := rfl
@[simp] theorem State.emit_slot (r : Notify) : (s.emit r).slot = s.slot := rfl
@[simp] theorem State.emit_inLatch (r : Notify) : (s.emit r).inLatch = s.inLatch := rfl
@[simp] theorem State.emit_onesCount (r : Notify) : (s.emit r).onesCount = s.onesCount := rfl
@[simp] theorem State.emit_zeroCount (r : Notify) : (s.emit r).zeroCount = s.zeroCount := rfl
@[simp] theorem State.emit_timerArmed (r : Notify) : (s.emit r).timerArmed = s.timerArmed := rfl
@[simp] theorem State.emit_timerDelay (r : Notify) : (s.emit r).timerDelay = s.timerDelay := rfl
@[simp] theorem State.emit_rx (r : Notify) : (s.emit r).rx = s.rx := rfl
@[simp] theorem State.emit_addr (r : Notify) : (s.emit r).addr = s.addr := rfl
@[simp] theorem State.emit_mem (r : Notify) : (s.emit r).mem = s.mem := rfl
@[simp] theorem State.emit_nlog (r : Notify) : (s.emit r).nlog = s.nlog ++ [r] := rfl
@[simp] theorem State.emit_storeLog (r : Notify) : (s.emit r).storeLog = s.storeLog := rfl
@[simp] theorem State.emit_rsp (r : Notify) : (s.emit r).rsp = s.rsp := rfl
@[simp] theorem State.emit_notifyPort (r : Notify) : (s.emit r).notifyPort = some r.pack := rfl
@[simp] theorem State.emit_nowMs (r : Notify) : (s.emit r).nowMs = s.nowMs := rfl
@[simp] theorem State.emit_readIn (r : Notify) : (s.emit r).readIn = s.readIn := rfl
@[simp] theorem State.emit_port (r : Notify) : (s.emit r).port = s.port := rfl

/-! ### setHeadReps -/

@[simp] theorem State.setHeadReps_cfg (r : BitVec 8) : (s.setHeadReps r).cfg = s.cfg := rfl
@[simp] theorem State.setHeadReps_enable (r : BitVec 8) : (s.setHeadReps r).enable = s.enable := rfl
@[simp] theorem State.setHeadReps_overrun (r : BitVec 8) : (s.setHeadReps r).overrun = s.overrun := rfl
@[simp] theorem State.setHeadReps_slots (r : BitVec 8) : (s.setHeadReps r).slots = s.slots.set s.qHead ⟨s.headSlot.frame, r⟩ := rfl
@[simp] theorem State.setHeadReps_qHead (r : BitVec 8) : (s.setHeadReps r).qHead = s.qHead := rfl
@[simp] theorem State.setHeadReps_qTail (r : BitVec 8) : (s.setHeadReps r).qTail = s.qTail := rfl
@[simp] theorem State.setHeadReps_lastMs (r : BitVec 8) : (s.setHeadReps r).lastMs = s.lastMs := rfl
@[simp] theorem State.setHeadReps_txCount (r : BitVec 8) : (s.setHeadReps r).txCount = s.txCount := rfl
@[simp] theorem State.setHeadReps_txOut (r : BitVec 8) : (s.setHeadReps r).txOut = s.txOut := rfl
@[simp] theorem State.setHeadReps_outLevel (r : BitVec 8) : (s.setHeadReps r).outLevel = s.outLevel := rfl
@[simp] theorem State.setHeadReps_slot (r : BitVec 8) : (s.setHeadReps r).slot = s.slot := rfl
@[simp] theorem State.setHeadReps_inLatch (r : BitVec 8) : (s.setHeadReps r).inLatch = s.inLatch := rfl
@[simp] theorem State.setHeadReps_onesCount (r : BitVec 8) : (s.setHeadReps r).onesCount = s.onesCount := rfl
@[simp] theorem State.setHeadReps_zeroCount (r : BitVec 8) : (s.setHeadReps r).zeroCount = s.zeroCount := rfl
@[simp] theorem State.setHeadReps_timerArmed (r : BitVec 8) : (s.setHeadReps r).timerArmed = s.timerArmed := rfl
@[simp] theorem State.setHeadReps_timerDelay (r : BitVec 8) : (s.setHeadReps r).timerDelay = s.timerDelay := rfl
@[simp] theorem State.setHeadReps_rx (r : BitVec 8) : (s.setHeadReps r).rx = s.rx := rfl
@[simp] theorem State.setHeadReps_addr (r : BitVec 8) : (s.setHeadReps r).addr = s.addr := rfl
@[simp] theorem State.setHeadReps_mem (r : BitVec 8) : (s.setHeadReps r).mem = s.mem := rfl
@[simp] theorem State.setHeadReps_nlog (r : BitVec 8) : (s.setHeadReps r).nlog = s.nlog := rfl
@[simp] theorem State.setHeadReps_storeLog (r : BitVec 8) : (s.setHeadReps r).storeLog = s.storeLog := rfl
@[simp] theorem State.setHeadReps_rsp (r : BitVec 8) : (s.setHeadReps r).rsp = s.rsp := rfl
@[simp] theorem State.setHeadReps_notifyPort (r : BitVec 8) : (s.setHeadReps r).notifyPort = s.notifyPort := rfl
@[simp] theorem State.setHeadReps_nowMs (r : BitVec 8) : (s.setHeadReps r).nowMs = s.nowMs := rfl
@[simp] theorem State.setHeadReps_readIn (r : BitVec 8) : (s.setHeadReps r).readIn = s.readIn := rfl
@[simp] theorem State.setHeadReps_port (r : BitVec 8) : (s.setHeadReps r).port = s.port := rfl

/-! ### append -/

@[simp] theorem State.append_cfg (f : Frame) (r : BitVec 8) (x : Bool) : (s.append f r x).cfg = s.cfg := rfl
@[simp] theorem State.append_enable (f : Frame) (r : BitVec 8) (x : Bool) : (s.append f r x).enable = s.enable := rfl
@[simp] theorem State.append_overrun (f : Frame) (r : BitVec 8) (x : Bool) : (s.append f r x).overrun = s.overrun := rfl
@[simp] theorem State.append_slots (f : Frame) (r : BitVec 8) (x : Bool) : (s.append f r x).slots = s.slots.set s.qTail ⟨f, r⟩ := rfl
@[simp] theorem State.append_qHead (f : Frame) (r : BitVec 8) (x : Bool) : (s.append f r x).qHead = s.qHead := rfl
@[simp] theorem State.append_qTail (f : Frame) (r : BitVec 8) (x : Bool) : (s.append f r x).qTail = (s.qTail + 1) % s.cfg.n := rfl
@[simp] theorem State.append_lastMs (f : Frame) (r : BitVec 8) (x : Bool) : (s.append f r x).lastMs = s.nowMs := rfl
@[simp] theorem State.append_txCount (f : Frame) (r : BitVec 8) (x : Bool) : (s.append f r x).txCount = s.txCount := rfl
@[simp] theorem State.append_txOut (f : Frame) (r : BitVec 8) (x : Bool) : (s.append f r x).txOut = s.txOut := rfl
@[simp] theorem State.append_outLevel (f : Frame) (r : BitVec 8) (x : Bool) : (s.append f r x).outLevel = s.outLevel := rfl
@[simp] theorem State.append_slot (f : Frame) (r : BitVec 8) (x : Bool) : (s.append f r x).slot = s.slot := rfl
@[simp] theorem State.append_inLatch (f : Frame) (r : BitVec 8) (x : Bool) : (s.append f r x).inLatch = s.inLatch := rfl
@[simp] theorem State.append_onesCount (f : Frame) (r : BitVec 8) (x : Bool) : (s.append f r x).onesCount = s.onesCount := rfl
@[simp] theorem State.append_zeroCount (f : Frame) (r : BitVec 8) (x : Bool) : (s.append f r x).zeroCount = if x && s.qEmpty then 0 else s.zeroCount := rfl
@[simp] theorem State.append_timerArmed (f : Frame) (r : BitVec 8) (x : Bool) : (s.append f r x).timerArmed = s.timerArmed := rfl
@[simp] theorem State.append_timerDelay (f : Frame) (r : BitVec 8) (x : Bool) : (s.append f r x).timerDelay = s.timerDelay := rfl
@[simp] theorem State.append_rx (f : Frame) (r : BitVec 8) (x : Bool) : (s.append f r x).rx = s.rx := rfl
@[simp] theorem State.append_addr (f : Frame) (r : BitVec 8) (x : Bool) : (s.append f r x).addr = s.addr := rfl
@[simp] theorem State.append_mem (f : Frame) (r : BitVec 8) (x : Bool) : (s.append f r x).mem = s.mem := rfl
@[simp] theorem State.append_nlog (f : Frame) (r : BitVec 8) (x : Bool) : (s.append f r x).nlog = s.nlog := rfl
@[simp] theorem State.append_storeLog (f : Frame) (r : BitVec 8) (x : Bool) : (s.append f r x).storeLog = s.storeLog := rfl
@[simp] theorem State.append_rsp (f : Frame) (r : BitVec 8) (x : Bool) : (s.append f r x).rsp = s.rsp := rfl
@[simp] theorem State.append_notifyPort (f : Frame) (r : BitVec 8) (x : Bool) : (s.append f r x).notifyPort = s.notifyPort := rfl
@[simp] theorem State.append_nowMs (f : Frame) (r : BitVec 8) (x : Bool) : (s.append f r x).nowMs = s.nowMs := rfl
@[simp] theorem State.append_readIn (f : Frame) (r : BitVec 8) (x : Bool) : (s.append f r x).readIn = s.readIn := rfl
@[simp] theorem State.append_port (f : Frame) (r : BitVec 8) (x : Bool) : (s.append f r x).port = s.port := rfl

/-! ### retire -/

@[simp] theorem State.retire_cfg : (s.retire).cfg = s.cfg := rfl
@[simp] theorem State.retire_enable : (s.retire).enable = s.enable := rfl
@[simp] theorem State.retire_overrun : (s.retire).overrun = s.overrun := rfl
@[simp] theorem State.retire_slots : (s.retire).slots = s.slots := rfl
@[simp] theorem State.retire_qHead : (s.retire).qHead = (s.qHead + 1) % s.cfg.n := rfl
@[simp] theorem State.retire_qTail : (s.retire).qTail = s.qTail := rfl
@[simp] theorem State.retire_lastMs : (s.retire).lastMs = s.lastMs := rfl
@[simp] theorem State.retire_txCount : (s.retire).txCount = s.txCount := rfl
@[simp] theorem State.retire_txOut : (s.retire).txOut = s.txOut := rfl
@[simp] theorem State.retire_outLevel : (s.retire).outLevel = s.outLevel := rfl
@[simp] theorem State.retire_slot : (s.retire).slot = s.slot := rfl
@[simp] theorem State.retire_inLatch : (s.retire).inLatch = s.inLatch := rfl
@[simp] theorem State.retire_onesCount : (s.retire).onesCount = s.onesCount := rfl
@[simp] theorem State.retire_zeroCount : (s.retire).zeroCount = s.zeroCount := rfl
@[simp] theorem State.retire_timerArmed : (s.retire).timerArmed = s.timerArmed := rfl
@[simp] theorem State.retire_timerDelay : (s.retire).timerDelay = s.timerDelay := rfl
@[simp] theorem State.retire_rx : (s.retire).rx = s.rx := rfl
@[simp] theorem State.retire_addr : (s.retire).addr = s.addr := rfl
@[simp] theorem State.retire_mem : (s.retire).mem = s.mem := rfl
@[simp] theorem State.retire_nlog : (s.retire).nlog = s.nlog := rfl
@[simp] theorem State.retire_storeLog : (s.retire).storeLog = s.storeLog := rfl
@[simp] theorem State.retire_rsp : (s.retire).rsp = s.rsp := rfl
@[simp] theorem State.retire_notifyPort : (s.retire).notifyPort = s.notifyPort := rfl
@[simp] theorem State.retire_nowMs : (s.retire).nowMs = s.nowMs := rfl
@[simp] theorem State.retire_readIn : (s.retire).readIn = s.readIn := rfl
@[simp] theorem State.retire_port : (s.retire).port = s.port := rfl

/-! ### clearAcc -/

@[simp] theorem State.clearAcc_cfg : (s.clearAcc).cfg = s.cfg := rfl
@[simp] theorem State.clearAcc_enable : (s.clearAcc).enable = s.enable := rfl
@[simp] theorem State.clearAcc_overrun : (s.clearAcc).overrun = s.overrun := rfl
@[simp] theorem State.clearAcc_slots : (s.clearAcc).slots = s.slots := rfl
@[simp] theorem State.clearAcc_qHead : (s.clearAcc).qHead = s.qHead := rfl
@[simp] theorem State.clearAcc_qTail : (s.clearAcc).qTail = s.qTail := rfl
@[simp] theorem State.clearAcc_lastMs : (s.clearAcc).lastMs = s.lastMs := rfl
@[simp] theorem State.clearAcc_txCount : (s.clearAcc).txCount = s.txCount := rfl
@[simp] theorem State.clearAcc_txOut : (s.clearAcc).txOut = s.txOut := rfl
@[simp] theorem State.clearAcc_outLevel : (s.clearAcc).outLevel = s.outLevel := rfl
@[simp] theorem State.clearAcc_slot : (s.clearAcc).slot = s.slot := rfl
@[simp] theorem State.clearAcc_inLatch : (s.clearAcc).inLatch = s.inLatch := rfl
@[simp] theorem State.clearAcc_onesCount : (s.clearAcc).onesCount = s.onesCount := rfl
@[simp] theorem State.clearAcc_zeroCount : (s.clearAcc).zeroCount = s.zeroCount := rfl
@[simp] theorem State.clearAcc_timerArmed : (s.clearAcc).timerArmed = s.timerArmed := rfl
@[simp] theorem State.clearAcc_timerDelay : (s.clearAcc).timerDelay = s.timerDelay := rfl
@[simp] theorem State.clearAcc_rx : (s.clearAcc).rx = {} := rfl
@[simp] theorem State.clearAcc_addr : (s.clearAcc).addr = s.addr := rfl
@[simp] theorem State.clearAcc_mem : (s.clearAcc).mem = s.mem := rfl
@[simp] theorem State.clearAcc_nlog : (s.clearAcc).nlog = s.nlog := rfl
@[simp] theorem State.clearAcc_storeLog : (s.clearAcc).storeLog = s.storeLog := rfl
@[simp] theorem State.clearAcc_rsp : (s.clearAcc).rsp = s.rsp := rfl
@[simp] theorem State.clearAcc_notifyPort : (s.clearAcc).notifyPort = s.notifyPort := rfl
@[simp] theorem State.clearAcc_nowMs : (s.clearAcc).nowMs = s.nowMs := rfl
@[simp] theorem State.clearAcc_readIn : (s.clearAcc).readIn = s.readIn := rfl
@[simp] theorem State.clearAcc_port : (s.clearAcc).port = s.port := rfl

/-! ### clearAll -/

@[simp] theorem State.clearAll_cfg : (s.clearAll).cfg = s.cfg := rfl
@[simp] theorem State.clearAll_enable : (s.clearAll).enable = s.enable := rfl
@[simp] theorem State.clearAll_overrun : (s.clearAll).overrun = s.overrun := rfl
@[simp] theorem State.clearAll_slots : (s.clearAll).slots = s.slots := rfl
@[simp] theorem State.clearAll_qHead : (s.clearAll).qHead = s.qHead := rfl
@[simp] theorem State.clearAll_qTail : (s.clearAll).qTail = s.qTail := rfl
@[simp] theorem State.clearAll_lastMs : (s.clearAll).lastMs = s.lastMs := rfl
@[simp] theorem State.clearAll_txCount : (s.clearAll).txCount = s.txCount := rfl
@[simp] theorem State.clearAll_txOut : (s.clearAll).txOut = s.txOut := rfl
@[simp] theorem State.clearAll_outLevel : (s.clearAll).outLevel = s.outLevel := rfl
@[simp] theorem State.clearAll_slot : (s.clearAll).slot = s.slot := rfl
@[simp] theorem State.clearAll_inLatch : (s.clearAll).inLatch = s.inLatch := rfl
@[simp] theorem State.clearAll_onesCount : (s.clearAll).onesCount = s.onesCount := rfl
@[simp] theorem State.clearAll_zeroCount : (s.clearAll).zeroCount = s.zeroCount := rfl
@[simp] theorem State.clearAll_timerArmed : (s.clearAll).timerArmed = s.timerArmed := rfl
@[simp] theorem State.clearAll_timerDelay : (s.clearAll).timerDelay = s.timerDelay := rfl
@[simp] theorem State.clearAll_rx : (s.clearAll).rx = {} := rfl
@[simp] theorem State.clearAll_addr : (s.clearAll).addr = {} := rfl
@[simp] theorem State.clearAll_mem : (s.clearAll).mem = s.mem := rfl
@[simp] theorem State.clearAll_nlog : (s.clearAll).nlog = s.nlog := rfl
@[simp] theorem State.clearAll_storeLog : (s.clearAll).storeLog = s.storeLog := rfl
@[simp] theorem State.clearAll_rsp : (s.clearAll).rsp = s.rsp := rfl
@[simp] theorem State.clearAll_notifyPort : (s.clearAll).notifyPort = s.notifyPort := rfl
@[simp] theorem State.clearAll_nowMs : (s.clearAll).nowMs = s.nowMs := rfl
@[simp] theorem State.clearAll_readIn : (s.clearAll).readIn = s.readIn := rfl
@[simp] theorem State.clearAll_port : (s.clearAll).port = s.port := rfl

/-! ### writeByte -/

@[simp] theorem State.writeByte_cfg (k : Key) (b : Byte) : (s.writeByte k b).cfg = s.cfg := rfl
@[simp] theorem State.writeByte_enable (k : Key) (b : Byte) : (s.writeByte k b).enable = s.enable := rfl
@[simp] theorem State.writeByte_overrun (k : Key) (b : Byte) : (s.writeByte k b).overrun = s.overrun := rfl
@[simp] theorem State.writeByte_slots (k : Key) (b : Byte) : (s.writeByte k b).slots = s.slots := rfl
@[simp] theorem State.writeByte_qHead (k : Key) (b : Byte) : (s.writeByte k b).qHead = s.qHead := rfl
@[simp] theorem State.writeByte_qTail (k : Key) (b : Byte) : (s.writeByte k b).qTail = s.qTail := rfl
@[simp] theorem State.writeByte_lastMs (k : Key) (b : Byte) : (s.writeByte k b).lastMs = s.lastMs := rfl
@[simp] theorem State.writeByte_txCount (k : Key) (b : Byte) : (s.writeByte k b).txCount = s.txCount := rfl
@[simp] theorem State.writeByte_txOut (k : Key) (b : Byte) : (s.writeByte k b).txOut = s.txOut := rfl
@[simp] theorem State.writeByte_outLevel (k : Key) (b : Byte) : (s.writeByte k b).outLevel = s.outLevel := rfl
@[simp] theorem State.writeByte_slot (k : Key) (b : Byte) : (s.writeByte k b).slot = s.slot := rfl
@[simp] theorem State.writeByte_inLatch (k : Key) (b : Byte) : (s.writeByte k b).inLatch = s.inLatch := rfl
@[simp] theorem State.writeByte_onesCount (k : Key) (b : Byte) : (s.writeByte k b).onesCount = s.onesCount := rfl
@[simp] theorem State.writeByte_zeroCount (k : Key) (b : Byte) : (s.writeByte k b).zeroCount = s.zeroCount := rfl
@[simp] theorem State.writeByte_timerArmed (k : Key) (b : Byte) : (s.writeByte k b).timerArmed = s.timerArmed := rfl
@[simp] theorem State.writeByte_timerDelay (k : Key) (b : Byte) : (s.writeByte k b).timerDelay = s.timerDelay := rfl
@[simp] theorem State.writeByte_rx (k : Key) (b : Byte) : (s.writeByte k b).rx = s.rx := rfl
@[simp] theorem State.writeByte_addr (k : Key) (b : Byte) : (s.writeByte k b).addr = s.addr := rfl
@[simp] theorem State.writeByte_mem (k : Key) (b : Byte) : (s.writeByte k b).mem = s.mem.write k.toNat (b + 1) := rfl
@[simp] theorem State.writeByte_nlog (k : Key) (b : Byte) : (s.writeByte k b).nlog = s.nlog := rfl
@[simp] theorem State.writeByte_storeLog (k : Key) (b : Byte) : (s.writeByte k b).storeLog = s.storeLog ++ [(k.toNat, b)] := rfl
@[simp] theorem State.writeByte_rsp (k : Key) (b : Byte) : (s.writeByte k b).rsp = s.rsp := rfl
@[simp] theorem State.writeByte_notifyPort (k : Key) (b : Byte) : (s.writeByte k b).notifyPort = s.notifyPort := rfl
@[simp] theorem State.writeByte_nowMs (k : Key) (b : Byte) : (s.writeByte k b).nowMs = s.nowMs := rfl
@[simp] theorem State.writeByte_readIn (k : Key) (b : Byte) : (s.writeByte k b).readIn = s.readIn := rfl
@[simp] theorem State.writeByte_port (k : Key) (b : Byte) : (s.writeByte k b).port = s.port := rfl

/-! ### present -/

@[simp] theorem State.present_cfg (x : Input) (rest : List Input) : (s.present x rest).cfg = s.cfg := rfl
@[simp] theorem State.present_enable (x : Input) (rest : List Input) : (s.present x rest).enable = s.enable := rfl
@[simp] theorem State.present_overrun (x : Input) (rest : List Input) : (s.present x rest).overrun = s.overrun := rfl
@[simp] theorem State.present_slots (x : Input) (rest : List Input) : (s.present x rest).slots = s.slots := rfl
@[simp] theorem State.present_qHead (x : Input) (rest : List Input) : (s.present x rest).qHead = s.qHead := rfl
@[simp] theorem State.present_qTail (x : Input) (rest : List Input) : (s.present x rest).qTail = s.qTail := rfl
@[simp] theorem State.present_lastMs (x : Input) (rest : List Input) : (s.present x rest).lastMs = s.lastMs := rfl
@[simp] theorem State.present_txCount (x : Input) (rest : List Input) : (s.present x rest).txCount = s.txCount := rfl
@[simp] theorem State.present_txOut (x : Input) (rest : List Input) : (s.present x rest).txOut = s.txOut := rfl
@[simp] theorem State.present_outLevel (x : Input) (rest : List Input) : (s.present x rest).outLevel = s.outLevel := rfl
@[simp] theorem State.present_slot (x : Input) (rest : List Input) : (s.present x rest).slot = s.slot := rfl
@[simp] theorem State.present_inLatch (x : Input) (rest : List Input) : (s.present x rest).inLatch = s.inLatch := rfl
@[simp] theorem State.present_onesCount (x : Input) (rest : List Input) : (s.present x rest).onesCount = s.onesCount := rfl
@[simp] theorem State.present_zeroCount (x : Input) (rest : List Input) : (s.present x rest).zeroCount = s.zeroCount := rfl
@[simp] theorem State.present_timerArmed (x : Input) (rest : List Input) : (s.present x rest).timerArmed = s.timerArmed := rfl
@[simp] theorem State.present_timerDelay (x : Input) (rest : List Input) : (s.present x rest).timerDelay = s.timerDelay := rfl
@[simp] theorem State.present_rx (x : Input) (rest : List Input) : (s.present x rest).rx = s.rx := rfl
@[simp] theorem State.present_addr (x : Input) (rest : List Input) : (s.present x rest).addr = s.addr := rfl
@[simp] theorem State.present_mem (x : Input) (rest : List Input) : (s.present x rest).mem = s.mem := rfl
@[simp] theorem State.present_nlog (x : Input) (rest : List Input) : (s.present x rest).nlog = s.nlog := rfl
@[simp] theorem State.present_storeLog (x : Input) (rest : List Input) : (s.present x rest).storeLog = s.storeLog := rfl
@[simp] theorem State.present_rsp (x : Input) (rest : List Input) : (s.present x rest).rsp = none := rfl
@[simp] theorem State.present_notifyPort (x : Input) (rest : List Input) : (s.present x rest).notifyPort = none := rfl
@[simp] theorem State.present_nowMs (x : Input) (rest : List Input) : (s.present x rest).nowMs = x.nowMs := rfl
@[simp] theorem State.present_readIn (x : Input) (rest : List Input) : (s.present x rest).readIn = x.readIn := rfl
@[simp] theorem State.present_port (x : Input) (rest : List Input) : (s.present x rest).port = rest := rfl

/-! ### beginHalfCycle -/

@[simp] theorem State.beginHalfCycle_cfg : (s.beginHalfCycle).cfg = s.cfg := rfl
@[simp] theorem State.beginHalfCycle_enable : (s.beginHalfCycle).enable = s.enable := rfl
@[simp] theorem State.beginHalfCycle_overrun : (s.beginHalfCycle).overrun = s.overrun := rfl
@[simp] theorem State.beginHalfCycle_slots : (s.beginHalfCycle).slots = s.slots := rfl
@[simp] theorem State.beginHalfCycle_qHead : (s.beginHalfCycle).qHead = s.qHead := rfl
@[simp] theorem State.beginHalfCycle_qTail : (s.beginHalfCycle).qTail = s.qTail := rfl
@[simp] theorem State.beginHalfCycle_lastMs : (s.beginHalfCycle).lastMs = s.lastMs := rfl
@[simp] theorem State.beginHalfCycle_txCount : (s.beginHalfCycle).txCount = s.txCount := rfl
@[simp] theorem State.beginHalfCycle_txOut : (s.beginHalfCycle).txOut = false := rfl
@[simp] theorem State.beginHalfCycle_outLevel : (s.beginHalfCycle).outLevel = s.outLevel := rfl
@[simp] theorem State.beginHalfCycle_slot : (s.beginHalfCycle).slot = 1 := rfl
@[simp] theorem State.beginHalfCycle_inLatch : (s.beginHalfCycle).inLatch = false := rfl
@[simp] theorem State.beginHalfCycle_onesCount : (s.beginHalfCycle).onesCount = s.onesCount := rfl
@[simp] theorem State.beginHalfCycle_zeroCount : (s.beginHalfCycle).zeroCount = s.zeroCount := rfl
@[simp] theorem State.beginHalfCycle_timerArmed : (s.beginHalfCycle).timerArmed = true := rfl
@[simp] theorem State.beginHalfCycle_timerDelay : (s.beginHalfCycle).timerDelay = delayWord s.cfg.tSample := rfl
@[simp] theorem State.beginHalfCycle_rx : (s.beginHalfCycle).rx = s.rx := rfl
@[simp] theorem State.beginHalfCycle_addr : (s.beginHalfCycle).addr = s.addr := rfl
@[simp] theorem State.beginHalfCycle_mem : (s.beginHalfCycle).mem = s.mem := rfl
@[simp] theorem State.beginHalfCycle_nlog : (s.beginHalfCycle).nlog = s.nlog := rfl
@[simp] theorem State.beginHalfCycle_storeLog : (s.beginHalfCycle).storeLog = s.storeLog := rfl
@[simp] theorem State.beginHalfCycle_rsp : (s.beginHalfCycle).rsp = s.rsp := rfl
@[simp] theorem State.beginHalfCycle_notifyPort : (s.beginHalfCycle).notifyPort = s.notifyPort := rfl
@[simp] theorem State.beginHalfCycle_nowMs : (s.beginHalfCycle).nowMs = s.nowMs := rfl
@[simp] theorem State.beginHalfCycle_readIn : (s.beginHalfCycle).readIn = s.readIn := rfl
@[simp] theorem State.beginHalfCycle_port : (s.beginHalfCycle).port = s.port := rfl

/-! ### startRx -/

@[simp] theorem State.startRx_cfg : (s.startRx).cfg = s.cfg := rfl
@[simp] theorem State.startRx_enable : (s.startRx).enable = s.enable := rfl
@[simp] theorem State.startRx_overrun : (s.startRx).overrun = s.overrun := rfl
@[simp] theorem State.startRx_slots : (s.startRx).slots = s.slots := rfl
@[simp] theorem State.startRx_qHead : (s.startRx).qHead = s.qHead := rfl
@[simp] theorem State.startRx_qTail : (s.startRx).qTail = s.qTail := rfl
@[simp] theorem State.startRx_lastMs : (s.startRx).lastMs = s.lastMs := rfl
@[simp] theorem State.startRx_txCount : (s.startRx).txCount = s.txCount := rfl
@[simp] theorem State.startRx_txOut : (s.startRx).txOut = s.txOut := rfl
@[simp] theorem State.startRx_outLevel : (s.startRx).outLevel = s.outLevel := rfl
@[simp] theorem State.startRx_slot : (s.startRx).slot = s.slot := rfl
@[simp] theorem State.startRx_inLatch : (s.startRx).inLatch = s.inLatch := rfl
@[simp] theorem State.startRx_onesCount : (s.startRx).onesCount = s.onesCount := rfl
@[simp] theorem State.startRx_zeroCount : (s.startRx).zeroCount = s.zeroCount := rfl
@[simp] theorem State.startRx_timerArmed : (s.startRx).timerArmed = s.timerArmed := rfl
@[simp] theorem State.startRx_timerDelay : (s.startRx).timerDelay = s.timerDelay := rfl
@[simp] theorem State.startRx_rx : (s.startRx).rx = { active := true, count := 4 } := rfl
@[simp] theorem State.startRx_addr : (s.startRx).addr = s.addr := rfl
@[simp] theorem State.startRx_mem : (s.startRx).mem = s.mem := rfl
@[simp] theorem State.startRx_nlog : (s.startRx).nlog = s.nlog := rfl
@[simp] theorem State.startRx_storeLog : (s.startRx).storeLog = s.storeLog := rfl
@[simp] theorem State.startRx_rsp : (s.startRx).rsp = s.rsp := rfl
@[simp] theorem State.startRx_notifyPort : (s.startRx).notifyPort = s.notifyPort := rfl
@[simp] theorem State.startRx_nowMs : (s.startRx).nowMs = s.nowMs := rfl
@[simp] theorem State.startRx_readIn : (s.startRx).readIn = s.readIn := rfl
@[simp] theorem State.startRx_port : (s.startRx).port = s.port := rfl

/-! ### acceptBit -/

@[simp] theorem State.acceptBit_cfg : (s.acceptBit).cfg = s.cfg := rfl
@[simp] theorem State.acceptBit_enable : (s.acceptBit).enable = s.enable := rfl
@[simp] theorem State.acceptBit_overrun : (s.acceptBit).overrun = s.overrun := rfl
@[simp] theorem State.acceptBit_slots : (s.acceptBit).slots = s.slots := rfl
@[simp] theorem State.acceptBit_qHead : (s.acceptBit).qHead = s.qHead := rfl
@[simp] theorem State.acceptBit_qTail : (s.acceptBit).qTail = s.qTail := rfl
@[simp] theorem State.acceptBit_lastMs : (s.acceptBit).lastMs = s.lastMs := rfl
@[simp] theorem State.acceptBit_txCount : (s.acceptBit).txCount = s.txCount := rfl
@[simp] theorem State.acceptBit_txOut : (s.acceptBit).txOut = s.txOut := rfl
@[simp] theorem State.acceptBit_outLevel : (s.acceptBit).outLevel = s.outLevel := rfl
@[simp] theorem State.acceptBit_slot : (s.acceptBit).slot = s.slot := rfl
@[simp] theorem State.acceptBit_inLatch : (s.acceptBit).inLatch = s.inLatch := rfl
@[simp] theorem State.acceptBit_onesCount : (s.acceptBit).onesCount = s.onesCount := rfl
@[simp] theorem State.acceptBit_zeroCount : (s.acceptBit).zeroCount = s.zeroCount := rfl
@[simp] theorem State.acceptBit_timerArmed : (s.acceptBit).timerArmed = s.timerArmed := rfl
@[simp] theorem State.acceptBit_timerDelay : (s.acceptBit).timerDelay = s.timerDelay := rfl
@[simp] theorem State.acceptBit_rx : (s.acceptBit).rx = { s.rx with buf := (s.rx.buf <<< 1) ||| (BitVec.ofBool s.rx.raw).setWidth 8 } := rfl
@[simp] theorem State.acceptBit_addr : (s.acceptBit).addr = s.addr := rfl
@[simp] theorem State.acceptBit_mem : (s.acceptBit).mem = s.mem := rfl
@[simp] theorem State.acceptBit_nlog : (s.acceptBit).nlog = s.nlog := rfl
@[simp] theorem State.acceptBit_storeLog : (s.acceptBit).storeLog = s.storeLog := rfl
@[simp] theorem State.acceptBit_rsp : (s.acceptBit).rsp = s.rsp := rfl
@[simp] theorem State.acceptBit_notifyPort : (s.acceptBit).notifyPort = s.notifyPort := rfl
@[simp] theorem State.acceptBit_nowMs : (s.acceptBit).nowMs = s.nowMs := rfl
@[simp] theorem State.acceptBit_readIn : (s.acceptBit).readIn = s.readIn := rfl
@[simp] theorem State.acceptBit_port : (s.acceptBit).port = s.port := rfl

/-! ### addressBlock -/

@[simp] theorem State.addressBlock_cfg : (s.addressBlock).cfg = s.cfg := rfl
@[simp] theorem State.addressBlock_enable : (s.addressBlock).enable = s.enable := rfl
@[simp] theorem State.addressBlock_overrun : (s.addressBlock).overrun = s.overrun := rfl
@[simp] theorem State.addressBlock_slots : (s.addressBlock).slots = s.slots := rfl
@[simp] theorem State.addressBlock_qHead : (s.addressBlock).qHead = s.qHead := rfl
@[simp] theorem State.addressBlock_qTail : (s.addressBlock).qTail = s.qTail := rfl
@[simp] theorem State.addressBlock_lastMs : (s.addressBlock).lastMs = s.lastMs := rfl
@[simp] theorem State.addressBlock_txCount : (s.addressBlock).txCount = s.txCount := rfl
@[simp] theorem State.addressBlock_txOut : (s.addressBlock).txOut = s.txOut := rfl
@[simp] theorem State.addressBlock_outLevel : (s.addressBlock).outLevel = s.outLevel := rfl
@[simp] theorem State.addressBlock_slot : (s.addressBlock).slot = s.slot := rfl
@[simp] theorem State.addressBlock_inLatch : (s.addressBlock).inLatch = s.inLatch := rfl
@[simp] theorem State.addressBlock_onesCount : (s.addressBlock).onesCount = s.onesCount := rfl
@[simp] theorem State.addressBlock_zeroCount : (s.addressBlock).zeroCount = s.zeroCount := rfl
@[simp] theorem State.addressBlock_timerArmed : (s.addressBlock).timerArmed = s.timerArmed := rfl
@[simp] theorem State.addressBlock_timerDelay : (s.addressBlock).timerDelay = s.timerDelay := rfl
@[simp] theorem State.addressBlock_rx : (s.addressBlock).rx = s.rx := rfl
@[simp] theorem State.addressBlock_addr : (s.addressBlock).addr = { valid := true, house := s.rx.house, unit := s.rx.key } := rfl
@[simp] theorem State.addressBlock_mem : (s.addressBlock).mem = s.mem := rfl
@[simp] theorem State.addressBlock_nlog : (s.addressBlock).nlog = s.nlog := rfl
@[simp] theorem State.addressBlock_storeLog : (s.addressBlock).storeLog = s.storeLog := rfl
@[simp] theorem State.addressBlock_rsp : (s.addressBlock).rsp = s.rsp := rfl
@[simp] theorem State.addressBlock_notifyPort : (s.addressBlock).notifyPort = s.notifyPort := rfl
@[simp] theorem State.addressBlock_nowMs : (s.addressBlock).nowMs = s.nowMs := rfl
@[simp] theorem State.addressBlock_readIn : (s.addressBlock).readIn = s.readIn := rfl
@[simp] theorem State.addressBlock_port : (s.addressBlock).port = s.port := rfl

/-! ### commandBlock -/

@[simp] theorem State.commandBlock_cfg : (s.commandBlock).cfg = s.cfg := rfl
@[simp] theorem State.commandBlock_enable : (s.commandBlock).enable = s.enable := rfl
@[simp] theorem State.commandBlock_overrun : (s.commandBlock).overrun = s.overrun := rfl
@[simp] theorem State.commandBlock_slots : (s.commandBlock).slots = s.slots := rfl
@[simp] theorem State.commandBlock_qHead : (s.commandBlock).qHead = s.qHead := rfl
@[simp] theorem State.commandBlock_qTail : (s.commandBlock).qTail = s.qTail := rfl
@[simp] theorem State.commandBlock_lastMs : (s.commandBlock).lastMs = s.lastMs := rfl
@[simp] theorem State.commandBlock_txCount : (s.commandBlock).txCount = s.txCount := rfl
@[simp] theorem State.commandBlock_txOut : (s.commandBlock).txOut = s.txOut := rfl
@[simp] theorem State.commandBlock_outLevel : (s.commandBlock).outLevel = s.outLevel := rfl
@[simp] theorem State.commandBlock_slot : (s.commandBlock).slot = s.slot := rfl
@[simp] theorem State.commandBlock_inLatch : (s.commandBlock).inLatch = s.inLatch := rfl
@[simp] theorem State.commandBlock_onesCount : (s.commandBlock).onesCount = s.onesCount := rfl
@[simp] theorem State.commandBlock_zeroCount : (s.commandBlock).zeroCount = s.zeroCount := rfl
@[simp] theorem State.commandBlock_timerArmed : (s.commandBlock).timerArmed = s.timerArmed := rfl
@[simp] theorem State.commandBlock_timerDelay : (s.commandBlock).timerDelay = s.timerDelay := rfl
@[simp] theorem State.commandBlock_rx : (s.commandBlock).rx = { s.rx with cmd := s.rx.key, cmdValid := true } := rfl
@[simp] theorem State.commandBlock_addr : (s.commandBlock).addr = s.addr := rfl
@[simp] theorem State.commandBlock_mem : (s.commandBlock).mem = s.mem := rfl
@[simp] theorem State.commandBlock_nlog : (s.commandBlock).nlog = s.nlog := rfl
@[simp] theorem State.commandBlock_storeLog : (s.commandBlock).storeLog = s.storeLog := rfl
@[simp] theorem State.commandBlock_rsp : (s.commandBlock).rsp = s.rsp := rfl
@[simp] theorem State.commandBlock_notifyPort : (s.commandBlock).notifyPort = s.notifyPort := rfl
@[simp] theorem State.commandBlock_nowMs : (s.commandBlock).nowMs = s.nowMs := rfl
@[simp] theorem State.commandBlock_readIn : (s.commandBlock).readIn = s.readIn := rfl
@[simp] theorem State.commandBlock_port : (s.commandBlock).port = s.port := rfl

/-! ### updateSilence -/

@[simp] theorem State.updateSilence_cfg : (s.updateSilence).cfg = s.cfg := rfl
@[simp] theorem State.updateSilence_enable : (s.updateSilence).enable = s.enable := rfl
@[simp] theorem State.updateSilence_overrun : (s.updateSilence).overrun = s.overrun := rfl
@[simp] theorem State.updateSilence_slots : (s.updateSilence).slots = s.slots := rfl
@[simp] theorem State.updateSilence_qHead : (s.updateSilence).qHead = s.qHead := rfl
@[simp] theorem State.updateSilence_qTail : (s.updateSilence).qTail = s.qTail := rfl
@[simp] theorem State.updateSilence_lastMs : (s.updateSilence).lastMs = s.lastMs := rfl
@[simp] theorem State.updateSilence_txCount : (s.updateSilence).txCount = s.txCount := rfl
@[simp] theorem State.updateSilence_txOut : (s.updateSilence).txOut = s.txOut := rfl
@[simp] theorem State.updateSilence_outLevel : (s.updateSilence).outLevel = s.outLevel := rfl
@[simp] theorem State.updateSilence_slot : (s.updateSilence).slot = s.slot := rfl
@[simp] theorem State.updateSilence_inLatch : (s.updateSilence).inLatch = s.inLatch := rfl
@[simp] theorem State.updateSilence_onesCount : (s.updateSilence).onesCount = s.onesCount := rfl
@[simp] theorem State.updateSilence_zeroCount : (s.updateSilence).zeroCount = if s.inLatch = false ∧ s.txOut = false then BitVec.ofNat 8 (min (s.zeroCount.toNat + 1) 255) else 0 := rfl
@[simp] theorem State.updateSilence_timerArmed : (s.updateSilence).timerArmed = s.timerArmed := rfl
@[simp] theorem State.updateSilence_timerDelay : (s.updateSilence).timerDelay = s.timerDelay := rfl
@[simp] theorem State.updateSilence_rx : (s.updateSilence).rx = s.rx := rfl
@[simp] theorem State.updateSilence_addr : (s.updateSilence).addr = s.addr := rfl
@[simp] theorem State.updateSilence_mem : (s.updateSilence).mem = s.mem := rfl
@[simp] theorem State.updateSilence_nlog : (s.updateSilence).nlog = s.nlog := rfl
@[simp] theorem State.updateSilence_storeLog : (s.updateSilence).storeLog = s.storeLog := rfl
@[simp] theorem State.updateSilence_rsp : (s.updateSilence).rsp = s.rsp := rfl
@[simp] theorem State.updateSilence_notifyPort : (s.updateSilence).notifyPort = s.notifyPort := rfl
@[simp] theorem State.updateSilence_nowMs : (s.updateSilence).nowMs = s.nowMs := rfl
@[simp] theorem State.updateSilence_readIn : (s.updateSilence).readIn = s.readIn := rfl
@[simp] theorem State.updateSilence_port : (s.updateSilence).port = s.port := rfl

/-! ### sampleLine -/

@[simp] theorem State.sampleLine_cfg : (s.sampleLine).cfg = s.cfg := rfl
@[simp] theorem State.sampleLine_enable : (s.sampleLine).enable = s.enable := rfl
@[simp] theorem State.sampleLine_overrun : (s.sampleLine).overrun = s.overrun := rfl
@[simp] theorem State.sampleLine_slots : (s.sampleLine).slots = s.slots := rfl
@[simp] theorem State.sampleLine_qHead : (s.sampleLine).qHead = s.qHead := rfl
@[simp] theorem State.sampleLine_qTail : (s.sampleLine).qTail = s.qTail := rfl
@[simp] theorem State.sampleLine_lastMs : (s.sampleLine).lastMs = s.lastMs := rfl
@[simp] theorem State.sampleLine_txCount : (s.sampleLine).txCount = s.txCount := rfl
@[simp] theorem State.sampleLine_txOut : (s.sampleLine).txOut = s.txOut := rfl
@[simp] theorem State.sampleLine_outLevel : (s.sampleLine).outLevel = s.outLevel := rfl
@[simp] theorem State.sampleLine_slot : (s.sampleLine).slot = 2 := rfl
@[simp] theorem State.sampleLine_inLatch : (s.sampleLine).inLatch = s.readIn := rfl
@[simp] theorem State.sampleLine_onesCount : (s.sampleLine).onesCount = s.onesCount := rfl
@[simp] theorem State.sampleLine_zeroCount : (s.sampleLine).zeroCount = s.zeroCount := rfl
@[simp] theorem State.sampleLine_timerArmed : (s.sampleLine).timerArmed = true := rfl
@[simp] theorem State.sampleLine_timerDelay : (s.sampleLine).timerDelay = delayWord (s.cfg.tPulse - s.cfg.tSample) := rfl
@[simp] theorem State.sampleLine_rx : (s.sampleLine).rx = s.rx := rfl
@[simp] theorem State.sampleLine_addr : (s.sampleLine).addr = s.addr := rfl
@[simp] theorem State.sampleLine_mem : (s.sampleLine).mem = s.mem := rfl
@[simp] theorem State.sampleLine_nlog : (s.sampleLine).nlog = s.nlog := rfl
@[simp] theorem State.sampleLine_storeLog : (s.sampleLine).storeLog = s.storeLog := rfl
@[simp] theorem State.sampleLine_rsp : (s.sampleLine).rsp = s.rsp := rfl
@[simp] theorem State.sampleLine_notifyPort : (s.sampleLine).notifyPort = s.notifyPort := rfl
@[simp] theorem State.sampleLine_nowMs : (s.sampleLine).nowMs = s.nowMs := rfl
@[simp] theorem State.sampleLine_readIn : (s.sampleLine).readIn = s.readIn := rfl
@[simp] theorem State.sampleLine_port : (s.sampleLine).port = s.port := rfl

/-! ### startPhasePulse -/

@[simp] theorem State.startPhasePulse_cfg : (s.startPhasePulse).cfg = s.cfg := rfl
@[simp] theorem State.startPhasePulse_enable : (s.startPhasePulse).enable = s.enable := rfl
@[simp] theorem State.startPhasePulse_overrun : (s.startPhasePulse).overrun = s.overrun := rfl
@[simp] theorem State.startPhasePulse_slots : (s.startPhasePulse).slots = s.slots := rfl
@[simp] theorem State.startPhasePulse_qHead : (s.startPhasePulse).qHead = s.qHead := rfl
@[simp] theorem State.startPhasePulse_qTail : (s.startPhasePulse).qTail = s.qTail := rfl
@[simp] theorem State.startPhasePulse_lastMs : (s.startPhasePulse).lastMs = s.lastMs := rfl
@[simp] theorem State.startPhasePulse_txCount : (s.startPhasePulse).txCount = s.txCount := rfl
@[simp] theorem State.startPhasePulse_txOut : (s.startPhasePulse).txOut = s.txOut := rfl
@[simp] theorem State.startPhasePulse_outLevel : (s.startPhasePulse).outLevel = true := rfl
@[simp] theorem State.startPhasePulse_slot : (s.startPhasePulse).slot = s.slot + 1 := rfl
@[simp] theorem State.startPhasePulse_inLatch : (s.startPhasePulse).inLatch = s.inLatch := rfl
@[simp] theorem State.startPhasePulse_onesCount : (s.startPhasePulse).onesCount = s.onesCount := rfl
@[simp] theorem State.startPhasePulse_zeroCount : (s.startPhasePulse).zeroCount = s.zeroCount := rfl
@[simp] theorem State.startPhasePulse_timerArmed : (s.startPhasePulse).timerArmed = true := rfl
@[simp] theorem State.startPhasePulse_timerDelay : (s.startPhasePulse).timerDelay = delayWord s.cfg.tPulse := rfl
@[simp] theorem State.startPhasePulse_rx : (s.startPhasePulse).rx = s.rx := rfl
@[simp] theorem State.startPhasePulse_addr : (s.startPhasePulse).addr = s.addr := rfl
@[simp] theorem State.startPhasePulse_mem : (s.startPhasePulse).mem = s.mem := rfl
@[simp] theorem State.startPhasePulse_nlog : (s.startPhasePulse).nlog = s.nlog := rfl
@[simp] theorem State.startPhasePulse_storeLog : (s.startPhasePulse).storeLog = s.storeLog := rfl
@[simp] theorem State.startPhasePulse_rsp : (s.startPhasePulse).rsp = s.rsp := rfl
@[simp] theorem State.startPhasePulse_notifyPort : (s.startPhasePulse).notifyPort = s.notifyPort := rfl
@[simp] theorem State.startPhasePulse_nowMs : (s.startPhasePulse).nowMs = s.nowMs := rfl
@[simp] theorem State.startPhasePulse_readIn : (s.startPhasePulse).readIn = s.readIn := rfl
@[simp] theorem State.startPhasePulse_port : (s.startPhasePulse).port = s.port := rfl

/-! ### memWrite -/

@[simp] theorem State.memWrite_cfg (k : Key) (v : Byte) : (s.memWrite k v).cfg = s.cfg := by
  unfold State.memWrite; split <;> rfl
@[simp] theorem State.memWrite_enable (k : Key) (v : Byte) : (s.memWrite k v).enable = s.enable := by
  unfold State.memWrite; split <;> rfl
@[simp] theorem State.memWrite_overrun (k : Key) (v : Byte) : (s.memWrite k v).overrun = s.overrun := by
  unfold State.memWrite; split <;> rfl
@[simp] theorem State.memWrite_slots (k : Key) (v : Byte) : (s.memWrite k v).slots = s.slots := by
  unfold State.memWrite; split <;> rfl
@[simp] theorem State.memWrite_qHead (k : Key) (v : Byte) : (s.memWrite k v).qHead = s.qHead := by
  unfold State.memWrite; split <;> rfl
@[simp] theorem State.memWrite_qTail (k : Key) (v : Byte) : (s.memWrite k v).qTail = s.qTail := by
  unfold State.memWrite; split <;> rfl
@[simp] theorem State.memWrite_lastMs (k : Key) (v : Byte) : (s.memWrite k v).lastMs = s.lastMs := by
  unfold State.memWrite; split <;> rfl
@[simp] theorem State.memWrite_txCount (k : Key) (v : Byte) : (s.memWrite k v).txCount = s.txCount := by
  unfold State.memWrite; split <;> rfl
@[simp] theorem State.memWrite_txOut (k : Key) (v : Byte) : (s.memWrite k v).txOut = s.txOut := by
  unfold State.memWrite; split <;> rfl
@[simp] theorem State.memWrite_outLevel (k : Key) (v : Byte) : (s.memWrite k v).outLevel = s.outLevel := by
  unfold State.memWrite; split <;> rfl
@[simp] theorem State.memWrite_slot (k : Key) (v : Byte) : (s.memWrite k v).slot = s.slot := by
  unfold State.memWrite; split <;> rfl
@[simp] theorem State.memWrite_inLatch (k : Key) (v : Byte) : (s.memWrite k v).inLatch = s.inLatch := by
  unfold State.memWrite; split <;> rfl
@[simp] theorem State.memWrite_onesCount (k : Key) (v : Byte) : (s.memWrite k v).onesCount = s.onesCount := by
  unfold State.memWrite; split <;> rfl
@[simp] theorem State.memWrite_zeroCount (k : Key) (v : Byte) : (s.memWrite k v).zeroCount = s.zeroCount := by
  unfold State.memWrite; split <;> rfl
@[simp] theorem State.memWrite_timerArmed (k : Key) (v : Byte) : (s.memWrite k v).timerArmed = s.timerArmed := by
  unfold State.memWrite; split <;> rfl
@[simp] theorem State.memWrite_timerDelay (k : Key) (v : Byte) : (s.memWrite k v).timerDelay = s.timerDelay := by
  unfold State.memWrite; split <;> rfl
@[simp] theorem State.memWrite_rx (k : Key) (v : Byte) : (s.memWrite k v).rx = s.rx := by
  unfold State.memWrite; split <;> rfl
@[simp] theorem State.memWrite_addr (k : Key) (v : Byte) : (s.memWrite k v).addr = s.addr := by
  unfold State.memWrite; split <;> rfl
@[simp] theorem State.memWrite_nlog (k : Key) (v : Byte) : (s.memWrite k v).nlog = s.nlog := by
  unfold State.memWrite; split <;> rfl
@[simp] theorem State.memWrite_rsp (k : Key) (v : Byte) : (s.memWrite k v).rsp = s.rsp := by
  unfold State.memWrite; split <;> rfl
@[simp] theorem State.memWrite_notifyPort (k : Key) (v : Byte) : (s.memWrite k v).notifyPort = s.notifyPort := by
  unfold State.memWrite; split <;> rfl
@[simp] theorem State.memWrite_nowMs (k : Key) (v : Byte) : (s.memWrite k v).nowMs = s.nowMs := by
  unfold State.memWrite; split <;> rfl
@[simp] theorem State.memWrite_readIn (k : Key) (v : Byte) : (s.memWrite k v).readIn = s.readIn := by
  unfold State.memWrite; split <;> rfl
@[simp] theorem State.memWrite_port (k : Key) (v : Byte) : (s.memWrite k v).port = s.port := by
  unfold State.memWrite; split <;> rfl

/-! ### markOverrun -/

@[simp] theorem State.markOverrun_cfg : s.markOverrun.cfg = s.cfg := by
  unfold State.markOverrun; split <;> rfl
@[simp] theorem State.markOverrun_enable : s.markOverrun.enable = s.enable := by
  unfold State.markOverrun; split <;> rfl
@[simp] theorem State.markOverrun_overrun : s.markOverrun.overrun = (s.overrun || s.slot != 0) := by
  unfold State.markOverrun; split <;> simp_all
@[simp] theorem State.markOverrun_slots : s.markOverrun.slots = s.slots := by
  unfold State.markOverrun; split <;> rfl
@[simp] theorem State.markOverrun_qHead : s.markOverrun.qHead = s.qHead := by
  unfold State.markOverrun; split <;> rfl
@[simp] theorem State.markOverrun_qTail : s.markOverrun.qTail = s.qTail := by
  unfold State.markOverrun; split <;> rfl
@[simp] theorem State.markOverrun_lastMs : s.markOverrun.lastMs = s.lastMs := by
  unfold State.markOverrun; split <;> rfl
@[simp] theorem State.markOverrun_txCount : s.markOverrun.txCount = s.txCount := by
  unfold State.markOverrun; split <;> rfl
@[simp] theorem State.markOverrun_txOut : s.markOverrun.txOut = s.txOut := by
  unfold State.markOverrun; split <;> rfl
@[simp] theorem State.markOverrun_outLevel : s.markOverrun.outLevel = (s.outLevel && s.slot == 0) := by
  unfold State.markOverrun; split <;> simp_all
@[simp] theorem State.markOverrun_slot : s.markOverrun.slot = s.slot := by
  unfold State.markOverrun; split <;> rfl
@[simp] theorem State.markOverrun_inLatch : s.markOverrun.inLatch = s.inLatch := by
  unfold State.markOverrun; split <;> rfl
@[simp] theorem State.markOverrun_onesCount : s.markOverrun.onesCount = s.onesCount := by
  unfold State.markOverrun; split <;> rfl
@[simp] theorem State.markOverrun_zeroCount : s.markOverrun.zeroCount = s.zeroCount := by
  unfold State.markOverrun; split <;> rfl
@[simp] theorem State.markOverrun_timerArmed : s.markOverrun.timerArmed = s.timerArmed := by
  unfold State.markOverrun; split <;> rfl
@[simp] theorem State.markOverrun_timerDelay : s.markOverrun.timerDelay = s.timerDelay := by
  unfold State.markOverrun; split <;> rfl
@[simp] theorem State.markOverrun_rx : s.markOverrun.rx = s.rx := by
  unfold State.markOverrun; split <;> rfl
@[simp] theorem State.markOverrun_addr : s.markOverrun.addr = s.addr := by
  unfold State.markOverrun; split <;> rfl
@[simp] theorem State.markOverrun_mem : s.markOverrun.mem = s.mem := by
  unfold State.markOverrun; split <;> rfl
@[simp] theorem State.markOverrun_nlog : s.markOverrun.nlog = s.nlog := by
  unfold State.markOverrun; split <;> rfl
@[simp] theorem State.markOverrun_storeLog : s.markOverrun.storeLog = s.storeLog := by
  unfold State.markOverrun; split <;> rfl
@[simp] theorem State.markOverrun_rsp : s.markOverrun.rsp = s.rsp := by
  unfold State.markOverrun; split <;> rfl
@[simp] theorem State.markOverrun_notifyPort : s.markOverrun.notifyPort = s.notifyPort := by
  unfold State.markOverrun; split <;> rfl
@[simp] theorem State.markOverrun_nowMs : s.markOverrun.nowMs = s.nowMs := by
  unfold State.markOverrun; split <;> rfl
@[simp] theorem State.markOverrun_readIn : s.markOverrun.readIn = s.readIn := by
  unfold State.markOverrun; split <;> rfl
@[simp] theorem State.markOverrun_port : s.markOverrun.port = s.port := by
  unfold State.markOverrun; split <;> rfl

/-! ### driveBit -/

@[simp] theorem State.driveBit_cfg (b : Bool) : (s.driveBit b).cfg = s.cfg := by cases b <;> rfl
@[simp] theorem State.driveBit_enable (b : Bool) : (s.driveBit b).enable = s.enable := by cases b <;> rfl
@[simp] theorem State.driveBit_overrun (b : Bool) : (s.driveBit b).overrun = s.overrun := by cases b <;> rfl
@[simp] theorem State.driveBit_slots (b : Bool) : (s.driveBit b).slots = s.slots := by cases b <;> rfl
@[simp] theorem State.driveBit_qHead (b : Bool) : (s.driveBit b).qHead = s.qHead := by cases b <;> rfl
@[simp] theorem State.driveBit_qTail (b : Bool) : (s.driveBit b).qTail = s.qTail := by cases b <;> rfl
@[simp] theorem State.driveBit_lastMs (b : Bool) : (s.driveBit b).lastMs = s.lastMs := by cases b <;> rfl
@[simp] theorem State.driveBit_txCount (b : Bool) : (s.driveBit b).txCount = s.txCount := by cases b <;> rfl
@[simp] theorem State.driveBit_txOut (b : Bool) : (s.driveBit b).txOut = b := by cases b <;> rfl
@[simp] theorem State.driveBit_outLevel (b : Bool) : (s.driveBit b).outLevel = (b || s.outLevel) := by cases b <;> rfl
@[simp] theorem State.driveBit_slot (b : Bool) : (s.driveBit b).slot = s.slot := by cases b <;> rfl
@[simp] theorem State.driveBit_inLatch (b : Bool) : (s.driveBit b).inLatch = s.inLatch := by cases b <;> rfl
@[simp] theorem State.driveBit_onesCount (b : Bool) : (s.driveBit b).onesCount = s.onesCount := by cases b <;> rfl
@[simp] theorem State.driveBit_zeroCount (b : Bool) : (s.driveBit b).zeroCount = s.zeroCount := by cases b <;> rfl
@[simp] theorem State.driveBit_timerArmed (b : Bool) : (s.driveBit b).timerArmed = s.timerArmed := by cases b <;> rfl
@[simp] theorem State.driveBit_timerDelay (b : Bool) : (s.driveBit b).timerDelay = s.timerDelay := by cases b <;> rfl
@[simp] theorem State.driveBit_rx (b : Bool) : (s.driveBit b).rx = s.rx := by cases b <;> rfl
@[simp] theorem State.driveBit_addr (b : Bool) : (s.driveBit b).addr = s.addr := by cases b <;> rfl
@[simp] theorem State.driveBit_mem (b : Bool) : (s.driveBit b).mem = s.mem := by cases b <;> rfl
@[simp] theorem State.driveBit_nlog (b : Bool) : (s.driveBit b).nlog = s.nlog := by cases b <;> rfl
@[simp] theorem State.driveBit_storeLog (b : Bool) : (s.driveBit b).storeLog = s.storeLog := by cases b <;> rfl
@[simp] theorem State.driveBit_rsp (b : Bool) : (s.driveBit b).rsp = s.rsp := by cases b <;> rfl
@[simp] theorem State.driveBit_notifyPort (b : Bool) : (s.driveBit b).notifyPort = s.notifyPort := by cases b <;> rfl
@[simp] theorem State.driveBit_nowMs (b : Bool) : (s.driveBit b).nowMs = s.nowMs := by cases b <;> rfl
@[simp] theorem State.driveBit_readIn (b : Bool) : (s.driveBit b).readIn = s.readIn := by cases b <;> rfl
@[simp] theorem State.driveBit_port (b : Bool) : (s.driveBit b).port = s.port := by cases b <;> rfl

end Sys2Proof.Machine
end

