-- ==== Sys2Proof/Laws/Ops.lean ====
section
/-! SUPPORT. Laws/Ops.lean: one lemma per shared operation that says everything it can do. -/

namespace Sys2Proof.Machine

/-! ## The module store (20_memory R203 to R206) -/

/-- MemRead is the logical byte of the store, or 0 without one. -/
theorem State.memRead_eq (s : State) (k : Key) :
    s.memRead k = if s.cfg.backend = .none then 0 else s.mem.read k.toNat := by
  unfold State.memRead State.readByte
  split <;> simp_all

/-- MemWrite changes the store and, on PERSISTENT, logs one byte write. -/
theorem State.memWrite_eq (s : State) (k : Key) (v : Byte) :
    s.memWrite k v =
      { s with
        mem := if s.cfg.backend = .none then s.mem else s.mem.write k.toNat v
        storeLog := if s.cfg.backend = .persistent then s.storeLog ++ [(k.toNat, v - 1)] else s.storeLog } := by
  unfold State.memWrite State.writeByte
  split <;> simp_all

theorem State.memRead_memWrite_same {s : State} (hm : s.mem.wf = true) (hb : s.cfg.backend ≠ .none) (k : Key) (v : Byte) :
    (s.memWrite k v).memRead k = v := by
  rw [State.memRead_eq, State.memWrite_eq]
  simp [hb, Memory.read_write_same hm]

theorem State.memRead_memWrite_other (s : State) {k k' : Key} (h : k ≠ k') (v : Byte) :
    (s.memWrite k v).memRead k' = s.memRead k' := by
  have hne : k.toNat ≠ k'.toNat := fun heq => h (BitVec.eq_of_toNat_eq heq)
  rw [State.memRead_eq, State.memRead_eq, State.memWrite_eq]
  by_cases hb : s.cfg.backend = .none <;> simp [hb, Memory.read_write_other s.mem hne]

theorem State.memWrite_wf {s : State} (hm : s.mem.wf = true) (k : Key) (v : Byte) : (s.memWrite k v).mem.wf = true := by
  rw [State.memWrite_eq]
  by_cases hb : s.cfg.backend = .none <;> simp [hb, hm, Memory.write_wf hm k v]

/-- A wipe changes nothing but the store and its log. -/
theorem State.wipe_frame (ks : List Key) (s : State) :
    State.wipe ks s = { s with mem := (State.wipe ks s).mem, storeLog := (State.wipe ks s).storeLog } := by
  induction ks generalizing s with
  | nil => rfl
  | cons k ks ih =>
    have h := ih (s.memWrite k 0)
    rw [State.memWrite_eq] at h
    simpa [State.wipe, State.memWrite_eq] using h

@[simp] theorem State.wipe_cfg (ks : List Key) (s : State) : (State.wipe ks s).cfg = s.cfg := by
  rw [State.wipe_frame]

theorem State.wipe_wf (ks : List Key) {s : State} (hm : s.mem.wf = true) : (State.wipe ks s).mem.wf = true := by
  induction ks generalizing s with
  | nil => exact hm
  | cons k ks ih => exact ih (State.memWrite_wf hm k 0)

/-- After a wipe the listed keys read 0 and every other key as before. -/
theorem State.memRead_wipe (ks : List Key) {s : State} (hm : s.mem.wf = true) (k : Key) :
    (State.wipe ks s).memRead k = if k ∈ ks then 0 else s.memRead k := by
  induction ks generalizing s with
  | nil => rfl
  | cons j ks ih =>
    show (State.wipe ks (s.memWrite j 0)).memRead k = _
    rw [ih (State.memWrite_wf hm j 0)]
    by_cases hk : k ∈ ks
    · simp [hk]
    · by_cases hj : j = k
      · subst hj
        by_cases hb : s.cfg.backend = .none
        · simp [hk, State.memRead_eq, hb]
        · simp [hk, State.memRead_memWrite_same hm hb]
      · simp [hk, State.memRead_memWrite_other s hj, Ne.symm hj]

/-- The byte writes a wipe sends to a PERSISTENT store: one erased byte per key, in order (20_memory R204, R206). -/
theorem State.wipe_storeLog (ks : List Key) (s : State) :
    (State.wipe ks s).storeLog =
      if s.cfg.backend = .persistent then s.storeLog ++ ks.map (fun k => (k.toNat, 0xFF)) else s.storeLog := by
  induction ks generalizing s with
  | nil => simp [State.wipe]
  | cons k ks ih =>
    show (State.wipe ks (s.memWrite k 0)).storeLog = _
    rw [ih]
    by_cases hb : s.cfg.backend = .persistent <;> simp [State.memWrite_eq, hb]

/-! ## The queue (40_send_buffer R401 to R409) -/

/-- What an enqueue can do: overwrite the head's repetitions, append, suppress a duplicate, or find the queue full. -/
theorem State.enqueue_cases (s : State) (f : Frame) (reps : BitVec 8) (ctx : Bool) :
    (s.headSlot.frame = f ∧ 0 < s.headSlot.reps.toNat ∧ s.enqueue f reps ctx = (s.setHeadReps reps).respondEnq 1) ∨
    (¬(s.headSlot.frame = f ∧ 0 < s.headSlot.reps.toNat) ∧ s.qFull = false ∧
      ((s.slotAt s.qLast).frame ≠ f ∨ s.rebufferElapsed = true) ∧ s.enqueue f reps ctx = (s.append f reps ctx).respondEnq 0) ∨
    (¬(s.headSlot.frame = f ∧ 0 < s.headSlot.reps.toNat) ∧ s.qFull = false ∧ (s.slotAt s.qLast).frame = f ∧
      s.rebufferElapsed = false ∧ s.enqueue f reps ctx = s.respondEnq 2) ∨
    (¬(s.headSlot.frame = f ∧ 0 < s.headSlot.reps.toNat) ∧ s.qFull = true ∧ s.enqueue f reps ctx = s.respond .full 0) := by
  unfold State.enqueue
  split
  · exact .inl ⟨‹_ ∧ _›.1, ‹_ ∧ _›.2, rfl⟩
  · right
    split
    · split
      · exact .inl ⟨‹_›, ‹_›, ‹_›, rfl⟩
      · rename_i h
        rw [not_or] at h
        exact .inr (.inl ⟨‹_›, ‹_›, by simpa using h.1, by simpa using h.2, rfl⟩)
    · exact .inr (.inr ⟨‹_›, by simpa using ‹¬s.qFull = false›, rfl⟩)

/-- The slot read back after the slot list is set. -/
theorem slots_getD_set (l : List QSlot) (i j : Nat) (q d : QSlot) :
    (l.set i q).getD j d = if i = j ∧ i < l.length then q else l.getD j d := by
  simp only [List.getD_eq_getElem?_getD, List.getElem?_set]
  by_cases hij : i = j
  · subst hij
    by_cases hi : i < l.length
    · simp [hi]
    · simp [hi]
  · simp [hij]

theorem State.slotAt_setHeadReps (s : State) (r : BitVec 8) (i : Nat) :
    (s.setHeadReps r).slotAt i =
      if s.qHead = i ∧ s.qHead < s.slots.length then ⟨s.headSlot.frame, r⟩ else s.slotAt i := by
  simp only [State.slotAt, State.setHeadReps_slots, slots_getD_set]

theorem State.slotAt_append (s : State) (f : Frame) (r : BitVec 8) (x : Bool) (i : Nat) :
    (s.append f r x).slotAt i = if s.qTail = i ∧ s.qTail < s.slots.length then ⟨f, r⟩ else s.slotAt i := by
  simp only [State.slotAt, State.append_slots, slots_getD_set]

/-! ## The encoder (43_frame_encoder R551, R565 to R567) -/

/-- The end of a repetition: one repetition less, the count back to 0, then the entry retired, or the silence pre-seeded, or
neither. -/
theorem State.endOfRepetition_cases (s : State) (f : Frame) (sh : Shape) (hl : s.qHead < s.slots.length) :
    (s.headSlot.reps = 1#8 ∧ s.endOfRepetition f sh =
      { s.setHeadReps 0 with txCount := 0, qHead := (s.qHead + 1) % s.cfg.n }) ∨
    (s.headSlot.reps ≠ 1#8 ∧ preSeeds f sh = true ∧ s.endOfRepetition f sh =
      { s.setHeadReps (s.headSlot.reps - 1) with txCount := 0, zeroCount := s.cfg.minSilence }) ∨
    (s.headSlot.reps ≠ 1#8 ∧ preSeeds f sh = false ∧ s.endOfRepetition f sh =
      { s.setHeadReps (s.headSlot.reps - 1) with txCount := 0 }) := by
  have hread : (s.setHeadReps (s.headSlot.reps - 1)).headSlot.reps = s.headSlot.reps - 1 := by
    have := State.slotAt_setHeadReps s (s.headSlot.reps - 1) s.qHead
    simp only [hl, and_self, if_true] at this
    exact congrArg QSlot.reps this
  have hdef : s.endOfRepetition f sh =
      if (s.setHeadReps (s.headSlot.reps - 1)).headSlot.reps = 0#8 then
        { s.setHeadReps (s.headSlot.reps - 1) with txCount := 0, qHead := (s.qHead + 1) % s.cfg.n }
      else if preSeeds f sh then
        { s.setHeadReps (s.headSlot.reps - 1) with txCount := 0, zeroCount := s.cfg.minSilence }
      else { s.setHeadReps (s.headSlot.reps - 1) with txCount := 0 } := rfl
  rw [hdef, hread]
  by_cases h1 : s.headSlot.reps = 1#8
  · rw [if_pos (by rw [h1]; rfl)]
    exact .inl ⟨h1, by rw [h1]; rfl⟩
  · rw [if_neg (by intro h; exact h1 (by bv_omega))]
    by_cases hp : preSeeds f sh = true
    · exact .inr (.inl ⟨h1, hp, by rw [if_pos hp]⟩)
    · exact .inr (.inr ⟨h1, by simpa using hp, by rw [if_neg hp]⟩)

/-! ## The decoder (44_frame_decoder) -/

/-- The module update is one MemWrite. -/
theorem State.deliver_eq (s : State) (t : Resolved) (n : BitVec 8) :
    s.deliver t n =
      (if t.unit = 0 then s
        else s.memWrite (moduleKey t.house t.unit)
          (updatedByte s.cfg.presetDimEnable (s.memRead (moduleKey t.house t.unit)) s.rx.cmd t.data t.xcmd
            (isExtCmd s.rx.cmd && s.rx.xcmdValid))).emit ⟨t.house, t.unit, s.rx.cmd, t.data, t.xcmd, n⟩ := rfl

/-- The end of a message: no command, a discarded preset dim, or a delivered record. -/
theorem State.endOfMessage_cases (s : State) (n : BitVec 8) :
    (s.rx.cmdValid = false ∧ s.endOfMessage n = s.clearAcc) ∨
    (s.rx.cmdValid = true ∧ resolveCommand s.cfg.presetDimEnable s.rx s.addr = none ∧ s.endOfMessage n = s.clearAll) ∨
    (∃ t, s.rx.cmdValid = true ∧ resolveCommand s.cfg.presetDimEnable s.rx s.addr = some t ∧
      s.endOfMessage n = (s.deliver t n).clearAll) := by
  unfold State.endOfMessage State.processCommand
  cases h : s.rx.cmdValid
  · exact .inl ⟨rfl, by simp⟩
  · right
    cases hr : resolveCommand s.cfg.presetDimEnable s.rx s.addr with
    | none => exact .inl ⟨rfl, rfl, by simp⟩
    | some t => exact .inr ⟨t, rfl, rfl, by simp⟩

/-- What the receive path leaves alone: everything but the accumulator, the pending address, the detector, the module store and
the notification output. -/
structure State.RxFrame (s t : State) : Prop where
  cfg : t.cfg = s.cfg
  enable : t.enable = s.enable
  overrun : t.overrun = s.overrun
  slots : t.slots = s.slots
  qHead : t.qHead = s.qHead
  qTail : t.qTail = s.qTail
  lastMs : t.lastMs = s.lastMs
  txCount : t.txCount = s.txCount
  txOut : t.txOut = s.txOut
  outLevel : t.outLevel = s.outLevel
  slot : t.slot = s.slot
  inLatch : t.inLatch = s.inLatch
  zeroCount : t.zeroCount = s.zeroCount
  timerArmed : t.timerArmed = s.timerArmed
  timerDelay : t.timerDelay = s.timerDelay
  rsp : t.rsp = s.rsp
  nowMs : t.nowMs = s.nowMs
  readIn : t.readIn = s.readIn
  port : t.port = s.port

theorem State.RxFrame.refl (s : State) : s.RxFrame s := by constructor <;> rfl

theorem State.RxFrame.of_rx (s : State) (r : RxAcc) : s.RxFrame { s with rx := r } := by constructor <;> rfl

theorem State.RxFrame.of_ones (s : State) (n : BitVec 3) : s.RxFrame { s with onesCount := n } := by constructor <;> rfl

theorem State.RxFrame.trans {s t u : State} (h : s.RxFrame t) (h' : t.RxFrame u) : s.RxFrame u := by
  constructor
  · rw [h'.cfg, h.cfg]
  · rw [h'.enable, h.enable]
  · rw [h'.overrun, h.overrun]
  · rw [h'.slots, h.slots]
  · rw [h'.qHead, h.qHead]
  · rw [h'.qTail, h.qTail]
  · rw [h'.lastMs, h.lastMs]
  · rw [h'.txCount, h.txCount]
  · rw [h'.txOut, h.txOut]
  · rw [h'.outLevel, h.outLevel]
  · rw [h'.slot, h.slot]
  · rw [h'.inLatch, h.inLatch]
  · rw [h'.zeroCount, h.zeroCount]
  · rw [h'.timerArmed, h.timerArmed]
  · rw [h'.timerDelay, h.timerDelay]
  · rw [h'.rsp, h.rsp]
  · rw [h'.nowMs, h.nowMs]
  · rw [h'.readIn, h.readIn]
  · rw [h'.port, h.port]

theorem State.deliver_frame (s : State) (t : Resolved) (n : BitVec 8) : s.RxFrame (s.deliver t n) := by
  rw [State.deliver_eq]
  split <;> constructor <;> simp

theorem State.endOfMessage_frame (s : State) (n : BitVec 8) : s.RxFrame (s.endOfMessage n) := by
  rcases State.endOfMessage_cases s n with ⟨-, h⟩ | ⟨-, -, h⟩ | ⟨t, -, -, h⟩ <;> rw [h]
  · constructor <;> rfl
  · constructor <;> rfl
  · exact (State.deliver_frame s t n).trans (by constructor <;> rfl)

theorem State.checkpoint_frame (s : State) (c : Nat) : s.RxFrame (s.checkpoint c) := by
  unfold State.checkpoint
  repeat' split
  all_goals constructor <;> rfl

/-- A receive step: the raw half, the end by mismatch, the end at the ceiling, or a bit accepted (44_frame_decoder R601). -/
theorem State.rxStep_cases (s : State) (b : Bool) :
    let c := s.rx.count.toNat + 1
    let s1 := { s with rx := { s.rx with count := BitVec.ofNat 8 c } }
    (c % 2 = 1 ∧ s.rxStep b = { s1 with rx := { s1.rx with raw := b } }) ∨
    (c % 2 = 0 ∧ b = s.rx.raw ∧
      s.rxStep b = { s1.endOfMessage (BitVec.ofNat 8 (c - 2)) with onesCount := if b then 2 else 0 }) ∨
    (c % 2 = 0 ∧ b ≠ s.rx.raw ∧ c = 62 ∧ s.rxStep b = (s1.acceptBit.checkpoint 62).endOfMessage 62) ∨
    (c % 2 = 0 ∧ b ≠ s.rx.raw ∧ c ≠ 62 ∧ s.rxStep b = s1.acceptBit.checkpoint c) := by
  intro c s1
  unfold State.rxStep
  by_cases hodd : c % 2 = 1
  · exact .inl ⟨hodd, by simp [c, s1] at hodd ⊢; simp [hodd]⟩
  · have heven : c % 2 = 0 := by omega
    right
    by_cases hb : b = s.rx.raw
    · left
      refine ⟨heven, hb, ?_⟩
      simp only [show (s.rx.count.toNat + 1) % 2 = 0 from heven, Nat.zero_ne_one, if_false, hb, if_true]
      rfl
    · right
      by_cases h62 : c = 62
      · left
        refine ⟨heven, hb, h62, ?_⟩
        have h62' : s.rx.count.toNat + 1 = 62 := h62
        simp [h62', hb, s1, c]
      · right
        refine ⟨heven, hb, h62, ?_⟩
        have h62' : s.rx.count.toNat + 1 ≠ 62 := h62
        have heven' : (s.rx.count.toNat + 1) % 2 = 0 := heven
        simp only [heven', Nat.zero_ne_one, if_false, hb, h62']
        rfl

theorem State.rxStep_frame (s : State) (b : Bool) : s.RxFrame (s.rxStep b) := by
  rcases State.rxStep_cases s b with ⟨-, h⟩ | ⟨-, -, h⟩ | ⟨-, -, -, h⟩ | ⟨-, -, -, h⟩ <;> rw [h]
  · exact State.RxFrame.of_rx s _
  · exact (State.RxFrame.of_rx s _).trans ((State.endOfMessage_frame _ _).trans (State.RxFrame.of_ones _ _))
  · exact (State.RxFrame.of_rx s _).trans ((State.checkpoint_frame _ 62).trans (State.endOfMessage_frame _ _))
  · exact (State.RxFrame.of_rx s _).trans (State.checkpoint_frame _ _)

/-- A detector step (42_bit_slot_timer R522). -/
theorem State.detect_cases (s : State) (b : Bool) :
    (b = true ∧ s.detect b = { s with onesCount := BitVec.ofNat 3 (min (s.onesCount.toNat + 1) 4) }) ∨
    (b = false ∧ s.onesCount = 3#3 ∧ s.detect b = { s with rx := { active := true, count := 4 }, onesCount := 0 }) ∨
    (b = false ∧ s.onesCount ≠ 3#3 ∧ s.detect b = { s with onesCount := 0 }) := by
  unfold State.detect
  cases b
  · by_cases h : s.onesCount = 3#3
    · exact .inr (.inl ⟨rfl, h, if_pos h⟩)
    · exact .inr (.inr ⟨rfl, h, if_neg h⟩)
  · exact .inl ⟨rfl, by simp⟩

theorem State.detect_frame (s : State) (b : Bool) : s.RxFrame (s.detect b) := by
  rcases State.detect_cases s b with ⟨-, h⟩ | ⟨-, -, h⟩ | ⟨-, -, h⟩ <;> rw [h] <;> constructor <;> rfl

/-! ## The finish step and the two events -/

/-- The state the receive path finds in a finish step: timer off, sub-state idle, silence counted (42_bit_slot_timer R513). -/
def State.closed (s : State) : State := { s.disarmTimer with slot := 0 }.updateSilence

theorem State.finish_eq (s : State) :
    s.finish = if s.rx.active then s.closed.rxStep s.inLatch else s.closed.detect s.inLatch := rfl

theorem State.finish_frame (s : State) : s.closed.RxFrame s.finish := by
  rw [State.finish_eq]
  split
  · exact State.rxStep_frame _ _
  · exact State.detect_frame _ _

/-- A ZC answers a next state, or the fault of a head frame whose tag names no shape (41_zero_cross R450). -/
theorem execZc_cases (s : State) :
    (s.enable = false ∧ execZc s = .next s) ∨
    (s.enable = true ∧ s.markOverrun.beginHalfCycle.txReady = false ∧ execZc s = .next s.markOverrun.beginHalfCycle) ∨
    (s.enable = true ∧ s.markOverrun.beginHalfCycle.txReady = true ∧ frameShape s.headSlot.frame = none ∧
      execZc s = .fault .reservedShapeTag) ∨
    (∃ sh, s.enable = true ∧ s.markOverrun.beginHalfCycle.txReady = true ∧ frameShape s.headSlot.frame = some sh ∧
      execZc s = .next ((s.markOverrun.beginHalfCycle.nextBitOf s.headSlot.frame sh).2.driveBit
        (s.markOverrun.beginHalfCycle.nextBitOf s.headSlot.frame sh).1)) := by
  have hhead : s.markOverrun.beginHalfCycle.headSlot = s.headSlot := by
    simp [State.headSlot, State.slotAt]
  unfold execZc
  cases he : s.enable
  · exact .inl ⟨rfl, by simp⟩
  · right
    cases hr : s.markOverrun.beginHalfCycle.txReady
    · exact .inl ⟨rfl, rfl, by simp [hr]⟩
    · right
      cases hs : frameShape s.headSlot.frame with
      | none => exact .inl ⟨rfl, rfl, rfl, by simp [hr, State.nextBit, hhead, hs]⟩
      | some sh => exact .inr ⟨sh, rfl, rfl, rfl, by simp [hr, State.nextBit, hhead, hs]⟩

/-- A TIMER is refused while disarmed, a fault at a sub-state out of range, and otherwise one of the four sub-state steps
(42_bit_slot_timer R500). -/
theorem execTimer_cases (s : State) :
    (s.timerArmed = false ∧ execTimer s = .refused .timerNotArmed) ∨
    (s.timerArmed = true ∧ (s.slot.toNat = 0 ∨ s.slot.toNat > 2 * s.cfg.phases) ∧ execTimer s = .fault .slotOutOfRange) ∨
    (s.timerArmed = true ∧ s.slot.toNat = 1 ∧ s.slot.toNat ≤ 2 * s.cfg.phases ∧
      execTimer s = .next { s with timerArmed := false }.sampleLine) ∨
    (s.timerArmed = true ∧ s.slot.toNat = 2 ∧ s.slot.toNat ≤ 2 * s.cfg.phases ∧
      execTimer s = .next { s with timerArmed := false }.endFirstPulse) ∨
    (s.timerArmed = true ∧ 3 ≤ s.slot.toNat ∧ s.slot.toNat % 2 = 1 ∧ s.slot.toNat ≤ 2 * s.cfg.phases ∧
      execTimer s = .next { s with timerArmed := false }.startPhasePulse) ∨
    (s.timerArmed = true ∧ 4 ≤ s.slot.toNat ∧ s.slot.toNat % 2 = 0 ∧ s.slot.toNat ≤ 2 * s.cfg.phases ∧
      execTimer s = .next { s with timerArmed := false }.endPhasePulse) := by
  unfold execTimer
  cases ha : s.timerArmed
  · exact .inl ⟨rfl, by simp⟩
  · right
    by_cases hr : s.slot.toNat = 0 ∨ s.slot.toNat > 2 * s.cfg.phases
    · exact .inl ⟨rfl, hr, by simp [hr]⟩
    · right
      by_cases h1 : s.slot.toNat = 1
      · exact .inl ⟨rfl, h1, by omega, by rw [if_neg Bool.noConfusion, if_neg hr, if_pos h1]⟩
      · right
        by_cases h2 : s.slot.toNat = 2
        · exact .inl ⟨rfl, h2, by omega, by rw [if_neg Bool.noConfusion, if_neg hr, if_neg h1, if_pos h2]⟩
        · right
          by_cases hp : s.slot.toNat % 2 = 1
          · exact .inl ⟨rfl, by omega, hp, by omega, by
              rw [if_neg Bool.noConfusion, if_neg hr, if_neg h1, if_neg h2, if_pos hp]⟩
          · exact .inr ⟨rfl, by omega, by omega, by omega, by
              rw [if_neg Bool.noConfusion, if_neg hr, if_neg h1, if_neg h2, if_neg hp]⟩

end Sys2Proof.Machine
end

