-- ==== Sys2Proof/Laws/HalfCycle.lean ====
section
/-! SUPPORT. Laws/HalfCycle.lean: what the two events do, in the terms of Safety.lean: the finish step of TIMER, the ZC event, and
a whole half-cycle. -/

namespace Sys2Proof.Machine

/-! ## The finish step (42_bit_slot_timer R513) -/

/-- A half-cycle finished: ended, and its sample given to the decoder or the detector. -/
def State.received (s : State) : State :=
  if s.rx.active then s.ended.rxStep s.inLatch else s.ended.detect s.inLatch

theorem silence_eq (a b : Bool) (z : BitVec 8) :
    (if a = false ∧ b = false then BitVec.ofNat 8 (min (z.toNat + 1) 255) else 0) =
      if a || b then 0 else if z = 255 then 255 else z + 1 := by
  cases a <;> cases b <;> simp
  have hz := z.isLt
  by_cases h : z = 255#8
  · subst h; rfl
  · have hne : z.toNat ≠ 255 := fun heq => h (BitVec.eq_of_toNat_eq heq)
    apply BitVec.eq_of_toNat_eq
    simp [h, BitVec.toNat_add]
    omega

theorem State.finish_setOut_eq (s : State) : ({ s with timerArmed := false }.setOut false).finish = s.received := by
  have h : ({ s with timerArmed := false }.setOut false).closed = s.ended := by
    simp only [State.closed, State.updateSilence, State.ended, ← silence_eq]
    rfl
  rw [State.finish_eq, h]
  rfl

/-- A TIMER that ends the last pulse window of a half-cycle finishes it. -/
theorem execTimer_atFinish {s : State} (h : s.atFinish) : exec .timer s = .next s.received := by
  obtain ⟨ha, hl, hf⟩ := h
  have hp : 1 ≤ s.cfg.phases := hl.2.2.2.2.2.1
  show execTimer s = _
  rw [← State.finish_setOut_eq]
  simp only [State.finishing, Bool.or_eq_true, Bool.and_eq_true, beq_iff_eq, Bool.not_eq_true', decide_eq_true_eq] at hf
  rcases execTimer_cases s with ⟨h, -⟩ | ⟨-, h, -⟩ | ⟨-, h, -, -⟩ | ⟨-, h, -, he⟩ | ⟨-, -, h, -, -⟩ | ⟨-, h4, -, -, he⟩
  · simp [ha] at h
  · rcases hf with ⟨h2, -⟩ | ⟨h4, heq⟩
    · have : s.slot.toNat = 2 := by rw [h2]; rfl
      omega
    · omega
  · rcases hf with ⟨h2, -⟩ | ⟨h4, heq⟩
    · rw [h2] at h; simp at h
    · omega
  · rw [he]
    rcases hf with ⟨-, hn⟩ | ⟨h4, -⟩
    · have hn' : ¬(s.txOut = true ∧ s.cfg.phases > 1) := by
        simp only [Bool.and_eq_false_iff, decide_eq_false_iff_not] at hn
        rintro ⟨ht, hp1⟩
        rcases hn with hn | hn
        · simp [ht] at hn
        · exact hn hp1
      simp only [State.endFirstPulse, State.setOut_txOut, State.setOut_cfg, hn', if_false]
    · omega
  · rcases hf with ⟨h2, -⟩ | ⟨h4, heq⟩
    · rw [h2] at h; simp at h
    · omega
  · rw [he]
    rcases hf with ⟨h2, -⟩ | ⟨-, heq⟩
    · rw [h2] at h4; simp at h4
    · simp only [State.endPhasePulse, State.setOut_slot, State.setOut_cfg, heq, if_true]

theorem State.received_frame (s : State) : s.ended.RxFrame s.received := by
  unfold State.received
  split
  · exact State.rxStep_frame _ _
  · exact State.detect_frame _ _

@[simp] theorem State.received_slot (s : State) : s.received.slot = 0 := (State.received_frame s).slot

/-! ## The ZC event (41_zero_cross R450 to R452) -/

theorem State.beginHalfCycle_eq {s : State} (h : s.cfg.Legal) : s.markOverrun.beginHalfCycle = s.begun := by
  have hd : s.cfg.tSample < 65536 := by have := h.2.2.2.2.2.2.2.2.1; omega
  have ho : s.outLevel = (s.outLevel && true) := by simp
  have hv : s.overrun = (s.overrun || false) := by simp
  by_cases h0 : s.slot = 0
  · simp only [State.markOverrun, State.beginHalfCycle, State.armTimer, State.begun, delayWord, h0, if_true, hd]
    simp
  · simp only [State.markOverrun, State.beginHalfCycle, State.armTimer, State.begun, State.setOut, delayWord, h0, if_false]
    have h0' : (s.slot != 0) = true := by simpa using h0
    have h0'' : (s.slot == 0) = false := by simpa using h0
    simp only [h0', h0'', hd, if_true, Bool.or_true, Bool.and_false]

/-- The transmit condition, from the fields. -/
theorem State.txReady_iff (s : State) : s.txReady = true ↔ s.mayTransmit := by
  simp only [State.txReady, State.qEmpty, State.headSlot, Bool.and_eq_true, Bool.or_eq_true, decide_eq_true_eq,
    Bool.not_eq_true', beq_eq_false_iff_ne, State.mayTransmit, gt_iff_lt, ge_iff_le]
  tauto

/-- ZC, in the terms of a half-cycle just begun. -/
theorem execZc_eq {s : State} (h : s.cfg.Legal) :
    exec .zc s =
      if s.enable = false then .next s
      else if s.begun.txReady then
        match s.begun.nextBit with
        | none => .fault .reservedShapeTag
        | some (b, t) => .next (t.driveBit b)
      else .next s.begun := by
  have hz : exec .zc s =
      if s.enable = false then .next s
      else if s.markOverrun.beginHalfCycle.txReady then
        match s.markOverrun.beginHalfCycle.nextBit with
        | none => .fault .reservedShapeTag
        | some (b, t) => .next (t.driveBit b)
      else .next s.markOverrun.beginHalfCycle := rfl
  rw [hz, State.beginHalfCycle_eq h]

/-- The end of a repetition changes the transmit count, the head entry and the silence count only. -/
theorem State.endOfRepetition_frame (s : State) (f : Frame) (sh : Shape) :
    ∃ a b c d, s.endOfRepetition f sh = { s with txCount := a, slots := b, qHead := c, zeroCount := d } := by
  have h : ∀ p q : Prop, ∀ [Decidable p] [Decidable q], ∀ u v w : State,
      (∃ a b c d, u = { s with txCount := a, slots := b, qHead := c, zeroCount := d }) →
      (∃ a b c d, v = { s with txCount := a, slots := b, qHead := c, zeroCount := d }) →
      (∃ a b c d, w = { s with txCount := a, slots := b, qHead := c, zeroCount := d }) →
      ∃ a b c d, (if p then u else if q then v else w) =
        { s with txCount := a, slots := b, qHead := c, zeroCount := d } := by
    intro p q _ _ u v w hu hv hw
    split
    · exact hu
    · split
      · exact hv
      · exact hw
  exact h _ _ _ _ _ ⟨_, _, _, _, rfl⟩ ⟨_, _, _, _, rfl⟩ ⟨_, _, _, _, rfl⟩

/-- The encoder changes no more. -/
theorem State.nextBitOf_frame (s : State) (f : Frame) (sh : Shape) :
    ∃ a b c d, (s.nextBitOf f sh).2 = { s with txCount := a, slots := b, qHead := c, zeroCount := d } := by
  by_cases hh : s.holdsPartTwo sh = true
  · exact ⟨s.txCount, s.slots, s.qHead, s.zeroCount, by simp only [State.nextBitOf, hh, if_true]⟩
  · by_cases he : s.txCount.toNat + 1 = endCount sh
    · obtain ⟨a, b, c, d, h⟩ := State.endOfRepetition_frame { s with txCount := BitVec.ofNat 8 (s.txCount.toNat + 1) } f sh
      refine ⟨a, b, c, d, ?_⟩
      simp only [State.nextBitOf, hh, he, if_false, if_true, Bool.false_eq_true] at h ⊢
      exact h
    · exact ⟨BitVec.ofNat 8 (s.txCount.toNat + 1), s.slots, s.qHead, s.zeroCount,
        by simp only [State.nextBitOf, hh, he, if_false, Bool.false_eq_true]⟩

theorem State.nextBitOf_line (s : State) (f : Frame) (sh : Shape) :
    (s.nextBitOf f sh).2.slot = s.slot ∧ (s.nextBitOf f sh).2.timerArmed = s.timerArmed ∧
      (s.nextBitOf f sh).2.cfg = s.cfg := by
  obtain ⟨a, b, c, d, h⟩ := State.nextBitOf_frame s f sh
  rw [h]
  exact ⟨rfl, rfl, rfl⟩

/-- A ZC that answers a next state while enabled leaves the half-cycle at its sample. -/
theorem execZc_next {s t : State} (he : s.enable = true) (h : exec .zc s = .next t) :
    t.slot = 1 ∧ t.timerArmed = true ∧ t.cfg = s.cfg := by
  rcases execZc_cases s with ⟨h', -⟩ | ⟨-, -, h'⟩ | ⟨-, -, -, h'⟩ | ⟨sh, -, -, -, h'⟩
  · simp [he] at h'
  · rw [show exec .zc s = execZc s from rfl, h'] at h
    cases h
    exact ⟨by simp, by simp, by simp⟩
  · rw [show exec .zc s = execZc s from rfl, h'] at h
    cases h
  · rw [show exec .zc s = execZc s from rfl, h'] at h
    cases h
    obtain ⟨h1, h2, h3⟩ := State.nextBitOf_line s.markOverrun.beginHalfCycle s.headSlot.frame sh
    exact ⟨by simp [h1], by simp [h2], by simp [h3]⟩

/-! ## A whole half-cycle (30_encoding R344) -/

theorem drainTimer_idle {s : State} (h : s.slot = 0) (m : Nat) : drainTimer m s = .next s := by
  cases m <;> simp [drainTimer, h]

/-- From a pulse window on, TIMER events run the half-cycle to its finish. -/
theorem drainTimer_eq (m : Nat) (s : State) (ha : s.timerArmed = true) (hl : s.cfg.Legal) (h2 : 2 ≤ s.slot.toNat)
    (hmax : s.slot.toNat ≤ 2 * s.cfg.phases) (ht : 3 ≤ s.slot.toNat → s.txOut = true)
    (hm : 2 * s.cfg.phases < m + s.slot.toNat) :
    ∃ d, drainTimer m s = .next { s with timerDelay := d }.received := by
  induction m generalizing s with
  | zero => omega
  | succ m ih =>
    have h0 : s.slot ≠ 0 := by intro h; rw [h] at h2; simp at h2
    have hphases := hl.2.2.2.2.2.2.1
    simp only [drainTimer, h0, if_false]
    by_cases hf : s.finishing = true
    · rw [execTimer_atFinish ⟨ha, hl, hf⟩]
      exact ⟨s.timerDelay, drainTimer_idle (by simp) m⟩
    · simp only [State.finishing, Bool.or_eq_true, Bool.and_eq_true, beq_iff_eq, Bool.not_eq_true', decide_eq_true_eq,
        not_or, not_and, Bool.not_eq_false] at hf
      obtain ⟨hf2, hf4⟩ := hf
      rw [show exec .timer s = execTimer s from rfl]
      rcases execTimer_cases s with ⟨h, -⟩ | ⟨-, h, -⟩ | ⟨-, h, -, -⟩ | ⟨-, h, -, he⟩ | ⟨-, h3, ho, -, he⟩ | ⟨-, h4, hev, -, he⟩
      · simp [ha] at h
      · omega
      · omega
      · have hs : s.slot = 2 := BitVec.eq_of_toNat_eq h
        obtain ⟨htx, hp⟩ := hf2 hs
        have hstep : { s with timerArmed := false }.endFirstPulse =
            { ({ s with timerArmed := false }.setOut false).armTimer (s.cfg.tPhase - s.cfg.tPulse) with slot := 3 } :=
          if_pos ⟨htx, hp⟩
        rw [he, hstep]
        refine (ih { ({ s with timerArmed := false }.setOut false).armTimer (s.cfg.tPhase - s.cfg.tPulse) with slot := 3 } rfl hl
          (by simp) (by simp; omega) (fun _ => htx) (by simp; omega)).imp fun d hd => ?_
        exact hd
      · have hlt : s.slot.toNat + 1 ≤ 2 * s.cfg.phases := by omega
        have hadd : (s.slot + 1).toNat = s.slot.toNat + 1 := by rw [BitVec.toNat_add]; simp; omega
        rw [he]
        refine (ih { s with timerArmed := false }.startPhasePulse rfl hl ?_ ?_ (fun _ => ht h3) ?_).imp fun d hd => ?_
        · show 2 ≤ (s.slot + 1).toNat; omega
        · show (s.slot + 1).toNat ≤ 2 * s.cfg.phases; omega
        · show 2 * s.cfg.phases < m + (s.slot + 1).toNat; omega
        · exact hd
      · have hne : s.slot.toNat ≠ 2 * s.cfg.phases := hf4 h4
        have hadd : (s.slot + 1).toNat = s.slot.toNat + 1 := by rw [BitVec.toNat_add]; simp; omega
        have hstep : { s with timerArmed := false }.endPhasePulse =
            { ({ s with timerArmed := false }.setOut false).armTimer (s.cfg.tPhase - s.cfg.tPulse) with slot := s.slot + 1 } :=
          if_neg hne
        rw [he, hstep]
        refine (ih
          { ({ s with timerArmed := false }.setOut false).armTimer (s.cfg.tPhase - s.cfg.tPulse) with slot := s.slot + 1 } rfl hl
          ?_ ?_ (fun _ => ht (by omega)) ?_).imp fun d hd => ?_
        · show 2 ≤ (s.slot + 1).toNat; omega
        · show (s.slot + 1).toNat ≤ 2 * s.cfg.phases; omega
        · show 2 * s.cfg.phases < m + (s.slot + 1).toNat; omega
        · exact hd

/-- A half-cycle whose ZC answers `z` samples the line and finishes from there. -/
theorem halfCycle_eq {s z : State} {b : Bool} (he : s.enable = true) (hl : s.cfg.Legal) (hz : exec .zc s = .next z) :
    ∃ d, halfCycle b s = .next { z with inLatch := b, readIn := b, timerDelay := d }.received := by
  obtain ⟨h1, ha, hc⟩ := execZc_next he hz
  have hp := hl.2.2.2.2.2.1
  have hp7 := hl.2.2.2.2.2.2.1
  have hs : exec .timer { z with readIn := b } = .next { { z with readIn := b } with timerArmed := false }.sampleLine := by
    show execTimer _ = _
    unfold execTimer
    simp [ha, h1, hc]
    omega
  simp only [halfCycle, hz, andThen, hs]
  obtain ⟨d, hd⟩ := drainTimer_eq 14 ({ { z with readIn := b } with timerArmed := false }.sampleLine) rfl (hc ▸ hl)
    (by simp) (by simp [hc]; omega) (by simp) (by simp [hc]; omega)
  exact ⟨d, hd⟩

/-- A half-cycle with nothing to send only listens. -/
theorem halfCycle_listen {s : State} {b : Bool} (he : s.enable = true) (hl : s.cfg.Legal) (ht : ¬s.mayTransmit) :
    ∃ d, halfCycle b s = .next { s.begun with inLatch := b, readIn := b, timerDelay := d }.received := by
  refine halfCycle_eq he hl ?_
  have hr : s.begun.txReady = false := by
    rw [Bool.eq_false_iff]
    exact fun h => ht ((State.txReady_iff s.begun).mp h)
  rw [execZc_eq hl]
  simp [he, hr]

end Sys2Proof.Machine
end

