-- ==== Sys2Proof/Laws/PerInstr.lean ====
section
/-! SUPPORT. Laws/PerInstr.lean: the family OpcodeRow, a statement about each instruction as syntax: its word carries the fixed
bits of its row of spec/opcode_table.json. -/

namespace Sys2Proof.Laws.OpcodeRow

/-- OP of a command's row; `none` for an event (30_encoding R338). -/
def opcode : Instr → Option (BitVec 8)
  | .start => some 0x01
  | .getStatus => some 0x02
  | .enqAddress _ _ _ _ => some 0x10
  | .enqCommand _ _ _ _ _ => some 0x11
  | .enqDimPercent _ _ _ _ _ => some 0x12
  | .enqExtDimPercent _ _ _ _ _ _ => some 0x13
  | .enqRawExt _ _ _ _ _ _ _ => some 0x14
  | .getState _ _ => some 0x20
  | .wipeState _ _ => some 0x21
  | .pctToBright _ => some 0x30
  | .brightToPct _ => some 0x31
  | .zc => none
  | .timer => none

/-- The word agrees with the row's match value under its mask: OP in bits 63:56 and 0 in bits 54:48 of a command, the two bits of
an event (30_encoding R338, R339). -/
def Statement (i : Instr) : Prop :=
  match encode i with
  | .command w => opcode i = some (fieldOp w) ∧ fieldRsvd w = 0
  | .event c => opcode i = none ∧ c = (if i = .zc then 1 else 2)

theorem start : Statement .start := by simp [Statement, encode, opcode]

theorem getStatus : Statement .getStatus := by simp [Statement, encode, opcode]

theorem enqAddress (ctx : Bool) (reps : BitVec 8) (house unit : BitVec 5) :
    Statement (.enqAddress ctx reps house unit) := by simp [Statement, encode, opcode]

theorem enqCommand (ctx : Bool) (reps : BitVec 8) (house unit : BitVec 5) (cmd : BitVec 4) :
    Statement (.enqCommand ctx reps house unit cmd) := by simp [Statement, encode, opcode]

theorem enqDimPercent (ctx : Bool) (reps : BitVec 8) (house unit : BitVec 5) (val : BitVec 8) :
    Statement (.enqDimPercent ctx reps house unit val) := by simp [Statement, encode, opcode]

theorem enqExtDimPercent (ctx : Bool) (reps : BitVec 8) (house unit : BitVec 5) (time : BitVec 2) (val : BitVec 8) :
    Statement (.enqExtDimPercent ctx reps house unit time val) := by simp [Statement, encode, opcode]

theorem enqRawExt (ctx : Bool) (reps : BitVec 8) (house unit : BitVec 5) (cmd : BitVec 4) (xdata xcmd : BitVec 8) :
    Statement (.enqRawExt ctx reps house unit cmd xdata xcmd) := by simp [Statement, encode, opcode]

theorem getState (house unit : BitVec 5) : Statement (.getState house unit) := by simp [Statement, encode, opcode]

theorem wipeState (house unit : BitVec 5) : Statement (.wipeState house unit) := by simp [Statement, encode, opcode]

theorem pctToBright (val : BitVec 8) : Statement (.pctToBright val) := by simp [Statement, encode, opcode]

theorem brightToPct (val : BitVec 8) : Statement (.brightToPct val) := by simp [Statement, encode, opcode]

theorem zc : Statement .zc := by simp [Statement, encode, opcode]

theorem timer : Statement .timer := by simp [Statement, encode, opcode]

end Sys2Proof.Laws.OpcodeRow
end

