-- ==== Sys2Proof/Laws/Words.lean ====
section
/-! SUPPORT. Laws/Words.lean: the words the core assembles, as numbers: response words, result words, module bytes and frames, and
the bits they read back. -/

namespace Sys2Proof.Machine

/-- Concatenation as arithmetic. -/
theorem toNat_append_add {n m : Nat} (x : BitVec n) (y : BitVec m) : (x ++ y).toNat = x.toNat * 2 ^ m + y.toNat := by
  rw [BitVec.toNat_append, ← Nat.shiftLeft_add_eq_or_of_lt y.isLt, Nat.shiftLeft_eq]

theorem respWord_toNat (st : Status) (r : BitVec 24) :
    BitVec.toNat (statusCode st ++ r : Response) = (statusCode st).toNat * 2 ^ 24 + r.toNat :=
  toNat_append_add _ _

/-- A response word is the number its STATUS and RESULT spell (30_encoding R336). -/
theorem respWord_eq (st : Status) (r : BitVec 24) :
    (statusCode st ++ r : Response) = BitVec.ofNat 32 ((statusCode st).toNat * 2 ^ 24 + r.toNat) := by
  apply BitVec.eq_of_toNat_eq
  have h := respWord_toNat st r
  have hlt := BitVec.isLt (statusCode st ++ r : Response)
  rw [h] at hlt ⊢
  rw [BitVec.toNat_ofNat, Nat.mod_eq_of_lt hlt]

theorem enqResult_toNat (q : Nat) (a : BitVec 2) : (enqResult q a).toNat = q % 256 * 256 + a.toNat := by
  refine (toNat_append_add _ _).trans ?_
  simp only [toNat_append_add, BitVec.toNat_ofNat]
  omega

theorem stateResult_toNat (v : Byte) :
    (stateResult v).toNat =
      b2pNat (min (byteBr v).toNat 62) % 128 * 65536 + (isOn v).toNat * 1024 + (isKnown v).toNat * 512 +
        (isSeen v).toNat * 256 + v.toNat := by
  refine (toNat_append_add _ _).trans ?_
  simp only [toNat_append_add, BitVec.toNat_ofNat, BitVec.toNat_ofBool]
  omega

theorem statusResult_toNat (s : State) :
    s.statusResult.toNat =
      s.zeroCount.toNat * 65536 + s.qLen % 256 * 256 + s.rx.active.toNat * 8 + (s.txCount != 0).toNat * 4 +
        s.overrun.toNat * 2 + s.enable.toNat := by
  refine (toNat_append_add _ _).trans ?_
  simp only [toNat_append_add, BitVec.toNat_ofNat, BitVec.toNat_ofBool]
  omega

/-! ## Module bytes (45_module_state R650, R651) -/

theorem byteSt_toNat (v : Byte) : (byteSt v).toNat = v.toNat / 64 := by
  have := v.isLt
  simp only [byteSt, BitVec.extractLsb'_toNat, Nat.shiftRight_eq_div_pow]
  omega

theorem byteBr_toNat (v : Byte) : (byteBr v).toNat = v.toNat % 64 := by
  simp only [byteBr, BitVec.extractLsb'_toNat, Nat.shiftRight_eq_div_pow]
  omega

theorem mkByte_toNat (st : BitVec 2) (br : BitVec 6) : (mkByte st br).toNat = st.toNat * 64 + br.toNat :=
  toNat_append_add _ _

theorem isSeen_eq (v : Byte) : isSeen v = decide (v.toNat / 64 ≠ 0) := by
  revert v; decide

theorem isKnown_eq (v : Byte) : isKnown v = decide (2 ≤ v.toNat / 64) := by
  revert v; decide

theorem isOn_eq (v : Byte) : isOn v = decide (v.toNat / 64 = 3) := by
  revert v; decide

/-! ## Code tables (30_encoding R300 to R302) -/

theorem houseIndex_houseCode (h : BitVec 4) : houseIndex (houseCode h) = h := by revert h; decide

theorem houseCode_houseIndex (c : Nibble) : houseCode (houseIndex c) = c := by revert c; decide

theorem unitOf_unitCode (u : BitVec 5) (h1 : 1 ≤ u.toNat) (h16 : u.toNat ≤ 16) : unitOf (unitCode u) = u := by
  revert u; decide

theorem unitCode_unitOf (c : Nibble) : unitCode (unitOf c) = c := by revert c; decide

/-- A code always names a unit 1..16: resolution never fails (44_frame_decoder R619). -/
theorem unitOf_range (c : Nibble) : 1 ≤ (unitOf c).toNat ∧ (unitOf c).toNat ≤ 16 := by revert c; decide

/-! ## Frames (30_encoding R312 to R315) -/

theorem standardFrame_toNat (h : BitVec 4) (u : BitVec 5) (c hp : Nibble) :
    (standardFrame h u c hp).toNat =
      (houseCode h).toNat * 2 ^ 28 + (unitCode u).toNat * 2 ^ 24 + hp.toNat * 2 ^ 19 + c.toNat * 2 ^ 15 + 2 ^ 14 + 1 := by
  refine (toNat_append_add _ _).trans ?_
  simp only [toNat_append_add, BitVec.toNat_ofNat]
  omega

theorem commandOnlyFrame_toNat (hf c : Nibble) :
    (commandOnlyFrame hf c).toNat = hf.toNat * 2 ^ 28 + c.toNat * 2 ^ 24 + 2 ^ 23 + 2 := by
  refine (toNat_append_add _ _).trans ?_
  simp only [toNat_append_add, BitVec.toNat_ofNat]
  omega

theorem extendedFrame_toNat (h : BitVec 4) (u : BitVec 5) (c : Nibble) (xd xc : Byte) :
    (extendedFrame h u c xd xc).toNat =
      (houseCode h).toNat * 2 ^ 28 + c.toNat * 2 ^ 24 + 2 ^ 23 + (unitCode u).toNat * 2 ^ 19 + xd.toNat * 2 ^ 11 +
        xc.toNat * 2 ^ 3 + 3 := by
  refine (toNat_append_add _ _).trans ?_
  simp only [toNat_append_add, BitVec.toNat_ofNat]
  omega

theorem addressFrame_toNat (h : BitVec 4) (u : BitVec 5) :
    (addressFrame h u).toNat = (houseCode h).toNat * 2 ^ 28 + (unitCode u).toNat * 2 ^ 24 + 4 := by
  refine (toNat_append_add _ _).trans ?_
  simp only [toNat_append_add, BitVec.toNat_ofNat]
  omega

/-- A field of a word, as arithmetic. -/
theorem extract_eq_iff {w : Nat} (f : BitVec w) (lo len : Nat) (x : BitVec len) :
    f.extractLsb' lo len = x ↔ f.toNat / 2 ^ lo % 2 ^ len = x.toNat := by
  rw [← BitVec.toNat_inj, BitVec.extractLsb'_toNat, Nat.shiftRight_eq_div_pow]

/-- A bit of a word, as arithmetic. -/
theorem getLsbD_eq_div {w : Nat} (f : BitVec w) (i : Nat) : f.getLsbD i = decide (f.toNat / 2 ^ i % 2 = 1) := by
  rw [BitVec.getLsbD, Nat.testBit_eq_decide_div_mod_eq]

theorem standardFrame_layout (h : BitVec 4) (u : BitVec 5) (c hp : Nibble) :
    StandardLayout (standardFrame h u c hp) (houseCode h) (unitCode u) c hp := by
  have := standardFrame_toNat h u c hp
  have := hp.isLt
  have := c.isLt
  have := (houseCode h).isLt
  have := (unitCode u).isLt
  simp only [StandardLayout, extract_eq_iff, getLsbD_eq_div, decide_eq_true_eq, decide_eq_false_iff_not, BitVec.ofNat_eq_ofNat, BitVec.toNat_ofNat, Nat.pow_zero, Nat.div_one]
  omega

theorem commandOnlyFrame_layout (hf c : Nibble) : CommandOnlyLayout (commandOnlyFrame hf c) hf c := by
  have := commandOnlyFrame_toNat hf c
  have := hf.isLt
  have := c.isLt
  simp only [CommandOnlyLayout, extract_eq_iff, getLsbD_eq_div, decide_eq_true_eq, BitVec.ofNat_eq_ofNat, BitVec.toNat_ofNat, Nat.pow_zero, Nat.div_one]
  omega

theorem extendedFrame_layout (h : BitVec 4) (u : BitVec 5) (c : Nibble) (xd xc : Byte) :
    ExtendedLayout (extendedFrame h u c xd xc) (houseCode h) c (unitCode u) xd xc := by
  have := extendedFrame_toNat h u c xd xc
  have := c.isLt
  have := xd.isLt
  have := xc.isLt
  have := (houseCode h).isLt
  have := (unitCode u).isLt
  simp only [ExtendedLayout, extract_eq_iff, getLsbD_eq_div, decide_eq_true_eq, BitVec.ofNat_eq_ofNat, BitVec.toNat_ofNat, Nat.pow_zero, Nat.div_one]
  omega

theorem addressFrame_layout (h : BitVec 4) (u : BitVec 5) :
    AddressLayout (addressFrame h u) (houseCode h) (unitCode u) := by
  have := addressFrame_toNat h u
  have := (houseCode h).isLt
  have := (unitCode u).isLt
  simp only [AddressLayout, extract_eq_iff, getLsbD_eq_div, decide_eq_false_iff_not, BitVec.ofNat_eq_ofNat, BitVec.toNat_ofNat, Nat.pow_zero, Nat.div_one]
  omega

end Sys2Proof.Machine
end

