-- ==== Sys2Proof/Tests/Slice0.lean ====
section
/-! SUPPORT. Tests/Slice0.lean: the well-formedness smoke test, decoding of words written out from 30_encoding, one-step tests
against the spec's examples and vectors (95_test_vectors), and one witness per statement that has hypotheses. -/

namespace Sys2Proof.Tests

open Sys2Proof Sys2Proof.Machine

/-! ## Well-formedness: every check refuses a term -/

/-- 40_send_buffer R410: HOUSE 16, UNIT 17, REPS 0; R420: UNIT 0. -/
theorem test_wf_address :
    (Instr.enqAddress false 1 15 16).wellFormed = true ∧ (Instr.enqAddress false 1 16 1).wellFormed = false ∧
    (Instr.enqAddress false 1 0 17).wellFormed = false ∧ (Instr.enqAddress false 0 0 1).wellFormed = false ∧
    (Instr.enqAddress false 1 0 0).wellFormed = false := by decide

/-- 40_send_buffer R425: an extended command code without a unit. -/
theorem test_wf_command :
    (Instr.enqCommand false 255 15 0 0b1111).wellFormed = true ∧ (Instr.enqCommand false 1 31 1 2).wellFormed = false ∧
    (Instr.enqCommand false 1 0 17 2).wellFormed = false ∧ (Instr.enqCommand false 0 0 1 2).wellFormed = false ∧
    (Instr.enqCommand false 1 0 0 0b0111).wellFormed = false ∧
    (Instr.enqCommand false 1 0 0 0b1100).wellFormed = false := by decide

/-- 40_send_buffer R430, R435: a percentage above 100; R435: UNIT 0. -/
theorem test_wf_dim :
    (Instr.enqDimPercent false 1 0 0 100).wellFormed = true ∧ (Instr.enqDimPercent false 1 0 1 101).wellFormed = false ∧
    (Instr.enqExtDimPercent false 1 0 1 3 100).wellFormed = true ∧
    (Instr.enqExtDimPercent false 1 0 0 0 50).wellFormed = false ∧
    (Instr.enqExtDimPercent false 1 0 1 0 101).wellFormed = false := by decide

/-- 40_send_buffer R440. -/
theorem test_wf_raw :
    (Instr.enqRawExt false 1 0 1 0b0111 0xFF 0xFF).wellFormed = true ∧
    (Instr.enqRawExt false 1 0 0 0b1100 0 0).wellFormed = false := by decide

/-- 45_module_state R670 to R690: UNIT 0, HOUSE 20 is no wildcard, 101 percent, brightness 63. -/
theorem test_wf_state :
    (Instr.getState 15 16).wellFormed = true ∧ (Instr.getState 0 0).wellFormed = false ∧
    (Instr.getState 31 1).wellFormed = false ∧ (Instr.wipeState 31 0).wellFormed = true ∧
    (Instr.wipeState 20 0).wellFormed = false ∧ (Instr.wipeState 0 17).wellFormed = false ∧
    (Instr.pctToBright 101).wellFormed = false ∧ (Instr.brightToPct 63).wellFormed = false := by decide

/-! ## Decoding: one word per constructor, written field by field from 30_encoding R330, R338 and R339:
`OP CTX RSVD REPS HOUSE UNIT CMD TIME XDATA XCMD VAL` -/

theorem test_decode_start :
    decode (.command 0b00000001_0_0000000_00000000_00000_00000_0000_00_00000000_00000000_00000000#64) = .instr .start := by
  decide

theorem test_decode_get_status :
    decode (.command 0b00000010_0_0000000_00000000_00000_00000_0000_00_00000000_00000000_00000000#64) =
      .instr .getStatus := by decide

theorem test_decode_enq_address :
    decode (.command 0b00010000_1_0000000_00000101_01111_10000_0000_00_00000000_00000000_00000000#64) =
      .instr (.enqAddress true 5 15 16) := by decide

theorem test_decode_enq_command :
    decode (.command 0b00010001_0_0000000_00000010_00000_00001_0010_00_00000000_00000000_00000000#64) =
      .instr (.enqCommand false 2 0 1 0b0010) := by decide

theorem test_decode_enq_dim_percent :
    decode (.command 0b00010010_0_0000000_00000001_00000_00001_0000_00_00000000_00000000_00110010#64) =
      .instr (.enqDimPercent false 1 0 1 50) := by decide

theorem test_decode_enq_ext_dim_percent :
    decode (.command 0b00010011_1_0000000_00000001_00001_00101_0000_10_00000000_00000000_00110010#64) =
      .instr (.enqExtDimPercent true 1 1 5 2 50) := by decide

theorem test_decode_enq_raw_ext :
    decode (.command 0b00010100_0_0000000_00000001_00001_00101_0111_00_00011111_00110001_00000000#64) =
      .instr (.enqRawExt false 1 1 5 0b0111 0x1F 0x31) := by decide

theorem test_decode_get_state :
    decode (.command 0b00100000_0_0000000_00000000_00000_00001_0000_00_00000000_00000000_00000000#64) =
      .instr (.getState 0 1) := by decide

theorem test_decode_wipe_state :
    decode (.command 0b00100001_0_0000000_00000000_11111_00000_0000_00_00000000_00000000_00000000#64) =
      .instr (.wipeState 31 0) := by decide

theorem test_decode_pct_to_bright :
    decode (.command 0b00110000_0_0000000_00000000_00000_00000_0000_00_00000000_00000000_01100100#64) =
      .instr (.pctToBright 100) := by decide

theorem test_decode_bright_to_pct :
    decode (.command 0b00110001_0_0000000_00000000_00000_00000_0000_00_00000000_00000000_00111110#64) =
      .instr (.brightToPct 62) := by decide

/-- 30_encoding R339. -/
theorem test_decode_events :
    decode (.event 0b01) = .instr .zc ∧ decode (.event 0b10) = .instr .timer ∧ decode (.event 0b00) = .reject .noEvent ∧
    decode (.event 0b11) = .reject .reservedEvent := by decide

/-- 30_encoding R334, R343: bit 48 set, and the held opcode 0x22. -/
theorem test_decode_rejects :
    decode (.command 0x0101000000000000) = .reject .reservedBits ∧
    decode (.command 0x2200000000000000) = .reject .reservedOpcode := by decide

/-- The table's rows through `decodeTableWord`: a 64-bit command row and the two event rows. -/
theorem test_decode_table_words :
    decodeTableWord 64 0x1100020048000000 = some (.enqCommand false 2 0 1 0b0010) ∧ decodeTableWord 8 1 = some .zc ∧
    decodeTableWord 8 2 = some .timer := by decide

/-! ## States the tests start from -/

/-- X = A1 ON (95_test_vectors V1). -/
def frameX : Frame := 0x66314001

/-- Enabled, otherwise as after reset. -/
def idle : State := { State.reset with enable := true }

/-- A ring of `n` slots with the listed entries from slot 0 on, `h` to `t` queued. -/
def ring (n : Nat) (entries : List QSlot) (h t : Nat) : State :=
  { idle with
    cfg := { Config.default with n := n }
    slots := entries ++ List.replicate (n - entries.length) ⟨0, 0⟩
    qHead := h
    qTail := t }

/-- A1 ON queued once, the line silent for six half-cycles. -/
def ready : State := { ring 4 [⟨frameX, 1⟩] 0 1 with zeroCount := 6 }

/-- X queued, sent and retired at t = 0 (V2.8). -/
def retired (now : BitVec 32) : State := { ring 8 [⟨frameX, 0⟩] 1 1 with nowMs := now }

/-- A half-cycle about to finish with the line sampled at `b`. -/
def atSlot2 (b : Bool) : State := { idle with slot := 2, timerArmed := true, inLatch := b }

/-- The same, inside a message. -/
def receiving (b : Bool) (r : RxAcc) : State := { atSlot2 b with rx := r }

/-- The next state of an outcome, the reset state where there is none. -/
def nextOr (o : Host.Outcome State Fault Refusal) : State :=
  match o with
  | .next t => t
  | .fault _ => State.reset
  | .refused _ => State.reset

/-! ## One step of each instruction, against the spec's examples -/

/-- 46_control R700: `START` after reset responds 0 and sets ENABLE. -/
theorem test_start : (nextOr (exec .start State.reset)).enable = true ∧ (nextOr (exec .start State.reset)).rsp = some 0 := by
  decide

/-- 46_control R705: 0 after reset, 1 after START; P1's end status 0x00070001 has zero_count 7. -/
theorem test_get_status :
    (nextOr (exec .getStatus State.reset)).rsp = some 0x00000000 ∧ (nextOr (exec .getStatus idle)).rsp = some 0x00000001 ∧
    (nextOr (exec .getStatus { idle with zeroCount := 7 })).rsp = some 0x00070001 := by decide

/-- 40_send_buffer R420. -/
theorem test_enq_address :
    let t := nextOr (exec (.enqAddress false 1 0 1) idle)
    t.rsp = some 0x00000100 ∧ t.slotAt 0 = ⟨0x66000004, 1⟩ ∧ t.qTail = 1 := by decide

/-- 40_send_buffer R425; 95_test_vectors V2.1. -/
theorem test_enq_command :
    let t := nextOr (exec (.enqCommand false 2 0 1 0b0010) { ring 4 [] 0 0 with nowMs := 1000 })
    t.rsp = some 0x00000100 ∧ t.slotAt 0 = ⟨frameX, 2⟩ ∧ t.lastMs = 1000 := by decide

/-- 40_send_buffer R402, R408: V2.2 (overwritten), V2.5 (full). -/
theorem test_enq_command_full :
    (nextOr (exec (.enqCommand false 5 0 1 0b0010) ready)).rsp = some 0x00000101 ∧
    (nextOr (exec (.enqCommand false 1 2 3 0b0010) (ring 2 [⟨frameX, 1⟩] 0 1))).rsp = some 0x01000000 := by decide

/-- 40_send_buffer R430. -/
theorem test_enq_dim_percent :
    let t := nextOr (exec (.enqDimPercent false 1 0 1 50) idle)
    t.slotAt 0 = ⟨0x6635C001, 1⟩ ∧ t.rsp = some 0x00000100 := by decide

/-- 40_send_buffer R435; V1: time 2 makes the data byte 0x9F. -/
theorem test_enq_ext_dim_percent :
    (nextOr (exec (.enqExtDimPercent false 1 1 5 0 50) idle)).slotAt 0 = ⟨0xE788F98B, 1⟩ ∧
    (nextOr (exec (.enqExtDimPercent false 1 1 5 2 50) idle)).slotAt 0 = ⟨0xE78CF98B, 1⟩ := by decide

/-- 40_send_buffer R440. -/
theorem test_enq_raw_ext :
    (nextOr (exec (.enqRawExt false 1 1 5 0b0111 0x1F 0x31) idle)).slotAt 0 = ⟨0xE788F98B, 1⟩ ∧
    (nextOr (exec (.enqRawExt false 1 0 1 0b0010 0x55 0xAA) idle)).slotAt 0 = ⟨frameX, 1⟩ := by decide

/-- 45_module_state R670: byte 0xFE of A1 (P1). -/
theorem test_get_state :
    (nextOr (exec (.getState 0 1) { idle with mem := [(0, 0xFE)] })).rsp = some 0x006407FE ∧
    (nextOr (exec (.getState 0 0) idle)).rsp = some 0x02000000 := by decide

/-- 45_module_state R675: house C goes, B5 stays (P4). -/
theorem test_wipe_state :
    let t := nextOr (exec (.wipeState 2 0) { idle with mem := [(20, 0xDF), (47, 0x80)] })
    t.mem = [(20, 0xDF)] ∧ t.rsp = some 0 := by decide

/-- 45_module_state R685: `val=50` gives 31, p2b(99) = 61. -/
theorem test_pct_to_bright :
    (nextOr (exec (.pctToBright 50) idle)).rsp = some 0x0000001F ∧ (nextOr (exec (.pctToBright 99) idle)).rsp = some 61 := by
  decide

/-- 45_module_state R690: `val=53` gives 85, b2p(9) = 15. -/
theorem test_bright_to_pct :
    (nextOr (exec (.brightToPct 53) idle)).rsp = some 0x00000055 ∧ (nextOr (exec (.brightToPct 9) idle)).rsp = some 15 := by
  decide

/-- 41_zero_cross R450's example. -/
theorem test_zc_sends_first_bit :
    let t := nextOr (exec .zc ready)
    t.txCount = 1 ∧ t.txOut = true ∧ t.outLevel = true ∧ t.slot = 1 ∧ t.timerArmed = true ∧ t.timerDelay = 500 := by decide

/-- 95_test_vectors V3, last row. -/
theorem test_zc_overrun :
    let t := nextOr (exec .zc { idle with slot := 2, timerArmed := true, outLevel := true, inLatch := true })
    t.overrun = true ∧ t.outLevel = false ∧ t.slot = 1 ∧ t.inLatch = false ∧ t.zeroCount = 0 := by decide

/-- 42_bit_slot_timer R500's example. -/
theorem test_timer_samples :
    let t := nextOr (exec .timer { idle with slot := 1, timerArmed := true, readIn := true })
    t.inLatch = true ∧ t.slot = 2 ∧ t.timerDelay = 500 := by decide

/-- 44_frame_decoder R610, R614; 45_module_state R656: a silent pair after a command block ends A1 ON (W4). -/
theorem test_timer_ends_message :
    let t := nextOr (exec .timer { receiving false { active := true, count := 23, house := 6, cmd := 2, cmdValid := true } with
      addr := ⟨true, 6, 6⟩ })
    t.nlog = [⟨0, 1, 2, 0, 0, 22⟩] ∧ t.mem = [(0, 0xFE)] ∧ t.rx = {} ∧ t.addr = {} := by decide

/-! ## Frames, wire and memory -/

/-- 95_test_vectors V5: A DIM and the B5 extended message. -/
theorem test_wire_sequences :
    (wireSequence 0x64800002 .commandOnly).map Bool.toNat =
      [1, 1, 1, 0, 0, 1, 1, 0, 1, 0, 0, 1, 0, 1, 1, 0, 0, 1, 0, 1, 1, 0] ∧
    (wireSequence 0xE788F98B .extended).map Bool.toNat =
      [1, 1, 1, 0, 1, 0, 1, 0, 1, 0, 0, 1, 0, 1, 1, 0, 1, 0, 1, 0, 1, 0, 0, 1, 0, 1, 0, 1, 1, 0, 0, 1] ++
        [0, 1, 0, 1, 1, 0, 1, 0, 1, 0, 1, 0, 1, 0, 0, 1, 0, 1, 1, 0, 1, 0, 0, 1, 0, 1, 0, 1, 1, 0] := by decide

/-- 95_test_vectors V1: P16 STATUS_REQUEST, M ALL_UNITS_OFF, A1 EXTENDED_DATA. -/
theorem test_frames :
    standardFrame 15 16 0b1111 (houseCode 15) = 0xCC67C001 ∧ commandOnlyFrame (houseCode 12) 0 = 0x00800002 ∧
    extendedFrame 0 1 0b1100 0 0 = 0x6CB00003 := by decide

/-- 45_module_state R653; 20_memory R204: canonical at reset and after a PERSISTENT launch that holds an erased cell. -/
theorem test_reset_memory_wf :
    State.reset.mem.wf = true ∧ Memory.ofRaw 0 [0x00, 0xFF, 0xFE] = [(0, 1), (2, 0xFF)] := by decide

/-- The harness word runs as the very next step, TIMER included (log entry 5). -/
theorem test_with_fetch_word :
    (nextOr (step (State.reset.withFetchWord 64 0x0100000000000000))).enable = true ∧
    (nextOr (step (State.reset.withFetchWord 8 2))).slot = 2 := by decide

/-! ## Witnesses: states and operands that meet the hypotheses of each statement, every clause at a boundary value -/

theorem test_witness_StepRunsDecodedInstruction :
    (idle.offer (.event 0b01)).port = ⟨.event 0b01, 0, false⟩ :: [] ∧ decode (.event 0b01) = .instr .zc ∧
    decode (.command 0x3100000000000035) = .instr (.brightToPct 53) ∧ idle.port = [] := by decide

theorem test_witness_EventCodesWithoutAnEvent :
    (idle.offer (.event 0b00)).port = ⟨.event 0b00, 0, false⟩ :: [] ∧
    (idle.offer (.event 0b11)).port = ⟨.event 0b11, 0, false⟩ :: [] := by decide

/-- The lowest and the highest reserved bit, opcodes 0x00, 0x22 and 0xFF. -/
theorem test_witness_UndecodableWordsAnswerIllegal :
    (idle.offer (.command 0x0101000000000000#64)).port = [⟨.command 0x0101000000000000#64, 0, false⟩] ∧
    (0x0101000000000000#64).extractLsb' 48 7 ≠ 0 ∧ (0x0140000000000000#64).extractLsb' 48 7 ≠ 0 ∧
    [(0x0000000000000000#64), 0x2200000000000000#64, 0xFF00000000000000#64].map (fun w => (w.extractLsb' 56 8).toNat) =
      [0x00, 0x22, 0xFF] ∧
    ∀ n ∈ [0x00, 0x22, 0xFF], n ∉ [0x01, 0x02, 0x10, 0x11, 0x12, 0x13, 0x14, 0x20, 0x21, 0x30, 0x31] :=
  ⟨rfl, by decide, by decide, by decide, by decide⟩

/-- CTX and every bit below the reserved field set for START; all but VAL for PCT_TO_BRIGHT 100. -/
theorem test_witness_UnusedFieldsAreIgnored :
    decode (.command 0x0100000000000000) = .instr .start ∧
    (0x0100000000000000#64 &&& usedBits .start) = (0x0180FFFFFFFFFFFF#64 &&& usedBits .start) ∧
    decode (.command 0x3000000000000064) = .instr (.pctToBright 100) ∧
    (0x3000000000000064#64 &&& usedBits (.pctToBright 100)) = (0x3080FFFFFFFFFF64#64 &&& usedBits (.pctToBright 100)) := by
  decide

theorem test_witness_StartEnablesTheCore :
    exec .start State.reset = .next { State.reset with enable := true, rsp := some 0 } := rfl

/-- A ring of two slots with its head at the last one, and the reset state. -/
theorem test_witness_GetStatusReportsTheState :
    (ring 2 [] 1 0).cfg.Legal ∧ (ring 2 [] 1 0).qHead < (ring 2 [] 1 0).cfg.n ∧ (ring 2 [] 1 0).qTail < (ring 2 [] 1 0).cfg.n ∧
    State.reset.cfg.Legal := by decide

theorem test_witness_EnableGatesOnlyZc :
    State.reset.enable = false ∧ Instr.start ≠ .zc ∧ Instr.getStatus ≠ .zc ∧ Instr.timer ≠ .zc ∧
    exec .start State.reset = .next { State.reset with enable := true, rsp := some 0 } ∧
    exec .getStatus State.reset = .next { State.reset with rsp := some 0 } ∧
    exec .timer (atSlot2 false) = .next { idle with zeroCount := 1 } := 
  ⟨rfl, by decide, by decide, by decide, rfl, rfl, rfl⟩

/-! The enqueue statements, one request of each of the five commands for the first, then the boundaries of the window. -/

theorem test_witness_enqueue_requests :
    enqRequest (.enqAddress true 255 15 16) = some (0xCC000004, 255, true) ∧
    enqRequest (.enqCommand false 2 0 1 0b0010) = some (frameX, 2, false) ∧
    enqRequest (.enqDimPercent false 1 0 1 50) = some (0x6635C001, 1, false) ∧
    enqRequest (.enqExtDimPercent false 1 1 5 0 50) = some (0xE788F98B, 1, false) ∧
    enqRequest (.enqRawExt false 1 1 5 0b0111 0x1F 0x31) = some (0xE788F98B, 1, false) := by decide

theorem test_witness_EnqueueOfHeadOverwritesRepetitions :
    ready.cfg.Legal ∧ (ready.slotAt ready.qHead).frame = frameX ∧ 0 < (ready.slotAt ready.qHead).reps.toNat := by decide

/-- Another frame; the same frame exactly at the end of the window; the clock run back. -/
theorem test_witness_EnqueueAppendsAtTheTail :
    let s := retired 500
    let back := { retired 499 with lastMs := 500 }
    s.cfg.Legal ∧ s.qHead < s.cfg.n ∧ s.qTail < s.cfg.n ∧
    ¬((s.slotAt s.qHead).frame = frameX ∧ 0 < (s.slotAt s.qHead).reps.toNat) ∧ (s.qTail + 1) % s.cfg.n ≠ s.qHead ∧
    (s.slotAt ((s.qTail + s.cfg.n - 1) % s.cfg.n)).frame ≠ 0xCC000004 ∧
    (s.slotAt ((s.qTail + s.cfg.n - 1) % s.cfg.n)).frame = frameX ∧
    s.cfg.rebufferDelayMs.toNat ≤ s.nowMs.toNat - s.lastMs.toNat ∧ back.nowMs.toNat < back.lastMs.toNat := by decide

/-- The last millisecond of the window, and its first. -/
theorem test_witness_EnqueueSuppressesADuplicate :
    ∀ s ∈ [retired 499, retired 0],
      s.cfg.Legal ∧ ¬((s.slotAt s.qHead).frame = frameX ∧ 0 < (s.slotAt s.qHead).reps.toNat) ∧
      (s.qTail + 1) % s.cfg.n ≠ s.qHead ∧ (s.slotAt ((s.qTail + s.cfg.n - 1) % s.cfg.n)).frame = frameX ∧
      s.lastMs.toNat ≤ s.nowMs.toNat ∧ s.nowMs.toNat - s.lastMs.toNat < s.cfg.rebufferDelayMs.toNat := by decide

theorem test_witness_EnqueueOnAFullQueueFails :
    let s := ring 2 [⟨frameX, 1⟩] 0 1
    enqRequest (.enqAddress false 1 0 1) = some (0x66000004, 1, false) ∧
    ¬((s.slotAt s.qHead).frame = 0x66000004 ∧ 0 < (s.slotAt s.qHead).reps.toNat) ∧
    (s.qTail + 1) % s.cfg.n = s.qHead := by decide

theorem test_witness_InvalidExactlyOnOperandsOutOfRange :
    (Instr.pctToBright 101).wellFormed = false ∧ (Instr.pctToBright 100).wellFormed = true ∧
    isEvent (.pctToBright 100) = false ∧
    exec (.pctToBright 100) idle = .next { idle with rsp := some 62 } := ⟨rfl, rfl, rfl, rfl⟩

/-- Each request with and without a unit, extended and not. -/
theorem test_witness_EnqueuedFrameLayouts :
    enqRequest (.enqAddress false 1 15 16) = some (0xCC000004, 1, false) ∧
    enqRequest (.enqCommand false 1 0 1 0b1100) = some (0x6CB00003, 1, false) ∧
    enqRequest (.enqCommand false 1 0 0 0b0100) = some (0x64800002, 1, false) ∧
    enqRequest (.enqCommand false 1 15 16 0b1111) = some (0xCC67C001, 1, false) ∧
    (enqRequest (.enqDimPercent false 1 0 0 0)).isSome = true ∧ (enqRequest (.enqDimPercent false 1 0 16 100)).isSome = true ∧
    enqRequest (.enqExtDimPercent false 1 1 5 2 50) = some (0xE78CF98B, 1, false) ∧
    enqRequest (.enqRawExt false 1 0 1 0b0010 0xFF 0xFF) = some (frameX, 1, false) ∧
    enqRequest (.enqRawExt false 1 0 0 0b0010 0xFF 0xFF) = some (0x62800002, 1, false) ∧
    enqRequest (.enqRawExt false 1 1 5 0b0111 0x1F 0x31) = some (0xE788F98B, 1, false) := by decide

theorem test_witness_EveryCommandAnswersOnce : isEvent .start = false ∧ isEvent (.brightToPct 63) = false := by decide

/-- CTX into an empty queue, and into one that holds an entry (V2.10). -/
theorem test_witness_CtxOnlyResetsQuiescence :
    ∀ s ∈ [ring 4 [] 0 0, ready],
      s.cfg.Legal ∧ s.qTail < s.cfg.n ∧ isEvent (.enqAddress true 1 0 2) = false ∧
      (nextOr (exec (withCtx false (.enqAddress true 1 0 2)) s)).rsp ≠ none := by decide

theorem test_witness_PctToBrightConverts : (0 : BitVec 8).toNat ≤ 100 ∧ (100 : BitVec 8).toNat ≤ 100 := by decide

theorem test_witness_BrightToPctConverts : (0 : BitVec 8).toNat ≤ 62 ∧ (62 : BitVec 8).toNat ≤ 62 := by decide

theorem test_witness_PercentRoundTripWithinOne : (0 : BitVec 8).toNat ≤ 100 ∧ (100 : BitVec 8).toNat ≤ 100 := by decide

theorem test_witness_GetStateReportsTheModule :
    (0 : BitVec 5).toNat ≤ 15 ∧ 1 ≤ (1 : BitVec 5).toNat ∧ (15 : BitVec 5).toNat ≤ 15 ∧ (16 : BitVec 5).toNat ≤ 16 := by decide

theorem test_witness_WipeStateClearsMatchingModules :
    ((31 : BitVec 5).toNat = 31) ∧ (0 : BitVec 5).toNat ≤ 16 ∧ (15 : BitVec 5).toNat ≤ 15 ∧ (16 : BitVec 5).toNat ≤ 16 ∧
    { idle with mem := [(0, 1), (255, 0xFF)] }.mem.wf = true := by decide

/-- One byte for each clause: ON from 0, OFF, DIM at and off known-on, BRIGHT at the ceiling, preset with level 0 and 62, others. -/
theorem test_witness_ModuleByteFollowsTheCommand :
    (updatedByte false 0x00 2 0 0 false).toNat = 192 + 62 ∧ (updatedByte false 0xFE 3 0 0 false).toNat = 128 + 62 ∧
    (updatedByte false 0xC9 4 0 0 false).toNat = 192 + 1 ∧ (updatedByte false 0xBE 4 0 0 false).toNat = 192 + 53 ∧
    (updatedByte false 0xFE 5 0 0 false).toNat = 192 + 62 ∧ (updatedByte false 0x40 5 0 0 false).toNat = 192 + 9 ∧
    (updatedByte false 0xD2 7 0xC0 0x31 true).toNat = 128 + 18 ∧ (updatedByte true 0x00 11 62 0 false).toNat = 192 + 62 ∧
    (updatedByte false 0x00 0 0 0 false).toNat = 64 ∧ (updatedByte false 0xBE 7 62 0x31 false).toNat = 128 + 62 := by decide

/-! The receive path. -/

theorem test_witness_FinishStepDetectsStartCodes :
    ∀ s ∈ [{ atSlot2 false with onesCount := 3 }, { atSlot2 true with onesCount := 4 }, { atSlot2 false with onesCount := 4 },
        { atSlot2 true with onesCount := 0 }],
      s.atFinish ∧ s.rx.active = false ∧ s.onesCount.toNat ≤ 4 := by decide

theorem test_witness_RawHalfIsOnlyLatched :
    ∀ s ∈ [receiving true { active := true, count := 4 }, receiving false { active := true, count := 60 }],
      s.atFinish ∧ s.rx.active = true ∧ s.rx.count.toNat % 2 = 0 ∧ s.rx.count.toNat < 255 := by decide

/-- A pair at each checkpoint: 12, 20, 22 with either function bit, 30 and 46. -/
theorem test_witness_ValidPairIsShiftedAndCaptured :
    ∀ s ∈ [receiving false { active := true, raw := true, count := 11 }, receiving true { active := true, count := 19 },
        receiving false { active := true, raw := true, count := 21 }, receiving true { active := true, count := 21 },
        receiving true { active := true, count := 29, cmd := 7, cmdValid := true },
        receiving true { active := true, count := 45, cmd := 12, cmdValid := true, xunitValid := true }],
      s.atFinish ∧ s.rx.active = true ∧ s.rx.count.toNat % 2 = 1 ∧ s.rx.count.toNat < 255 ∧ s.rx.count.toNat ≠ 61 ∧
      s.inLatch ≠ s.rx.raw := by decide

theorem test_witness_MessageWithoutCommandIsDropped :
    ∀ s ∈ [receiving true { active := true, raw := true, count := 5 }, receiving false { active := true, count := 23 },
        receiving true { active := true, count := 61 }],
      s.atFinish ∧ s.rx.active = true ∧ s.rx.cmdValid = false ∧ s.rx.count.toNat % 2 = 1 ∧ s.rx.count.toNat < 255 ∧
      (s.inLatch = s.rx.raw ∨ s.inLatch ≠ s.rx.raw ∧ s.rx.count = 61) := by decide

/-- With the pending house, with another, and at the ceiling. -/
theorem test_witness_StandardCommandIsResolvedAndReported :
    let r : RxAcc := { active := true, count := 23, house := 6, cmd := 2, cmdValid := true }
    ∀ s ∈ [{ receiving false r with addr := ⟨true, 6, 6⟩ }, { receiving false r with addr := ⟨true, 7, 6⟩ },
        receiving true { r with count := 61 }],
      s.atFinish ∧ s.rx.active = true ∧ s.rx.cmdValid = true ∧ isExtCmd s.rx.cmd = false ∧
      ¬(s.cfg.presetDimEnable = true ∧ isPreset s.rx.cmd = true) ∧ s.rx.count.toNat % 2 = 1 ∧ s.rx.count.toNat < 255 ∧
      s.mem.wf = true ∧ (s.inLatch = s.rx.raw ∨ s.inLatch ≠ s.rx.raw ∧ s.rx.count = 61) := by decide

/-- Cut before the unit, and complete at the ceiling. -/
theorem test_witness_ExtendedCommandIsResolvedAndReported :
    ∀ s ∈ [receiving false { active := true, count := 23, cmd := 7, cmdValid := true },
        receiving true { active := true, count := 61, cmd := 12, cmdValid := true, xunitValid := true, dataValid := true }],
      s.atFinish ∧ s.rx.active = true ∧ s.rx.cmdValid = true ∧ isExtCmd s.rx.cmd = true ∧ s.rx.count.toNat % 2 = 1 ∧
      s.rx.count.toNat < 255 ∧ s.mem.wf = true ∧
      (s.inLatch = s.rx.raw ∨ s.inLatch ≠ s.rx.raw ∧ s.rx.count = 61) := by decide

/-- A core with PRESET_DIM_ENABLE = 1 at the end of a preset message. -/
def preset (a : PendingAddr) (c : Nibble) : State :=
  { receiving false { active := true, count := 23, house := 6, cmd := c, cmdValid := true } with
    cfg := { Config.default with presetDimEnable := true }
    addr := a }

/-- The same, its last valid pair reaching the ceiling. -/
def presetCeiling (a : PendingAddr) (c : Nibble) : State :=
  { preset a c with inLatch := true, rx := { (preset a c).rx with count := 61 } }

/-- With a pending address and without, at a failing pair and at the ceiling. -/
theorem test_witness_PresetDimGoesToThePendingAddress :
    (∀ s ∈ [preset ⟨true, 6, 6⟩ 0b1011, preset {} 0b1010, presetCeiling ⟨true, 6, 6⟩ 0b1011, presetCeiling {} 0b1010],
      s.atFinish ∧ s.rx.active = true ∧ s.rx.cmdValid = true ∧ s.cfg.presetDimEnable = true ∧
      (s.rx.cmd = 0b1010 ∨ s.rx.cmd = 0b1011) ∧ s.rx.count.toNat % 2 = 1 ∧ s.rx.count.toNat < 255 ∧ s.mem.wf = true) ∧
    (∀ s ∈ [preset ⟨true, 6, 6⟩ 0b1011, preset {} 0b1010], s.inLatch = s.rx.raw) ∧
    (∀ s ∈ [presetCeiling ⟨true, 6, 6⟩ 0b1011, presetCeiling {} 0b1010], s.inLatch ≠ s.rx.raw ∧ s.rx.count = 61) ∧
    (preset ⟨true, 6, 6⟩ 0b1011).addr.valid = true ∧ (preset {} 0b1010).addr.valid = false ∧
    (presetCeiling ⟨true, 6, 6⟩ 0b1011).addr.valid = true ∧ (presetCeiling {} 0b1010).addr.valid = false := by decide

/-! TIMER's sub-states and the ZC event. -/

theorem test_witness_TimerSamplesTheLine :
    let s := { idle with slot := 1, timerArmed := true }
    s.timerArmed = true ∧ s.slot = 1 ∧ s.cfg.Legal ∧ s.cfg.tPulse < 65536 := by decide

/-- PHASES = 7, a one-bit half-cycle, at sub-state `k`. -/
def phase (k : BitVec 4) : State :=
  { idle with cfg := { Config.default with phases := 7 }, slot := k, timerArmed := true, txOut := true }

theorem test_witness_TimerDrivesPhaseRepeats :
    (phase 2).timerArmed = true ∧ (phase 2).cfg.Legal ∧ (phase 2).cfg.tPhase < 65536 ∧ (phase 2).txOut = true ∧
    1 < (phase 2).cfg.phases ∧ (∀ k ∈ [(3 : BitVec 4), 13], 3 ≤ k.toNat ∧ k.toNat % 2 = 1 ∧ k.toNat < 2 * (phase k).cfg.phases) ∧
    ∀ k ∈ [(4 : BitVec 4), 12], 4 ≤ k.toNat ∧ k.toNat % 2 = 0 ∧ k.toNat < 2 * (phase k).cfg.phases := by decide

theorem test_witness_TimerIsRefusedUnlessArmed : idle.timerArmed = false := by decide

theorem test_witness_TimerFrame : exec .timer (atSlot2 false) = .next { idle with zeroCount := 1 } := rfl

/-- A command message for A1 that ends now, on a PERSISTENT store. -/
def storing : State :=
  { receiving false { active := true, count := 23, house := 6, cmd := 2, cmdValid := true } with
    cfg := { Config.default with backend := .persistent }
    addr := ⟨true, 6, 6⟩ }

theorem test_witness_OneByteWritePerAddressedCommand :
    storing.mem.wf = true ∧ storing.storeTarget = some 0 ∧
    (nextOr (exec .timer storing)).storeLog = [(0, 0xFD)] ∧ (atSlot2 false).storeTarget = none := by decide

/-- An empty queue, a line not yet silent long enough, and an overrun. -/
theorem test_witness_ZcBeginsASilentHalfCycle :
    ∀ s ∈ [idle, { ready with zeroCount := 5 }, { idle with slot := 2, timerArmed := true }],
      s.enable = true ∧ s.cfg.Legal ∧ ¬s.mayTransmit := by decide

theorem test_witness_ZcSendsTheNextWireBit :
    ∀ s ∈ [ready, { ready with txCount := 60, zeroCount := 0 }, { ready with txCount := 40 }],
      s.enable = true ∧ s.cfg.Legal ∧ s.mayTransmit ∧ frameShape (s.slotAt s.qHead).frame = some .standard ∧
      ¬s.heldAtGap .standard ∧ s.txCount.toNat + 1 < endCount .standard := by decide

/-- V5.1: a count of silence one short of PART_GAP. -/
theorem test_witness_ZcHoldsBeforePartTwo :
    let s := { ready with txCount := 40, zeroCount := 4 }
    s.enable = true ∧ s.cfg.Legal ∧ s.mayTransmit ∧ frameShape (s.slotAt s.qHead).frame = some .standard ∧
    s.txCount = 40 ∧ s.zeroCount.toNat < s.cfg.partGap := by decide

/-- The last repetition of A1 ON; a repetition of A DIM with one to come. -/
theorem test_witness_ZcEndsTheRepetition :
    let s := { ready with txCount := 61 }
    let d := { ring 4 [⟨0x64800002, 2⟩] 0 1 with txCount := 21 }
    (s.enable = true ∧ s.cfg.Legal ∧ s.mayTransmit ∧ s.qHead < s.slots.length ∧
      frameShape (s.slotAt s.qHead).frame = some .standard ∧ s.txCount.toNat + 1 = endCount .standard) ∧
    d.mayTransmit ∧ frameShape (d.slotAt d.qHead).frame = some .commandOnly ∧
    d.txCount.toNat + 1 = endCount .commandOnly := by decide

theorem test_witness_ZcFrame : exec .zc State.reset = .next State.reset := rfl

/-! Wire sequences, reset and invariants. -/

theorem test_witness_reset_inv : State.reset.Inv :=
  ⟨by decide, by decide, by decide, by decide, by decide, by decide, by decide, by decide, by decide⟩

theorem test_witness_ready_inv : ready.Inv :=
  ⟨by decide, by decide, by decide, by decide, by decide, by decide, by decide, by decide, by decide⟩

theorem test_witness_idle_inv : idle.Inv :=
  ⟨by decide, by decide, by decide, by decide, by decide, by decide, by decide, by decide, by decide⟩

theorem test_witness_RepetitionSendsItsWireSequence :
    ready.Inv ∧ ready.enable = true ∧ ready.slot = 0 ∧ ready.qHead ≠ ready.qTail ∧ ready.txCount = 0 ∧
    ready.cfg.minSilence.toNat ≤ ready.zeroCount.toNat ∧
    frameShape (ready.slotAt ready.qHead).frame = some .standard ∧
    (∀ levels ∈ [List.replicate 62 false, wireSequence frameX .standard], levels.length = endCount .standard ∧
      ∀ k < 62, levels[k]? = some true → wireBit frameX .standard (k + 1) = true) :=
  ⟨test_witness_ready_inv, by decide, by decide, by decide, by decide, by decide, by decide, by decide⟩

theorem test_witness_WireSequenceDecodesToItsMessage :
    idle.Inv ∧ idle.enable = true ∧ idle.slot = 0 ∧ idle.qHead = idle.qTail ∧ idle.rx.active = false ∧ idle.onesCount = 0 ∧
    idle.addr.valid = false ∧ 1 ≤ (1 : BitVec 5).toNat ∧ (16 : BitVec 5).toNat ≤ 16 ∧ isExtCmd 2 = false ∧ isExtCmd 7 = true ∧
    isPreset 10 = true ∧ idle.cfg.presetDimEnable = false :=
  ⟨test_witness_idle_inv, by decide⟩

/-- A backend of each kind of the reset clause, with a module byte to lose or keep. -/
theorem test_witness_ResetStateIsAsTabulated :
    storing.cfg.backend = .persistent ∧ idle.cfg.backend ≠ .persistent ∧
    { idle with mem := [(0, 0xFE)] }.applyReset.memRead 0 = 0 ∧
    { storing with mem := [(0, 0xFE)] }.applyReset.memRead 0 = 0xFE := by decide

/-- The defaults, and every parameter at its least and its greatest legal value. -/
theorem test_witness_LaunchMeetsTheInvariant :
    Config.default.Legal ∧ Config.Legal ⟨2, 0, 1, 5, 1, 1, 2, 3, .none, false⟩ ∧
    Config.Legal ⟨256, 0xFFFFFFFF, 255, 18, 7, 65535, 65536, 65537, .persistent, true⟩ := by decide

/-! The step statements: a ZC on the ready state, and a TIMER in a message, each a next state. -/

theorem test_witness_StepKeepsTheQueueInvariant :
    (ready.offer (.event 0b01)).cfg.Legal ∧ (ready.offer (.event 0b01)).QueueInv ∧
    step (ready.offer (.event 0b01)) = .next { ready with
      txCount := 1, txOut := true, outLevel := true, slot := 1, timerArmed := true, timerDelay := 500 } :=
  ⟨by decide, by decide, rfl⟩

theorem test_witness_StepKeepsTheTimerInvariant :
    ((atSlot2 true).offer (.event 0b10)).cfg.Legal ∧ ((atSlot2 true).offer (.event 0b10)).TimerInv ∧
    step ((atSlot2 true).offer (.event 0b10)) = .next { idle with inLatch := true, onesCount := 1 } :=
  ⟨by decide, by decide, rfl⟩

theorem test_witness_StepKeepsTheReceiverInvariant :
    ((receiving true { active := true, count := 4 }).offer (.event 0b10)).RxInv ∧
    step ((receiving true { active := true, count := 4 }).offer (.event 0b10)) =
      .next { idle with inLatch := true, rx := { active := true, count := 5, raw := true } } :=
  ⟨by decide, rfl⟩

theorem test_witness_StepKeepsTheMemoryInvariant :
    (storing.offer (.event 0b10)).MemInv ∧ (nextOr (step (storing.offer (.event 0b10)))).mem = [(0, 0xFE)] := by decide

theorem test_witness_StepKeepsTheInvariant :
    (ready.offer (.event 0b01)).Inv ∧ (nextOr (step (ready.offer (.event 0b01)))).txCount = 1 :=
  ⟨⟨by decide, by decide, by decide, by decide, by decide, by decide, by decide, by decide, by decide⟩, by decide⟩

/-- The two refusals the invariant leaves. -/
theorem test_witness_InvariantRulesOutEveryStop :
    (idle.offer (.event 0b10)).Inv ∧ step (idle.offer (.event 0b10)) = .refused .timerNotArmed ∧
    step (idle.offer (.event 0b11)) = .refused .reservedEventCode :=
  ⟨⟨by decide, by decide, by decide, by decide, by decide, by decide, by decide, by decide, by decide⟩, rfl, rfl⟩

theorem test_witness_EnableAndOverrunHaveOneWriter :
    exec .start State.reset = .next { State.reset with enable := true, rsp := some 0 } := rfl

theorem test_witness_OnlyAnEndedCommandMessageNotifies :
    (nextOr (exec .timer storing)).nlog = [⟨0, 1, 2, 0, 0, 22⟩] ∧ storing.finishing = true ∧ storing.endsMessage = true := by
  decide

theorem test_witness_CommandsLeaveTheLineSideAlone :
    isEvent .start = false ∧ enqRequest .start = none ∧ Instr.start ≠ .wipeState 0 0 ∧
    exec .start State.reset = .next { State.reset with enable := true, rsp := some 0 } := ⟨rfl, rfl, by decide, rfl⟩

theorem test_witness_NoCommandRemovesAnEntry :
    ready.cfg.Legal ∧ ready.QueueInv ∧ ready.qHead < ready.cfg.n ∧ ready.queued ready.qHead ∧
    exec (.enqCommand false 3 0 1 0b0010) ready =
      .next { ready with slots := ready.slots.set 0 ⟨frameX, 3⟩, rsp := some 0x00000101 } := 
  ⟨by decide, by decide, by decide, by decide, rfl⟩

theorem test_witness_DrawsAreReadOnlyWhereStated :
    ¬(Instr.timer = .timer ∧ (atSlot2 true).slot = 1) ∧ enqRequest .zc = none := by decide

theorem test_witness_TickValuesAreObservationOnly :
    exec .timer (atSlot2 false) = .next { idle with zeroCount := 1 } := rfl

theorem test_witness_PersistentActsAsVolatile :
    idle.cfg.backend = .volatile ∧ exec .timer (atSlot2 false) = .next { idle with zeroCount := 1 } := ⟨rfl, rfl⟩

theorem test_witness_BackendNoneHasNoModuleState :
    { idle with cfg := { Config.default with backend := .none } }.cfg.backend = .none ∧
    (Instr.getState 15 16).wellFormed = true ∧ (Instr.wipeState 31 0).wellFormed = true := by decide

end Sys2Proof.Tests
end

section
/-! The commands in the words of WellFormed.lean and Safety.lean: an ill-formed one answers INVALID and nothing else, a
well-formed enqueue runs `State.enqueue` on what it asks to be queued. -/

namespace Sys2Proof.Machine

/-! ## The meanings' operand checks are the operand ranges -/

/-- 40_send_buffer R410. -/
theorem enqInvalid_eq (reps : BitVec 8) (house unit : BitVec 5) :
    enqInvalid reps house unit = !(repsOk reps && houseOk house && unitOrNoneOk unit) := by
  have hreps : (reps == 0) = !repsOk reps := by revert reps; decide
  have hhouse : decide (house.toNat > 15) = !houseOk house := by revert house; decide
  have hunit : decide (unit.toNat > 16) = !unitOrNoneOk unit := by revert unit; decide
  rw [enqInvalid, hreps, hhouse, hunit]
  simp only [Bool.not_and, Bool.or_assoc, Bool.or_comm, Bool.or_left_comm]

theorem unitOk_eq (unit : BitVec 5) : unitOk unit = (unitOrNoneOk unit && !(unit == 0)) := by
  revert unit; decide

/-- 40_send_buffer R425, R440. -/
theorem extWithoutUnit_eq (cmd : Nibble) (unit : BitVec 5) : extWithoutUnit cmd unit = !extendedUnitOk cmd unit := by
  revert cmd unit; decide

/-- 45_module_state R670. -/
theorem moduleInvalid_eq (house unit : BitVec 5) : moduleInvalid house unit = !(houseOk house && unitOk unit) := by
  revert house unit; decide

/-- 45_module_state R675. -/
theorem wipeInvalid_eq (house unit : BitVec 5) :
    wipeInvalid house unit = !((houseOk house || house.toNat == 31) && unitOrNoneOk unit) := by
  revert house unit; decide

theorem percentInvalid_eq (val : BitVec 8) : decide (val.toNat > 100) = !percentOk val := by
  revert val; decide

/-! ## Each command with operands -/

variable (ctx : Bool) (reps : BitVec 8) (house unit : BitVec 5) (cmd : BitVec 4) (time : BitVec 2) (xdata xcmd val : BitVec 8)
  (s : State)

/-- 40_send_buffer R420. -/
theorem exec_enqAddress :
    exec (.enqAddress ctx reps house unit) s =
      if (Instr.enqAddress ctx reps house unit).wellFormed = false then .next (s.respond .invalid 0)
      else .next (s.enqueue (addressFrame (houseOfField house) unit) reps ctx) := by
  have hinv : (enqInvalid reps house unit || unit == 0) = !(Instr.enqAddress ctx reps house unit).wellFormed := by
    simp only [Instr.wellFormed, enqInvalid_eq, unitOk_eq, Bool.not_and, Bool.not_not, Bool.or_assoc]
  simp only [exec, execEnqAddress, hinv, Bool.not_eq_true']

/-- 40_send_buffer R425. -/
theorem exec_enqCommand :
    exec (.enqCommand ctx reps house unit cmd) s =
      if (Instr.enqCommand ctx reps house unit cmd).wellFormed = false then .next (s.respond .invalid 0)
      else .next (s.enqueue (buildFrame (houseOfField house) unit cmd 0 0 none) reps ctx) := by
  have hinv : (enqInvalid reps house unit || extWithoutUnit cmd unit) =
      !(Instr.enqCommand ctx reps house unit cmd).wellFormed := by
    simp only [Instr.wellFormed, enqInvalid_eq, extWithoutUnit_eq, Bool.not_and]
  simp only [exec, execEnqCommand, hinv, Bool.not_eq_true']

/-- 40_send_buffer R430. -/
theorem exec_enqDimPercent :
    exec (.enqDimPercent ctx reps house unit val) s =
      if (Instr.enqDimPercent ctx reps house unit val).wellFormed = false then .next (s.respond .invalid 0)
      else .next (s.enqueue (buildFrame (houseOfField house) unit (presetCmd (presetLevel val)) 0 0
        (some (presetNibble (presetLevel val)))) reps ctx) := by
  have hinv : (enqInvalid reps house unit || decide (val.toNat > 100)) =
      !(Instr.enqDimPercent ctx reps house unit val).wellFormed := by
    simp only [Instr.wellFormed, enqInvalid_eq, percentInvalid_eq, Bool.not_and]
  simp only [exec, execEnqDimPercent, hinv, Bool.not_eq_true']

/-- 40_send_buffer R435: EXTENDED_CODE always builds the EXTENDED frame. -/
theorem exec_enqExtDimPercent :
    exec (.enqExtDimPercent ctx reps house unit time val) s =
      if (Instr.enqExtDimPercent ctx reps house unit time val).wellFormed = false then .next (s.respond .invalid 0)
      else .next (s.enqueue (extendedFrame (houseOfField house) unit cmdExtendedCode (extDimData time val) extPresetDim)
        reps ctx) := by
  have hinv : (enqInvalid reps house unit || unit == 0 || decide (val.toNat > 100)) =
      !(Instr.enqExtDimPercent ctx reps house unit time val).wellFormed := by
    simp only [Instr.wellFormed, enqInvalid_eq, unitOk_eq, percentInvalid_eq, Bool.not_and, Bool.not_not, Bool.or_assoc]
  have hext : isExtCmd cmdExtendedCode = true := by decide
  simp only [exec, execEnqExtDimPercent, hinv, Bool.not_eq_true', buildFrame, hext, if_true]

/-- 40_send_buffer R440: a code that is not extended carries no data, and queues the frame ENQ_COMMAND does. -/
theorem exec_enqRawExt :
    exec (.enqRawExt ctx reps house unit cmd xdata xcmd) s =
      if (Instr.enqRawExt ctx reps house unit cmd xdata xcmd).wellFormed = false then .next (s.respond .invalid 0)
      else .next (s.enqueue (if isExtCmd cmd then extendedFrame (houseOfField house) unit cmd xdata xcmd
        else buildFrame (houseOfField house) unit cmd 0 0 none) reps ctx) := by
  have hinv : (enqInvalid reps house unit || extWithoutUnit cmd unit) =
      !(Instr.enqRawExt ctx reps house unit cmd xdata xcmd).wellFormed := by
    simp only [Instr.wellFormed, enqInvalid_eq, extWithoutUnit_eq, Bool.not_and]
  simp only [exec, execEnqRawExt, hinv, Bool.not_eq_true']
  cases hext : isExtCmd cmd
  · rfl
  · simp only [buildFrame, hext, if_true]

/-- 45_module_state R670. -/
theorem exec_getState :
    exec (.getState house unit) s =
      if (Instr.getState house unit).wellFormed = false then .next (s.respond .invalid 0)
      else .next (s.respond .ok (stateResult (s.memRead (moduleKey (houseOfField house) unit)))) := by
  have hinv : moduleInvalid house unit = !(Instr.getState house unit).wellFormed := moduleInvalid_eq house unit
  simp only [exec, execGetState, hinv, Bool.not_eq_true']

/-- 45_module_state R675. -/
theorem exec_wipeState :
    exec (.wipeState house unit) s =
      if (Instr.wipeState house unit).wellFormed = false then .next (s.respond .invalid 0)
      else .next ((State.wipe (wipeKeys house unit) s).respond .ok 0) := by
  have hinv : wipeInvalid house unit = !(Instr.wipeState house unit).wellFormed := wipeInvalid_eq house unit
  simp only [exec, execWipeState, hinv, Bool.not_eq_true']

/-- 45_module_state R685. -/
theorem exec_pctToBright :
    exec (.pctToBright val) s =
      if (Instr.pctToBright val).wellFormed = false then .next (s.respond .invalid 0)
      else .next (s.respond .ok (BitVec.ofNat 24 (p2bNat val.toNat))) := by
  simp only [exec, execPctToBright, Instr.wellFormed, percentOk, decide_eq_false_iff_not, Nat.not_le, gt_iff_lt]

/-- 45_module_state R690. -/
theorem exec_brightToPct :
    exec (.brightToPct val) s =
      if (Instr.brightToPct val).wellFormed = false then .next (s.respond .invalid 0)
      else .next (s.respond .ok (BitVec.ofNat 24 (b2pNat val.toNat))) := by
  simp only [exec, execBrightToPct, Instr.wellFormed, decide_eq_false_iff_not, Nat.not_le, gt_iff_lt]

/-! ## Ill-formed commands and well-formed enqueues -/

/-- 46_control R711: an operand out of range answers INVALID and changes nothing else. -/
theorem exec_of_not_wellFormed {i : Instr} (h : i.wellFormed = false) : exec i s = .next (s.respond .invalid 0) := by
  cases i with
  | start => cases h
  | getStatus => cases h
  | enqAddress => rw [exec_enqAddress, if_pos h]
  | enqCommand => rw [exec_enqCommand, if_pos h]
  | enqDimPercent => rw [exec_enqDimPercent, if_pos h]
  | enqExtDimPercent => rw [exec_enqExtDimPercent, if_pos h]
  | enqRawExt => rw [exec_enqRawExt, if_pos h]
  | getState => rw [exec_getState, if_pos h]
  | wipeState => rw [exec_wipeState, if_pos h]
  | pctToBright => rw [exec_pctToBright, if_pos h]
  | brightToPct => rw [exec_brightToPct, if_pos h]
  | zc => cases h
  | timer => cases h

/-- Only a well-formed instruction asks for anything to be queued. -/
theorem wellFormed_of_enqRequest {i : Instr} {q : Frame × BitVec 8 × Bool} (h : enqRequest i = some q) :
    i.wellFormed = true := by
  unfold enqRequest at h
  cases hwf : i.wellFormed with
  | false => rw [if_pos hwf] at h; cases h
  | true => rfl

/-- 40_send_buffer R400: a well-formed enqueue command runs the common procedure on its request. -/
theorem exec_of_enqRequest {i : Instr} {f : Frame} {reps : BitVec 8} {ctx : Bool} (h : enqRequest i = some (f, reps, ctx)) :
    exec i s = .next (s.enqueue f reps ctx) := by
  have hwf : ¬i.wellFormed = false := by simp [wellFormed_of_enqRequest h]
  unfold enqRequest at h
  rw [if_neg hwf] at h
  cases i with
  | enqAddress => cases h; rw [exec_enqAddress, if_neg hwf]
  | enqCommand => cases h; rw [exec_enqCommand, if_neg hwf]
  | enqDimPercent => cases h; rw [exec_enqDimPercent, if_neg hwf]
  | enqExtDimPercent => cases h; rw [exec_enqExtDimPercent, if_neg hwf]
  | enqRawExt => cases h; rw [exec_enqRawExt, if_neg hwf]
  | start | getStatus | getState | wipeState | pctToBright | brightToPct | zc | timer => cases h

end Sys2Proof.Machine
end

section
/-! The two draws of a step (00_scope R9): another clock and another line level pass unchanged through every operation that does
not read them. An operation commutes with `State.mapDraws f g`; one that reads the clock commutes where `f` is the
identity, one that reads the line where `g` is. -/

namespace Sys2Proof.Machine

/-- The state with other draws: the clock changed by `f`, the line level by `g`. -/
def State.mapDraws (f : BitVec 32 → BitVec 32) (g : Bool → Bool) (s : State) : State :=
  { s with nowMs := f s.nowMs, readIn := g s.readIn }

variable (f : BitVec 32 → BitVec 32) (g : Bool → Bool) (s : State)

/-! ## The module store and the queue -/

theorem State.memWrite_mapDraws (k : Key) (v : Byte) :
    (s.mapDraws f g).memWrite k v = (s.memWrite k v).mapDraws f g := by
  rw [State.memWrite_eq, State.memWrite_eq]
  rfl

theorem State.wipe_mapDraws (ks : List Key) : State.wipe ks (s.mapDraws f g) = (State.wipe ks s).mapDraws f g := by
  induction ks generalizing s with
  | nil => rfl
  | cons k ks ih => simp only [State.wipe, State.memWrite_mapDraws, ih]

/-- An enqueue reads the clock, not the line (20_memory R224). -/
theorem State.enqueue_mapDraws (w : Frame) (reps : BitVec 8) (ctx : Bool) :
    (s.mapDraws id g).enqueue w reps ctx = (s.enqueue w reps ctx).mapDraws id g := by
  simp only [State.enqueue, apply_ite (State.mapDraws id g)]
  rfl

/-! ## The receive path -/

theorem State.deliver_mapDraws (t : Resolved) (n : BitVec 8) :
    (s.mapDraws f g).deliver t n = (s.deliver t n).mapDraws f g := by
  rw [State.deliver_eq, State.deliver_eq]
  split
  · rfl
  · rw [State.memWrite_mapDraws]
    rfl

theorem State.processCommand_mapDraws (n : BitVec 8) :
    (s.mapDraws f g).processCommand n = (s.processCommand n).mapDraws f g := by
  have hres : resolveCommand (s.mapDraws f g).cfg.presetDimEnable (s.mapDraws f g).rx (s.mapDraws f g).addr =
      resolveCommand s.cfg.presetDimEnable s.rx s.addr := rfl
  rw [State.processCommand, State.processCommand, hres]
  cases resolveCommand s.cfg.presetDimEnable s.rx s.addr with
  | none => rfl
  | some t =>
    simp only [State.deliver_mapDraws]
    rfl

theorem State.endOfMessage_mapDraws (n : BitVec 8) :
    (s.mapDraws f g).endOfMessage n = (s.endOfMessage n).mapDraws f g := by
  simp only [State.endOfMessage, State.processCommand_mapDraws, apply_ite (State.mapDraws f g)]
  rfl

theorem State.checkpoint_mapDraws (c : Nat) : (s.mapDraws f g).checkpoint c = (s.checkpoint c).mapDraws f g := by
  simp only [State.checkpoint, apply_ite (State.mapDraws f g)]
  rfl

/-- A receive step's state once its half-cycle is counted (44_frame_decoder R601). -/
def State.counted (s : State) : State := { s with rx := { s.rx with count := BitVec.ofNat 8 (s.rx.count.toNat + 1) } }

theorem State.rxStep_eq (b : Bool) :
    s.rxStep b =
      if (s.rx.count.toNat + 1) % 2 = 1 then { s.counted with rx := { s.counted.rx with raw := b } }
      else if b = s.rx.raw then
        { s.counted.endOfMessage (BitVec.ofNat 8 (s.rx.count.toNat + 1 - 2)) with onesCount := if b then 2 else 0 }
      else if s.rx.count.toNat + 1 = 62 then
        (s.counted.acceptBit.checkpoint (s.rx.count.toNat + 1)).endOfMessage 62
      else s.counted.acceptBit.checkpoint (s.rx.count.toNat + 1) := rfl

theorem State.rxStep_mapDraws (b : Bool) : (s.mapDraws f g).rxStep b = (s.rxStep b).mapDraws f g := by
  have hrx : (s.mapDraws f g).rx = s.rx := rfl
  have hcounted : (s.mapDraws f g).counted = s.counted.mapDraws f g := rfl
  have haccept : (s.counted.mapDraws f g).acceptBit = s.counted.acceptBit.mapDraws f g := rfl
  simp only [State.rxStep_eq, hrx, hcounted, haccept, State.checkpoint_mapDraws, State.endOfMessage_mapDraws,
    apply_ite (State.mapDraws f g)]
  rfl

theorem State.detect_mapDraws (b : Bool) : (s.mapDraws f g).detect b = (s.detect b).mapDraws f g := by
  simp only [State.detect, apply_ite (State.mapDraws f g)]
  rfl

/-! ## The two events -/

theorem State.finish_mapDraws : (s.mapDraws f g).finish = s.finish.mapDraws f g := by
  have hclosed : (s.mapDraws f g).closed = s.closed.mapDraws f g := rfl
  rw [State.finish_eq, State.finish_eq, hclosed, State.rxStep_mapDraws, State.detect_mapDraws,
    apply_ite (State.mapDraws f g)]
  rfl

theorem State.endFirstPulse_mapDraws : (s.mapDraws f g).endFirstPulse = s.endFirstPulse.mapDraws f g := by
  have hout : (s.mapDraws f g).setOut false = (s.setOut false).mapDraws f g := rfl
  simp only [State.endFirstPulse, hout, State.finish_mapDraws, apply_ite (State.mapDraws f g)]
  rfl

theorem State.endPhasePulse_mapDraws : (s.mapDraws f g).endPhasePulse = s.endPhasePulse.mapDraws f g := by
  have hout : (s.mapDraws f g).setOut false = (s.setOut false).mapDraws f g := rfl
  simp only [State.endPhasePulse, hout, State.finish_mapDraws, apply_ite (State.mapDraws f g)]
  rfl

theorem State.endOfRepetition_mapDraws (w : Frame) (sh : Shape) :
    (s.mapDraws f g).endOfRepetition w sh = (s.endOfRepetition w sh).mapDraws f g := by
  simp only [State.endOfRepetition, apply_ite (State.mapDraws f g)]
  rfl

theorem State.nextBitOf_mapDraws (w : Frame) (sh : Shape) :
    (s.mapDraws f g).nextBitOf w sh = ((s.nextBitOf w sh).1, (s.nextBitOf w sh).2.mapDraws f g) := by
  have hhold : (s.mapDraws f g).holdsPartTwo sh = s.holdsPartTwo sh := rfl
  have hcount : { s.mapDraws f g with txCount := BitVec.ofNat 8 (s.txCount.toNat + 1) } =
      { s with txCount := BitVec.ofNat 8 (s.txCount.toNat + 1) }.mapDraws f g := rfl
  have htx : (s.mapDraws f g).txCount = s.txCount := rfl
  simp only [State.nextBitOf, hhold, htx, hcount, State.endOfRepetition_mapDraws]
  split
  · rfl
  · rw [apply_ite (State.mapDraws f g)]

theorem State.nextBit_mapDraws :
    (s.mapDraws f g).nextBit = s.nextBit.map fun r => (r.1, r.2.mapDraws f g) := by
  have hhead : (s.mapDraws f g).headSlot = s.headSlot := rfl
  rw [State.nextBit, State.nextBit, hhead]
  cases frameShape s.headSlot.frame with
  | none => rfl
  | some sh => simp only [State.nextBitOf_mapDraws, Option.map_some]

theorem State.driveBit_mapDraws (b : Bool) : (s.mapDraws f g).driveBit b = (s.driveBit b).mapDraws f g := by
  cases b <;> rfl

theorem State.markOverrun_mapDraws : (s.mapDraws f g).markOverrun = s.markOverrun.mapDraws f g := by
  simp only [State.markOverrun, apply_ite (State.mapDraws f g)]
  rfl

theorem execZc_mapDraws : execZc (s.mapDraws f g) = mapNext (State.mapDraws f g) (execZc s) := by
  have hbegin : (s.mapDraws f g).markOverrun.beginHalfCycle = s.markOverrun.beginHalfCycle.mapDraws f g := by
    rw [State.markOverrun_mapDraws]
    rfl
  have henable : (s.mapDraws f g).enable = s.enable := rfl
  have hready : (s.markOverrun.beginHalfCycle.mapDraws f g).txReady = s.markOverrun.beginHalfCycle.txReady := rfl
  simp only [execZc, hbegin, henable, hready, State.nextBit_mapDraws]
  split
  · rfl
  · split
    · cases s.markOverrun.beginHalfCycle.nextBit with
      | none => rfl
      | some r => simp only [Option.map_some, State.driveBit_mapDraws, mapNext]
    · rfl

/-- TIMER with its request taken by `State.disarmTimer`. -/
theorem execTimer_eq :
    execTimer s =
      if s.timerArmed = false then .refused .timerNotArmed
      else if s.slot.toNat = 0 ∨ s.slot.toNat > 2 * s.cfg.phases then .fault .slotOutOfRange
      else if s.slot.toNat = 1 then .next s.disarmTimer.sampleLine
      else if s.slot.toNat = 2 then .next s.disarmTimer.endFirstPulse
      else if s.slot.toNat % 2 = 1 then .next s.disarmTimer.startPhasePulse
      else .next s.disarmTimer.endPhasePulse := rfl

/-- Only the sample step reads the line, and no TIMER the clock (42_bit_slot_timer R505). -/
theorem execTimer_mapDraws (hline : s.slot = 1 → g = id) :
    execTimer (s.mapDraws f g) = mapNext (State.mapDraws f g) (execTimer s) := by
  have harmed : (s.mapDraws f g).timerArmed = s.timerArmed := rfl
  have hslot : (s.mapDraws f g).slot = s.slot := rfl
  have hcfg : (s.mapDraws f g).cfg = s.cfg := rfl
  have hdisarm : (s.mapDraws f g).disarmTimer = s.disarmTimer.mapDraws f g := rfl
  have hphase : (s.disarmTimer.mapDraws f g).startPhasePulse = s.disarmTimer.startPhasePulse.mapDraws f g := rfl
  simp only [execTimer_eq, harmed, hslot, hcfg, hdisarm, hphase, State.endFirstPulse_mapDraws, State.endPhasePulse_mapDraws,
    apply_ite (mapNext (State.mapDraws f g))]
  by_cases h1 : s.slot.toNat = 1
  · obtain rfl := hline (BitVec.eq_of_toNat_eq h1)
    rfl
  · simp only [h1, if_false]
    rfl

/-! ## The step -/

/-- 00_scope R9: an instruction does the same whatever a draw is, unless it reads it: the line is read at the sample step only,
the clock by a well-formed enqueue only. -/
theorem exec_mapDraws {i : Instr} (hline : i = .timer → s.slot = 1 → g = id) (hclock : enqRequest i ≠ none → f = id) :
    exec i (s.mapDraws f g) = mapNext (State.mapDraws f g) (exec i s) := by
  cases hq : enqRequest i with
  | some q =>
    obtain ⟨w, reps, ctx⟩ := q
    obtain rfl := hclock (by simp [hq])
    rw [exec_of_enqRequest _ hq, exec_of_enqRequest _ hq, State.enqueue_mapDraws]
    rfl
  | none =>
    by_cases hwf : i.wellFormed = false
    · rw [exec_of_not_wellFormed _ hwf, exec_of_not_wellFormed _ hwf]
      rfl
    · unfold enqRequest at hq
      rw [if_neg hwf] at hq
      cases i with
      | enqAddress | enqCommand | enqDimPercent | enqExtDimPercent | enqRawExt => cases hq
      | start | getStatus => rfl
      | getState =>
        rw [exec_getState, exec_getState, if_neg hwf, if_neg hwf]
        rfl
      | wipeState =>
        rw [exec_wipeState, exec_wipeState, if_neg hwf, if_neg hwf, State.wipe_mapDraws]
        rfl
      | pctToBright =>
        rw [exec_pctToBright, exec_pctToBright, if_neg hwf, if_neg hwf]
        rfl
      | brightToPct =>
        rw [exec_brightToPct, exec_brightToPct, if_neg hwf, if_neg hwf]
        rfl
      | zc => exact execZc_mapDraws f g s
      | timer => exact execTimer_mapDraws f g s (hline rfl)

end Sys2Proof.Machine
end

section
/-! The statements of 00_scope: what a step runs, and which draws it reads. -/

namespace Sys2Proof.Machine

/-- Settles O57: both halves are `exec_mapDraws`, with one draw replaced and the other kept. -/
theorem drawsAreReadOnlyWhereStated : Obligations.DrawsAreReadOnlyWhereStated := by
  intro i s b now
  constructor
  · intro hsample
    exact exec_mapDraws id (fun _ => b) s (fun hi h1 => absurd ⟨hi, h1⟩ hsample) (fun _ => rfl)
  · intro hq
    exact exec_mapDraws (fun _ => now) id s (fun _ _ => rfl) (fun h => absurd hq h)

theorem step_of_port_nil {s : State} (h : s.port = []) : step s = .next s := by
  rw [step, h]

/-- 00_scope R7: the first input is taken whole. -/
theorem step_of_decode {s : State} {x : Input} {rest : List Input} {i : Instr} (hp : s.port = x :: rest)
    (hd : decode x.word = .instr i) : step s = exec i (s.present x rest) := by
  rw [step, hp]
  simp only [hd]

/-- Settles O1: taking an input is `State.present`. -/
theorem stepRunsDecodedInstruction : Obligations.StepRunsDecodedInstruction :=
  ⟨fun _ _ _ _ hp hd => step_of_decode hp hd, fun _ h => step_of_port_nil h⟩

end Sys2Proof.Machine
end

section
/-! What an instruction can do to the state, said once: one constructor of `State.Effect` per kind of change, from which the
frames and the invariants of the later sections follow by cases. -/

namespace Sys2Proof.Machine

/-- A half-cycle begun, for any parameters: the seven elements it writes (41_zero_cross R450, R451). -/
def State.opened (s : State) : State :=
  { s with
    overrun := s.overrun || s.slot != 0
    outLevel := s.outLevel && s.slot == 0
    inLatch := false
    txOut := false
    slot := 1
    timerArmed := true
    timerDelay := delayWord s.cfg.tSample }

theorem State.markOverrun_eq (s : State) :
    s.markOverrun = { s with overrun := s.overrun || s.slot != 0, outLevel := s.outLevel && s.slot == 0 } := by
  cases s with
  | mk =>
    unfold State.markOverrun
    split <;> simp_all [State.setOut]

theorem State.markOverrun_beginHalfCycle (s : State) : s.markOverrun.beginHalfCycle = s.opened := by
  rw [State.markOverrun_eq]
  rfl

theorem State.driveBit_eq (s : State) (b : Bool) :
    s.driveBit b = { s with txOut := b, outLevel := b || s.outLevel } := by
  cases b <;> rfl

/-- Every state an instruction can answer, with what held when it did. -/
inductive State.Effect (s : State) : Instr → State → Prop
  /-- A command that only answers. -/
  | answer {i : Instr} (hcmd : isEvent i = false) (hstart : i ≠ .start) (st : Status) (r : BitVec 24) :
      s.Effect i (s.respond st r)
  | start : s.Effect .start ({ s with enable := true }.respond .ok 0)
  /-- Coalescing rule 1 (40_send_buffer R402). -/
  | overwrite {i : Instr} {f : Frame} {reps : BitVec 8} {ctx : Bool} (hreq : enqRequest i = some (f, reps, ctx))
      (hhead : 0 < s.headSlot.reps.toNat) : s.Effect i ((s.setHeadReps reps).respondEnq 1)
  | append {i : Instr} {f : Frame} {reps : BitVec 8} {ctx : Bool} (hreq : enqRequest i = some (f, reps, ctx))
      (hroom : s.qFull = false) : s.Effect i ((s.append f reps ctx).respondEnq 0)
  | wipe (house unit : BitVec 5) :
      s.Effect (.wipeState house unit)
        ({ s with
          mem := (State.wipe (wipeKeys house unit) s).mem
          storeLog := (State.wipe (wipeKeys house unit) s).storeLog }.respond .ok 0)
  /-- ZC before START (41_zero_cross R450). -/
  | ignore (henable : s.enable = false) : s.Effect .zc s
  | listen (henable : s.enable = true) : s.Effect .zc s.opened
  | send {sh : Shape} (henable : s.enable = true) (hready : s.opened.txReady = true)
      (hshape : frameShape s.headSlot.frame = some sh) :
      s.Effect .zc ((s.opened.nextBitOf s.headSlot.frame sh).2.driveBit
        (s.opened.nextBitOf s.headSlot.frame sh).1)
  /-- Slot 1 (42_bit_slot_timer R505). -/
  | sample (harmed : s.timerArmed = true) (hslot : s.slot.toNat = 1) (hmax : s.slot.toNat ≤ 2 * s.cfg.phases) :
      s.Effect .timer s.disarmTimer.sampleLine
  /-- The end of a pulse that is not the last of its half-cycle (42_bit_slot_timer R507, R509). -/
  | pause (harmed : s.timerArmed = true) (hlow : 2 ≤ s.slot.toNat) (heven : s.slot.toNat % 2 = 0)
      (hmax : s.slot.toNat < 2 * s.cfg.phases) (htx : s.slot.toNat = 2 → s.txOut = true) :
      s.Effect .timer
        { (s.disarmTimer.setOut false).armTimer (s.cfg.tPhase - s.cfg.tPulse) with slot := s.slot + 1 }
  /-- The start of a phase pulse (42_bit_slot_timer R508). -/
  | pulse (harmed : s.timerArmed = true) (hlow : 3 ≤ s.slot.toNat) (hodd : s.slot.toNat % 2 = 1)
      (hmax : s.slot.toNat ≤ 2 * s.cfg.phases) : s.Effect .timer s.disarmTimer.startPhasePulse
  /-- The end of the half-cycle (42_bit_slot_timer R513). -/
  | finish (harmed : s.timerArmed = true) (hlast : s.finishing = true) : s.Effect .timer s.received

variable {s t : State}

/-- START and the two events have no operand to be out of range. -/
theorem command_of_not_wellFormed {i : Instr} (h : i.wellFormed = false) : isEvent i = false ∧ i ≠ .start := by
  cases i with
  | start | zc | timer => cases h
  | _ => exact ⟨rfl, by simp⟩

/-- START and the two events ask for nothing to be queued. -/
theorem command_of_enqRequest {i : Instr} {q : Frame × BitVec 8 × Bool} (h : enqRequest i = some q) :
    isEvent i = false ∧ i ≠ .start := by
  cases i with
  | start | zc | timer => cases h
  | _ => exact ⟨rfl, by simp⟩

/-- 40_send_buffer R401. -/
theorem State.Effect.of_enqueue {i : Instr} {f : Frame} {reps : BitVec 8} {ctx : Bool}
    (hreq : enqRequest i = some (f, reps, ctx)) : s.Effect i (s.enqueue f reps ctx) := by
  obtain ⟨hcmd, hstart⟩ := command_of_enqRequest hreq
  rcases s.enqueue_cases f reps ctx with ⟨-, hhead, h⟩ | ⟨-, hroom, -, h⟩ | ⟨-, -, -, -, h⟩ | ⟨-, -, h⟩ <;> rw [h]
  · exact .overwrite hreq hhead
  · exact .append hreq hroom
  · exact .answer hcmd hstart _ _
  · exact .answer hcmd hstart _ _

/-- 41_zero_cross R450. -/
theorem State.Effect.of_execZc (h : execZc s = .next t) : s.Effect .zc t := by
  have hcases := execZc_cases s
  rw [State.markOverrun_beginHalfCycle] at hcases
  rcases hcases with ⟨he, hz⟩ | ⟨he, -, hz⟩ | ⟨-, -, -, hz⟩ | ⟨sh, he, hready, hshape, hz⟩ <;>
    rw [hz] at h <;> cases h
  · exact .ignore he
  · exact .listen he
  · exact .send he hready hshape

/-- The last pulse window, in numbers (42_bit_slot_timer R507, R509). -/
theorem State.finishing_iff (s : State) :
    s.finishing = true ↔
      (s.slot.toNat = 2 ∧ ¬(s.txOut = true ∧ s.cfg.phases > 1)) ∨ (4 ≤ s.slot.toNat ∧ s.slot.toNat = 2 * s.cfg.phases) := by
  have hslot : s.slot = 2 ↔ s.slot.toNat = 2 := (BitVec.toNat_inj (x := s.slot) (y := 2)).symm
  simp only [State.finishing, Bool.or_eq_true, Bool.and_eq_true, beq_iff_eq, decide_eq_true_eq, hslot, Bool.not_eq_true',
    ← Bool.not_eq_true]

/-- Slot 2 ends the half-cycle, or goes on to the first pause (42_bit_slot_timer R507). -/
theorem State.Effect.of_endFirstPulse (harmed : s.timerArmed = true) (hslot : s.slot.toNat = 2) :
    s.Effect .timer s.disarmTimer.endFirstPulse := by
  by_cases hrepeat : s.txOut = true ∧ s.cfg.phases > 1
  · have hstep : s.disarmTimer.endFirstPulse =
        { (s.disarmTimer.setOut false).armTimer (s.cfg.tPhase - s.cfg.tPulse) with slot := s.slot + 1 } := by
      rw [show s.slot = 2 from BitVec.eq_of_toNat_eq hslot]
      exact if_pos hrepeat
    rw [hstep]
    exact .pause harmed (by omega) (by omega) (by omega) (fun _ => hrepeat.1)
  · have hstep : s.disarmTimer.endFirstPulse = s.received := (if_neg hrepeat).trans s.finish_setOut_eq
    exact hstep ▸ .finish harmed (s.finishing_iff.mpr (.inl ⟨hslot, hrepeat⟩))

/-- A later even slot ends the half-cycle at `2*PHASES`, and goes on to the next pause below (42_bit_slot_timer R509). -/
theorem State.Effect.of_endPhasePulse (harmed : s.timerArmed = true) (hlow : 4 ≤ s.slot.toNat)
    (heven : s.slot.toNat % 2 = 0) (hmax : s.slot.toNat ≤ 2 * s.cfg.phases) :
    s.Effect .timer s.disarmTimer.endPhasePulse := by
  by_cases hlast : s.slot.toNat = 2 * s.cfg.phases
  · have hstep : s.disarmTimer.endPhasePulse = s.received := (if_pos hlast).trans s.finish_setOut_eq
    exact hstep ▸ .finish harmed (s.finishing_iff.mpr (.inr ⟨hlow, hlast⟩))
  · have hstep : s.disarmTimer.endPhasePulse =
        { (s.disarmTimer.setOut false).armTimer (s.cfg.tPhase - s.cfg.tPulse) with slot := s.slot + 1 } := if_neg hlast
    rw [hstep]
    exact .pause harmed (by omega) heven (by omega) (by omega)

/-- 42_bit_slot_timer R500. -/
theorem State.Effect.of_execTimer (h : execTimer s = .next t) : s.Effect .timer t := by
  rcases execTimer_cases s with ⟨-, ht⟩ | ⟨-, -, ht⟩ | ⟨ha, h1, hmax, ht⟩ | ⟨ha, h2, -, ht⟩ | ⟨ha, h3, hodd, hmax, ht⟩ |
    ⟨ha, h4, heven, hmax, ht⟩ <;> rw [ht] at h <;> cases h
  · exact .sample ha h1 hmax
  · exact .of_endFirstPulse ha h2
  · exact .pulse ha h3 hodd hmax
  · exact .of_endPhasePulse ha h4 heven hmax

/-- 00_scope R7: an instruction that answers a next state has one of the effects. -/
theorem exec_effect {i : Instr} (h : exec i s = .next t) : s.Effect i t := by
  by_cases hwf : i.wellFormed = false
  · rw [exec_of_not_wellFormed s hwf] at h
    cases h
    obtain ⟨hcmd, hstart⟩ := command_of_not_wellFormed hwf
    exact .answer hcmd hstart _ _
  · cases hq : enqRequest i with
    | some q =>
      rw [exec_of_enqRequest s hq] at h
      cases h
      exact .of_enqueue hq
    | none =>
      unfold enqRequest at hq
      rw [if_neg hwf] at hq
      cases i with
      | enqAddress | enqCommand | enqDimPercent | enqExtDimPercent | enqRawExt => cases hq
      | start => cases h; exact .start
      | getStatus => cases h; exact .answer rfl (by simp) _ _
      | getState => rw [exec_getState, if_neg hwf] at h; cases h; exact .answer rfl (by simp) _ _
      | wipeState house unit =>
        rw [exec_wipeState, if_neg hwf, State.wipe_frame] at h
        cases h
        exact .wipe house unit
      | pctToBright => rw [exec_pctToBright, if_neg hwf] at h; cases h; exact .answer rfl (by simp) _ _
      | brightToPct => rw [exec_brightToPct, if_neg hwf] at h; cases h; exact .answer rfl (by simp) _ _
      | zc => exact .of_execZc h
      | timer => exact .of_execTimer h

/-- What every effect keeps, and the taking of an input and the ILLEGAL answer keep, every step keeps. -/
theorem step_preserves {P : State → Prop} (hpresent : ∀ s x rest, P s → P (s.present x rest))
    (hillegal : ∀ s, P s → P s.respondIllegal) (heffect : ∀ i s t, s.Effect i t → P s → P t) (hs : P s)
    (h : step s = .next t) : P t := by
  cases hport : s.port with
  | nil =>
    rw [step_of_port_nil hport] at h
    cases h
    exact hs
  | cons x rest =>
    have hp := hpresent s x rest hs
    cases hdec : decode x.word with
    | instr i =>
      rw [step_of_decode hport hdec] at h
      exact heffect i _ t (exec_effect h) hp
    | reject e =>
      have hstep : step s = (s.present x rest).undecoded e := by
        rw [step, hport]
        simp only [hdec]
      rw [hstep] at h
      cases e with
      | reservedBits | reservedOpcode => cases h; exact hillegal _ hp
      | noEvent => cases h; exact hp
      | reservedEvent => cases h

/-! ## ENABLE, OVERRUN, the parameters, and what ZC leaves alone -/

/-- 10_state R103, R104; 70_reset_and_hazards R901: no effect writes the parameters, only START writes ENABLE, and only a ZC
that runs writes OVERRUN. -/
theorem State.Effect.control {i : Instr} (h : s.Effect i t) :
    t.cfg = s.cfg ∧ t.enable = (s.enable || decide (i = .start)) ∧
      t.overrun = (s.overrun || (decide (i = .zc) && s.enable && s.slot != 0)) := by
  cases h with
  | answer hcmd hstart =>
    have hzc : i ≠ .zc := by rintro rfl; cases hcmd
    simp [hstart, hzc]
  | overwrite hreq | append hreq =>
    obtain ⟨hcmd, hstart⟩ := command_of_enqRequest hreq
    have hzc : i ≠ .zc := by rintro rfl; cases hcmd
    simp [hstart, hzc, State.respondEnq]
  | start | wipe | sample | pause | pulse => simp
  | ignore henable => simp [henable]
  | listen henable => simp [State.opened, henable]
  | @send sh henable =>
    obtain ⟨a, b, c, d, hbit⟩ := s.opened.nextBitOf_frame s.headSlot.frame sh
    rw [State.driveBit_eq, hbit]
    simp [State.opened, henable]
  | finish =>
    have hframe := s.received_frame
    simp [hframe.cfg, hframe.enable, hframe.overrun, State.ended]

/-- Settles O53: by cases on what the instruction did. -/
theorem enableAndOverrunHaveOneWriter : Obligations.EnableAndOverrunHaveOneWriter :=
  fun _ _ _ h => (exec_effect h).control

theorem State.Effect.cfg {i : Instr} (h : s.Effect i t) : t.cfg = s.cfg := h.control.1

theorem State.Effect.enable {i : Instr} (h : s.Effect i t) : t.enable = (s.enable || decide (i = .start)) := by
  obtain ⟨-, henable, -⟩ := h.control
  exact henable

/-! ## The encoder's writes to the queue -/

/-- What `next_bit` can do: hold, count one half-cycle, or end the repetition (43_frame_encoder R551). -/
theorem State.nextBitOf_cases (s : State) (f : Frame) (sh : Shape) :
    (s.nextBitOf f sh).2 = s ∨
    (s.txCount.toNat + 1 ≠ endCount sh ∧
      (s.nextBitOf f sh).2 = { s with txCount := BitVec.ofNat 8 (s.txCount.toNat + 1) }) ∨
    (s.nextBitOf f sh).2 = s.endOfRepetition f sh := by
  unfold State.nextBitOf
  split
  · exact .inl rfl
  · by_cases hend : s.txCount.toNat + 1 = endCount sh
    · exact .inr (.inr (if_pos hend))
    · exact .inr (.inl ⟨hend, if_neg hend⟩)

theorem State.endOfRepetition_slots (s : State) (f : Frame) (sh : Shape) :
    (s.endOfRepetition f sh).slots = (s.setHeadReps (s.headSlot.reps - 1)).slots := by
  unfold State.endOfRepetition
  dsimp only
  split
  · rfl
  · split <;> rfl

/-- A new repetition count leaves every frame alone (43_frame_encoder R565). -/
theorem State.frame_slotAt_setHeadReps (s : State) (r : BitVec 8) (i : Nat) :
    ((s.setHeadReps r).slotAt i).frame = (s.slotAt i).frame := by
  rw [State.slotAt_setHeadReps]
  split
  · rename_i h
    rw [← h.1]
    rfl
  · rfl

theorem State.slotAt_setHeadReps_other (s : State) (r : BitVec 8) {i : Nat} (h : i ≠ s.qHead) :
    (s.setHeadReps r).slotAt i = s.slotAt i := by
  rw [State.slotAt_setHeadReps, if_neg fun hi => h hi.1.symm]

/-- The encoder changes no frame, and no repetition count but the head's. -/
theorem State.slotAt_nextBitOf (s : State) (f : Frame) (sh : Shape) (i : Nat) :
    ((s.nextBitOf f sh).2.slotAt i).frame = (s.slotAt i).frame ∧
      (i ≠ s.qHead → ((s.nextBitOf f sh).2.slotAt i).reps = (s.slotAt i).reps) := by
  rcases s.nextBitOf_cases f sh with h | ⟨-, h⟩ | h
  · rw [h]
    exact ⟨rfl, fun _ => rfl⟩
  · rw [h]
    exact ⟨rfl, fun _ => rfl⟩
  · have hslot : (s.nextBitOf f sh).2.slotAt i = (s.setHeadReps (s.headSlot.reps - 1)).slotAt i := by
      rw [h, State.slotAt, State.endOfRepetition_slots, State.slotAt]
    rw [hslot]
    exact ⟨s.frame_slotAt_setHeadReps _ i, fun hi => by rw [s.slotAt_setHeadReps_other _ hi]⟩

/-- Settles O40: by cases on what the ZC did; beside the half-cycle's own latches only the encoder writes. -/
theorem zcFrame : Obligations.ZcFrame := by
  intro s t h
  cases exec_effect h with
  | answer hcmd => cases hcmd
  | overwrite hreq | append hreq => cases hreq
  | ignore | listen => exact ⟨rfl, fun i => ⟨rfl, fun _ => rfl⟩, fun k => rfl⟩
  | @send sh =>
    rw [State.driveBit_eq]
    obtain ⟨a, b, c, d, hbit⟩ := s.opened.nextBitOf_frame s.headSlot.frame sh
    exact ⟨by rw [hbit]; rfl, fun i => s.opened.slotAt_nextBitOf _ sh i, fun k => by rw [hbit]; rfl⟩

end Sys2Proof.Machine
end

section
/-! The queue, the frames in it and the repetition in progress (10_state R105 to R110): what an instruction can do to them, and
that `QueueInv`, `FramesInv` and `TxInv` stand it. -/

namespace Sys2Proof.Machine

/-! ## Ring arithmetic (10_state R107, R109) -/

/-- The distance from `h` round a ring of `n`, without the modulus. -/
theorem ring_sub_eq {n h x : Nat} (hh : h < n) (hx : x < n) : (x + n - h) % n = if h ≤ x then x - h else x + n - h := by
  split
  · rw [show x + n - h = x - h + n by omega, Nat.add_mod_right, Nat.mod_eq_of_lt (by omega)]
  · exact Nat.mod_eq_of_lt (by omega)

/-- The next index of a ring of `n`, without the modulus. -/
theorem ring_succ_eq {n x : Nat} (hx : x < n) : (x + 1) % n = if x + 1 = n then 0 else x + 1 := by
  split
  · rename_i h
    rw [h, Nat.mod_self]
  · exact Nat.mod_eq_of_lt (by omega)

/-- The interval `[h, t)` of a ring of `n`, one longer, holds its old end too. -/
theorem ring_interval_succ_end {n h t i : Nat} (hh : h < n) (ht : t < n) (hi : i < n) (hroom : (t + 1) % n ≠ h) :
    (i + n - h) % n < ((t + 1) % n + n - h) % n ↔ (i + n - h) % n < (t + n - h) % n ∨ i = t := by
  have hlt : (t + 1) % n < n := Nat.mod_lt _ (by omega)
  rw [ring_sub_eq hh hlt, ring_sub_eq hh hi, ring_sub_eq hh ht]
  rw [ring_succ_eq ht] at hroom ⊢
  split_ifs at hroom ⊢ <;> omega

/-- The interval begun one later holds its old first index no more. -/
theorem ring_interval_succ_start {n h t i : Nat} (hh : h < n) (ht : t < n) (hi : i < n) (hne : h ≠ t) :
    (i + n - (h + 1) % n) % n < (t + n - (h + 1) % n) % n ↔ (i + n - h) % n < (t + n - h) % n ∧ i ≠ h := by
  have hlt : (h + 1) % n < n := Nat.mod_lt _ (by omega)
  rw [ring_sub_eq hlt hi, ring_sub_eq hlt ht, ring_sub_eq hh hi, ring_sub_eq hh ht, ring_succ_eq hh]
  split_ifs <;> omega

variable {s t : State}

/-! ## What an instruction can do to the queue -/

/-- The same queue, with the same repetition in progress. -/
structure State.QueueFrame (s t : State) : Prop where
  cfg : t.cfg = s.cfg
  slots : t.slots = s.slots
  qHead : t.qHead = s.qHead
  qTail : t.qTail = s.qTail
  txCount : t.txCount = s.txCount

/-- The five things that can happen to a queue, each up to the elements the queue does not see. -/
inductive State.QueueMove (s t : State) : Prop
  | keep (hframe : s.QueueFrame t)
  /-- The head's count, made another one that is not 0: coalesced, or one less at the end of a repetition. -/
  | recount (r : BitVec 8) (c : BitVec 8) (hr : 1 ≤ r.toNat) (hhead : 1 ≤ s.headSlot.reps.toNat)
      (hc : c = 0 ∨ c = s.txCount) (hframe : { s.setHeadReps r with txCount := c }.QueueFrame t)
  | append (f : Frame) (r : BitVec 8) (x : Bool) (hr : 1 ≤ r.toNat) (hf : producedFrame f = true)
      (hroom : s.qFull = false) (hframe : (s.append f r x).QueueFrame t)
  /-- One more half-cycle of the repetition in progress. -/
  | advance (sh : Shape) (hsome : s.qHead ≠ s.qTail) (hshape : frameShape s.headSlot.frame = some sh)
      (hcount : s.txCount.toNat + 1 ≠ endCount sh)
      (hframe : { s with txCount := BitVec.ofNat 8 (s.txCount.toNat + 1) }.QueueFrame t)
  | retire (hsome : s.qHead ≠ s.qTail) (hframe : { (s.setHeadReps 0).retire with txCount := 0 }.QueueFrame t)

/-- A well-formed enqueue asks for at least one repetition (30_encoding R333). -/
theorem enqRequest_reps_pos {i : Instr} {f : Frame} {reps : BitVec 8} {ctx : Bool}
    (h : enqRequest i = some (f, reps, ctx)) : 1 ≤ reps.toNat := by
  have hwf := wellFormed_of_enqRequest h
  unfold enqRequest at h
  rw [if_neg (by simp [hwf])] at h
  cases i with
  | enqAddress | enqCommand | enqDimPercent | enqExtDimPercent | enqRawExt =>
    cases h
    simp only [Instr.wellFormed, repsOk, Bool.and_eq_true, decide_eq_true_eq] at hwf
    tauto
  | _ => cases h

theorem producedFrame_standardFrame (h : BitVec 4) (u : BitVec 5) {c : Nibble} (hp : Nibble) (hc : isExtCmd c = false) :
    producedFrame (standardFrame h u c hp) = true := by
  obtain ⟨-, -, h23, -, hcmd, h14, hzero, htag⟩ := standardFrame_layout h u c hp
  have hshape : frameShape (standardFrame h u c hp) = some .standard := congrArg shapeOfTag htag
  simp only [producedFrame, hshape, h23, h14, hzero, hcmd, hc]
  rfl

theorem producedFrame_commandOnlyFrame (hf : Nibble) {c : Nibble} (hc : isExtCmd c = false) :
    producedFrame (commandOnlyFrame hf c) = true := by
  obtain ⟨-, hcmd, h23, hzero, htag⟩ := commandOnlyFrame_layout hf c
  have hshape : frameShape (commandOnlyFrame hf c) = some .commandOnly := congrArg shapeOfTag htag
  simp only [producedFrame, hshape, h23, hzero, frameKey1, hcmd, hc]
  rfl

theorem producedFrame_extendedFrame (h : BitVec 4) (u : BitVec 5) {c : Nibble} (xd xc : Byte) (hc : isExtCmd c = true) :
    producedFrame (extendedFrame h u c xd xc) = true := by
  obtain ⟨-, hcmd, h23, -, -, -, htag⟩ := extendedFrame_layout h u c xd xc
  have hshape : frameShape (extendedFrame h u c xd xc) = some .extended := congrArg shapeOfTag htag
  simp only [producedFrame, hshape, h23, frameKey1, hcmd, hc]
  rfl

theorem producedFrame_addressFrame (h : BitVec 4) (u : BitVec 5) : producedFrame (addressFrame h u) = true := by
  obtain ⟨-, -, h23, hzero, htag⟩ := addressFrame_layout h u
  have hshape : frameShape (addressFrame h u) = some .addressOnly := congrArg shapeOfTag htag
  simp only [producedFrame, hshape, h23, hzero]
  rfl

/-- 30_encoding R317: `build` produces. -/
theorem producedFrame_buildFrame (h : BitVec 4) (u : BitVec 5) (c : Nibble) (xd xc : Byte) (hp : Option Nibble) :
    producedFrame (buildFrame h u c xd xc hp) = true := by
  unfold buildFrame
  cases hc : isExtCmd c
  · by_cases hu : u = 0
    · simp only [hu, if_true, Bool.false_eq_true, if_false]
      exact producedFrame_commandOnlyFrame _ hc
    · simp only [hu, Bool.false_eq_true, if_false]
      exact producedFrame_standardFrame _ _ _ hc
  · exact producedFrame_extendedFrame _ _ _ _ hc

/-- A well-formed enqueue asks for a produced frame (30_encoding R316). -/
theorem enqRequest_producedFrame {i : Instr} {f : Frame} {reps : BitVec 8} {ctx : Bool}
    (h : enqRequest i = some (f, reps, ctx)) : producedFrame f = true := by
  have hwf := wellFormed_of_enqRequest h
  unfold enqRequest at h
  rw [if_neg (by simp [hwf])] at h
  cases i with
  | enqAddress => cases h; exact producedFrame_addressFrame _ _
  | enqCommand | enqDimPercent => cases h; exact producedFrame_buildFrame _ _ _ _ _ _
  | enqExtDimPercent => cases h; exact producedFrame_extendedFrame _ _ _ _ (by decide)
  | enqRawExt =>
    cases h
    split
    · exact producedFrame_extendedFrame _ _ _ _ ‹_›
    · exact producedFrame_buildFrame _ _ _ _ _ _
  | _ => cases h

/-- The encoder moves the queue of an entry that may be sent (43_frame_encoder R551, R565, R566). -/
theorem State.QueueMove.of_nextBitOf {sh : Shape} (hready : s.mayTransmit) (hl : s.qHead < s.slots.length)
    (hshape : frameShape s.headSlot.frame = some sh) : s.QueueMove (s.nextBitOf s.headSlot.frame sh).2 := by
  obtain ⟨hsome, hreps, -⟩ := hready
  rcases s.nextBitOf_cases s.headSlot.frame sh with h | ⟨hcount, h⟩ | h <;> rw [h]
  · exact .keep ⟨rfl, rfl, rfl, rfl, rfl⟩
  · exact .advance sh hsome hshape hcount ⟨rfl, rfl, rfl, rfl, rfl⟩
  · have hpos : s.headSlot.reps ≠ 1#8 → 1 ≤ (s.headSlot.reps - 1).toNat := by
      change 1 ≤ s.headSlot.reps.toNat at hreps
      bv_omega
    rcases s.endOfRepetition_cases s.headSlot.frame sh hl with ⟨-, h⟩ | ⟨hne, -, h⟩ | ⟨hne, -, h⟩ <;> rw [h]
    · exact .retire hsome ⟨rfl, rfl, rfl, rfl, rfl⟩
    · exact .recount _ 0 (hpos hne) hreps (.inl rfl) ⟨rfl, rfl, rfl, rfl, rfl⟩
    · exact .recount _ 0 (hpos hne) hreps (.inl rfl) ⟨rfl, rfl, rfl, rfl, rfl⟩

/-- A move seen from a state with the same queue. -/
theorem State.QueueMove.congr {u : State} (h : s.QueueMove t) (hframe : t.QueueFrame u) : s.QueueMove u := by
  have trans : ∀ {r : State}, r.QueueFrame t → r.QueueFrame u := fun ⟨h1, h2, h3, h4, h5⟩ =>
    ⟨hframe.cfg.trans h1, hframe.slots.trans h2, hframe.qHead.trans h3, hframe.qTail.trans h4, hframe.txCount.trans h5⟩
  cases h with
  | keep h => exact .keep (trans h)
  | recount r c hr hhead hc h => exact .recount r c hr hhead hc (trans h)
  | append f r x hr hf hroom h => exact .append f r x hr hf hroom (trans h)
  | advance sh hsome hshape hcount h => exact .advance sh hsome hshape hcount (trans h)
  | retire hsome h => exact .retire hsome (trans h)

/-- Every effect is one of the moves, seen from a state with the same queue: the half-cycle just opened for a ZC that sends. -/
theorem State.Effect.queueMove {i : Instr} (h : s.Effect i t) (hl : s.qHead < s.slots.length) :
    ∃ z, s.QueueFrame z ∧ z.QueueMove t := by
  have self : s.QueueFrame s := ⟨rfl, rfl, rfl, rfl, rfl⟩
  cases h with
  | answer | start | wipe | ignore | listen | sample | pause | pulse => exact ⟨s, self, .keep ⟨rfl, rfl, rfl, rfl, rfl⟩⟩
  | overwrite hreq hhead =>
    exact ⟨s, self, .recount _ s.txCount (enqRequest_reps_pos hreq) hhead (.inr rfl) ⟨rfl, rfl, rfl, rfl, rfl⟩⟩
  | append hreq hroom =>
    exact ⟨s, self, .append _ _ ‹Bool› (enqRequest_reps_pos hreq) (enqRequest_producedFrame hreq) hroom
      ⟨rfl, rfl, rfl, rfl, rfl⟩⟩
  | @send sh henable hready hshape =>
    have hbit : s.opened.QueueMove (s.opened.nextBitOf s.headSlot.frame sh).2 :=
      .of_nextBitOf ((State.txReady_iff s.opened).mp hready) hl hshape
    refine ⟨s.opened, ⟨rfl, rfl, rfl, rfl, rfl⟩, ?_⟩
    rw [State.driveBit_eq]
    exact hbit.congr ⟨rfl, rfl, rfl, rfl, rfl⟩
  | finish =>
    have hf := s.received_frame
    exact ⟨s, self, .keep ⟨hf.cfg, hf.slots, hf.qHead, hf.qTail, hf.txCount⟩⟩

/-! ## The queue invariant (10_state R109) -/

theorem State.QueueFrame.queueInv (h : s.QueueFrame t) (hs : s.QueueInv) : t.QueueInv := by
  obtain ⟨hcfg, hslots, hhead, htail, -⟩ := h
  simpa only [State.QueueInv, State.queued, State.qLen, State.slotAt, hcfg, hslots, hhead, htail] using hs

/-- The head may get any count that is not 0. -/
theorem State.QueueInv.setHeadReps {r : BitVec 8} (hs : s.QueueInv) (hr : 1 ≤ r.toNat)
    (hold : 1 ≤ s.headSlot.reps.toNat) : (s.setHeadReps r).QueueInv := by
  obtain ⟨hlen, hhead, htail, hreps⟩ := hs
  refine ⟨by simpa using hlen, hhead, htail, fun i hi => ?_⟩
  by_cases hi0 : s.qHead = i
  · subst hi0
    rw [State.slotAt_setHeadReps, if_pos ⟨rfl, by omega⟩]
    exact iff_of_true ((hreps s.qHead hhead).mpr hold) hr
  · rw [State.slotAt_setHeadReps_other s r (Ne.symm hi0)]
    exact hreps i hi

theorem State.QueueInv.append {f : Frame} {r : BitVec 8} {x : Bool} (hs : s.QueueInv) (hr : 1 ≤ r.toNat)
    (hroom : s.qFull = false) : (s.append f r x).QueueInv := by
  obtain ⟨hlen, hhead, htail, hreps⟩ := hs
  have hnext : (s.qTail + 1) % s.cfg.n ≠ s.qHead := by simpa [State.qFull] using hroom
  refine ⟨by simpa using hlen, hhead, Nat.mod_lt _ (by omega), fun i hi => ?_⟩
  refine (ring_interval_succ_end hhead htail hi hnext).trans ?_
  rw [State.slotAt_append]
  by_cases hit : s.qTail = i
  · rw [if_pos ⟨hit, by omega⟩]
    exact iff_of_true (.inr hit.symm) hr
  · rw [if_neg fun h => hit h.1]
    rw [or_iff_left (Ne.symm hit)]
    exact hreps i hi

/-- An entry whose count has reached 0 leaves the queue (43_frame_encoder R566). -/
theorem State.QueueInv.retire (hs : s.QueueInv) (hsome : s.qHead ≠ s.qTail) : (s.setHeadReps 0).retire.QueueInv := by
  obtain ⟨hlen, hhead, htail, hreps⟩ := hs
  refine ⟨by simpa using hlen, Nat.mod_lt _ (Nat.zero_lt_of_lt hhead), htail, fun i hi => ?_⟩
  refine (ring_interval_succ_start hhead htail hi hsome).trans ?_
  change _ ↔ 1 ≤ ((s.setHeadReps 0).slotAt i).reps.toNat
  rw [State.slotAt_setHeadReps]
  by_cases hi0 : s.qHead = i
  · rw [if_pos ⟨hi0, by omega⟩]
    simp [hi0]
  · rw [if_neg fun h => hi0 h.1]
    rw [and_iff_left (Ne.symm hi0)]
    exact hreps i hi

theorem State.QueueMove.queueInv (h : s.QueueMove t) (hs : s.QueueInv) : t.QueueInv := by
  cases h with
  | keep hframe => exact hframe.queueInv hs
  | recount r c hr hhead hc hframe => exact hframe.queueInv (hs.setHeadReps hr hhead)
  | append f r x hr hf hroom hframe => exact hframe.queueInv (hs.append hr hroom)
  | advance sh hsome hshape hcount hframe => exact hframe.queueInv hs
  | retire hsome hframe => exact hframe.queueInv (hs.retire hsome)

theorem State.QueueInv.head_lt_length (hs : s.QueueInv) : s.qHead < s.slots.length := by
  obtain ⟨hlen, hhead, -⟩ := hs
  rwa [hlen]

theorem State.Effect.queueInv {i : Instr} (h : s.Effect i t) (hs : s.QueueInv) : t.QueueInv := by
  obtain ⟨z, hframe, hmove⟩ := h.queueMove hs.head_lt_length
  exact hmove.queueInv (hframe.queueInv hs)

/-- Settles O47: every move keeps repetitions exactly in the ring interval. -/
theorem stepKeepsTheQueueInvariant : Obligations.StepKeepsTheQueueInvariant :=
  fun _ _ _ hs h => step_preserves (P := State.QueueInv) (fun _ _ _ hp => hp) (fun _ hp => hp)
    (fun _ _ _ heff hp => heff.queueInv hp) hs h

/-! ## The frames (10_state R105; 30_encoding R316) -/

theorem State.QueueFrame.framesInv (h : s.QueueFrame t) (hs : s.FramesInv) : t.FramesInv := by
  obtain ⟨hcfg, hslots, hhead, htail, -⟩ := h
  simpa only [State.FramesInv, State.queued, State.qLen, State.slotAt, hcfg, hslots, hhead, htail] using hs

theorem State.FramesInv.setHeadReps (hs : s.FramesInv) (r : BitVec 8) : (s.setHeadReps r).FramesInv := by
  intro i hi
  rw [State.frame_slotAt_setHeadReps]
  exact hs i hi

theorem State.FramesInv.append {f : Frame} {r : BitVec 8} {x : Bool} (hs : s.FramesInv) (hq : s.QueueInv)
    (hf : producedFrame f = true) (hroom : s.qFull = false) : (s.append f r x).FramesInv := by
  obtain ⟨hlen, hhead, htail, -⟩ := hq
  have hnext : (s.qTail + 1) % s.cfg.n ≠ s.qHead := by simpa [State.qFull] using hroom
  intro i hi
  rw [State.slotAt_append]
  by_cases hit : s.qTail = i
  · rw [if_pos ⟨hit, by omega⟩]
    exact ⟨.inr hf, fun _ => hf⟩
  · rw [if_neg fun h => hit h.1]
    refine ⟨(hs i hi).1, fun hqueued => (hs i hi).2 ?_⟩
    exact ((ring_interval_succ_end hhead htail hi hnext).mp hqueued).resolve_right (Ne.symm hit)

theorem State.FramesInv.retire (hs : s.FramesInv) (hhead : s.qHead < s.cfg.n) (htail : s.qTail < s.cfg.n)
    (hsome : s.qHead ≠ s.qTail) : s.retire.FramesInv := by
  intro i hi
  exact ⟨(hs i hi).1, fun hqueued => (hs i hi).2 ((ring_interval_succ_start hhead htail hi hsome).mp hqueued).1⟩

theorem State.QueueMove.framesInv (h : s.QueueMove t) (hq : s.QueueInv) (hs : s.FramesInv) : t.FramesInv := by
  cases h with
  | keep hframe => exact hframe.framesInv hs
  | recount r c hr hhead hc hframe => exact hframe.framesInv (hs.setHeadReps r)
  | append f r x hr hf hroom hframe => exact hframe.framesInv (hs.append hq hf hroom)
  | advance sh hsome hshape hcount hframe => exact hframe.framesInv hs
  | retire hsome hframe =>
    obtain ⟨-, hhead, htail, -⟩ := hq
    exact hframe.framesInv ((hs.setHeadReps 0).retire hhead htail hsome)

theorem State.Effect.framesInv {i : Instr} (h : s.Effect i t) (hq : s.QueueInv) (hs : s.FramesInv) : t.FramesInv := by
  obtain ⟨z, hframe, hmove⟩ := h.queueMove hq.head_lt_length
  exact hmove.framesInv (hframe.queueInv hq) (hframe.framesInv hs)

/-! ## The repetition in progress (10_state R110) -/

theorem State.QueueFrame.txInv (h : s.QueueFrame t) (hs : s.TxInv) : t.TxInv := by
  obtain ⟨-, hslots, hhead, htail, hcount⟩ := h
  simpa only [State.TxInv, State.qEmpty, State.headSlot, State.slotAt, hslots, hhead, htail, hcount] using hs

/-- The head entry's count is not the repetition's business. -/
theorem State.TxInv.setHeadReps (hs : s.TxInv) (r : BitVec 8) : (s.setHeadReps r).TxInv := by
  have hframe : (s.setHeadReps r).headSlot.frame = s.headSlot.frame := s.frame_slotAt_setHeadReps r s.qHead
  rw [State.TxInv, hframe]
  exact hs

/-- An append does not touch the head of a queue that sends. -/
theorem State.TxInv.append {f : Frame} {r : BitVec 8} {x : Bool} (hs : s.TxInv) (hroom : s.qFull = false) :
    (s.append f r x).TxInv := by
  refine hs.imp id fun ⟨hsome, hcount⟩ => ⟨?_, ?_⟩
  · exact BEq.comm.trans hroom
  · have hne : s.qTail ≠ s.qHead := by
      intro h
      simp [State.qEmpty, h] at hsome
    have hhead : (s.append f r x).headSlot = s.headSlot := by
      rw [State.headSlot, State.slotAt_append, if_neg fun h => hne h.1]
      rfl
    rw [hhead]
    exact hcount

theorem State.TxInv.advance {sh : Shape} (hs : s.TxInv) (hsome : s.qHead ≠ s.qTail)
    (hshape : frameShape s.headSlot.frame = some sh) (hcount : s.txCount.toNat + 1 ≠ endCount sh) :
    { s with txCount := BitVec.ofNat 8 (s.txCount.toNat + 1) }.TxInv := by
  have hend : 22 ≤ endCount sh ∧ endCount sh ≤ 62 := by cases sh <;> decide
  have hlt : s.txCount.toNat < endCount sh := by
    rcases hs with h0 | ⟨-, h⟩
    · rw [h0]
      simp only [BitVec.ofNat_eq_ofNat, BitVec.toNat_ofNat]
      omega
    · simpa [hshape] using h
  refine .inr ⟨by simpa [State.qEmpty] using hsome, ?_⟩
  change (frameShape s.headSlot.frame).any _ = true
  rw [hshape]
  simp only [Option.any_some, BitVec.toNat_ofNat, decide_eq_true_eq]
  omega

theorem State.QueueMove.txInv (h : s.QueueMove t) (hs : s.TxInv) : t.TxInv := by
  cases h with
  | keep hframe => exact hframe.txInv hs
  | recount r c hr hhead hc hframe =>
    refine hframe.txInv ?_
    rcases hc with rfl | rfl
    · exact .inl rfl
    · exact hs.setHeadReps r
  | append f r x hr hf hroom hframe => exact hframe.txInv (hs.append hroom)
  | advance sh hsome hshape hcount hframe => exact hframe.txInv (hs.advance hsome hshape hcount)
  | retire hsome hframe => exact hframe.txInv (.inl rfl)

theorem State.Effect.txInv {i : Instr} (h : s.Effect i t) (hq : s.QueueInv) (hs : s.TxInv) : t.TxInv := by
  obtain ⟨z, hframe, hmove⟩ := h.queueMove hq.head_lt_length
  exact hmove.txInv (hframe.txInv hs)

end Sys2Proof.Machine
end

section
/-! The receiver (10_state R115 to R123; 44_frame_decoder R606, R612, R615): what a checkpoint and the end of a message leave, and
that `RxInv` stands every instruction. -/

namespace Sys2Proof.Machine

variable {s t : State}

/-! ## The decoder's operations, field by field -/

/-- 44_frame_decoder R606: the valid bits each checkpoint sets. The extended ones are set only once an extended command is. -/
theorem State.checkpoint_valid (s : State) (c : Nat) :
    (s.checkpoint c).rx.cmdValid = (s.rx.cmdValid || decide (c = 22 ∧ s.rx.buf.getLsbD 0 = true)) ∧
    (s.checkpoint c).rx.cmd = (if c = 22 ∧ s.rx.buf.getLsbD 0 = true then s.rx.key else s.rx.cmd) ∧
    (s.checkpoint c).rx.xunitValid =
      (s.rx.xunitValid || decide (c = 30 ∧ s.rx.cmdValid = true ∧ isExtCmd s.rx.cmd = true)) ∧
    (s.checkpoint c).rx.dataValid =
      (s.rx.dataValid || decide (c = 46 ∧ s.rx.cmdValid = true ∧ isExtCmd s.rx.cmd = true)) ∧
    (s.checkpoint c).rx.xcmdValid =
      (s.rx.xcmdValid || decide (c = 62 ∧ s.rx.cmdValid = true ∧ isExtCmd s.rx.cmd = true)) := by
  unfold State.checkpoint State.addressBlock State.commandBlock
  split_ifs <;> simp_all

/-- A checkpoint leaves the count and the detector alone, and any pending address it latches is valid (44_frame_decoder R607). -/
theorem State.checkpoint_receiver (s : State) (c : Nat) :
    (s.checkpoint c).rx.active = s.rx.active ∧ (s.checkpoint c).rx.count = s.rx.count ∧
      (s.checkpoint c).onesCount = s.onesCount ∧
      ((s.checkpoint c).addr = s.addr ∨ (s.checkpoint c).addr.valid = true) := by
  unfold State.checkpoint State.addressBlock State.commandBlock
  split_ifs <;> simp

@[simp] theorem State.deliver_onesCount (s : State) (r : Resolved) (n : BitVec 8) :
    (s.deliver r n).onesCount = s.onesCount := by
  rw [State.deliver_eq]
  split <;> simp

/-- 44_frame_decoder R612, R613, R615: a message ends with the accumulator cleared and the pending address kept or cleared. -/
theorem State.endOfMessage_receiver (s : State) (n : BitVec 8) :
    (s.endOfMessage n).rx = {} ∧ (s.endOfMessage n).onesCount = s.onesCount ∧
      ((s.endOfMessage n).addr = s.addr ∨ (s.endOfMessage n).addr = {}) := by
  rcases s.endOfMessage_cases n with ⟨-, h⟩ | ⟨-, -, h⟩ | ⟨r, -, -, h⟩ <;> rw [h]
  · exact ⟨rfl, rfl, .inl rfl⟩
  · exact ⟨rfl, rfl, .inr rfl⟩
  · exact ⟨rfl, by simp, .inr rfl⟩

/-! ## The receiver invariant -/

/-- A cleared accumulator needs only the detector and the pending address in range. -/
theorem State.RxInv.of_cleared (hones : s.onesCount.toNat ≤ 4) (hrx : s.rx = {})
    (haddr : s.addr.valid = false → s.addr = {}) : s.RxInv := by
  rw [State.RxInv, hrx]
  exact ⟨hones, fun _ => rfl, nofun, nofun, by simp, by simp, rfl, haddr⟩

theorem State.RxInv.endOfMessage (haddr : s.addr.valid = false → s.addr = {}) (hones : s.onesCount.toNat ≤ 4)
    (n : BitVec 8) : (s.endOfMessage n).RxInv := by
  obtain ⟨hrx, hones', haddr'⟩ := s.endOfMessage_receiver n
  refine .of_cleared (by rwa [hones']) hrx ?_
  rcases haddr' with h | h <;> rw [h]
  · exact haddr
  · exact fun _ => rfl

theorem State.RxInv.detect (hs : s.RxInv) (hidle : s.rx.active = false) (b : Bool) : (s.detect b).RxInv := by
  obtain ⟨hones, hcleared, -, -, -, -, -, haddr⟩ := hs
  have hrx := hcleared hidle
  rcases s.detect_cases b with ⟨-, h⟩ | ⟨-, -, h⟩ | ⟨-, -, h⟩ <;> rw [h]
  · refine .of_cleared ?_ hrx haddr
    simp only [BitVec.toNat_ofNat]
    omega
  · exact ⟨by simp, nofun, fun _ => ⟨rfl, by simp, by simp⟩, nofun, by simp, by simp, rfl, haddr⟩
  · exact .of_cleared (by simp) hrx haddr

/-- A checkpoint at `T` past the command's sets its valid bit exactly when the count reaches it with an extended command. -/
theorem checkpoint_valid_iff {T c : Nat} {v cmdValid bit : Bool} {cmd key : Nibble} (hT : 22 < T)
    (hv : v = true ↔ cmdValid = true ∧ isExtCmd cmd = true ∧ T ≤ c) :
    (v || decide (c + 1 = T ∧ cmdValid = true ∧ isExtCmd cmd = true)) = true ↔
      (cmdValid || decide (c + 1 = 22 ∧ bit = true)) = true ∧
        isExtCmd (if c + 1 = 22 ∧ bit = true then key else cmd) = true ∧ T ≤ c + 1 := by
  by_cases h22 : c + 1 = 22 ∧ bit = true
  · have hlow : ¬T ≤ c := by omega
    have hlow' : ¬T ≤ c + 1 := by omega
    have hne : c + 1 ≠ T := by omega
    simp [hv, hlow, hlow', hne]
  · rw [if_neg h22]
    simp only [Bool.or_eq_true, hv, decide_eq_true_eq, h22, or_false]
    constructor
    · rintro (⟨h1, h2, h3⟩ | ⟨h1, h2, h3⟩)
      · exact ⟨h1, h2, by omega⟩
      · exact ⟨h2, h3, by omega⟩
    · rintro ⟨h1, h2, h3⟩
      by_cases hT' : c + 1 = T
      · exact .inr ⟨hT', h1, h2⟩
      · exact .inl ⟨h1, h2, by omega⟩

/-- A receive step short of the message's end: one more half-cycle, and its checkpoint's valid bit. -/
theorem State.RxInv.accept (hs : s.RxInv) (hactive : s.rx.active = true) (hlast : s.rx.count.toNat + 1 ≠ 62) :
    (s.counted.acceptBit.checkpoint (s.rx.count.toNat + 1)).RxInv := by
  obtain ⟨hones, -, hrange, hcmd, hxunit, hdata, hxcmd, haddr⟩ := hs
  obtain ⟨hrest, hlow, hhigh⟩ := hrange hactive
  obtain ⟨hact', hcount', hones', haddr'⟩ := s.counted.acceptBit.checkpoint_receiver (s.rx.count.toNat + 1)
  obtain ⟨hcv', hcmd', hxu', hdv', hxc'⟩ := s.counted.acceptBit.checkpoint_valid (s.rx.count.toNat + 1)
  have hcount : (s.counted.acceptBit.rx.count).toNat = s.rx.count.toNat + 1 := by
    show (BitVec.ofNat 8 (s.rx.count.toNat + 1)).toNat = _
    simp only [BitVec.toNat_ofNat]
    omega
  rw [State.RxInv, hact', hcount', hones', hcv', hcmd', hxu', hdv', hxc', hcount]
  refine ⟨hones, fun h => absurd (hactive.symm.trans h) Bool.noConfusion, fun _ => ⟨hrest, by omega, by omega⟩, ?_,
    checkpoint_valid_iff (by omega) hxunit, checkpoint_valid_iff (by omega) hdata, ?_, ?_⟩
  · simp only [Bool.or_eq_true, decide_eq_true_eq]
    rintro (h | ⟨h, -⟩)
    · exact (hcmd h).trans (Nat.le_succ _)
    · omega
  · rw [show s.counted.acceptBit.rx.xcmdValid = false from hxcmd]
    simp [hlast]
  · rcases haddr' with h | h
    · rw [h]
      exact haddr
    · exact fun h' => absurd (h.symm.trans h') Bool.noConfusion

/-- The raw half of a pair is only latched: its count is odd, and so no checkpoint (44_frame_decoder R602). -/
theorem State.RxInv.latch (hs : s.RxInv) (hactive : s.rx.active = true) (hodd : (s.rx.count.toNat + 1) % 2 = 1) (b : Bool) :
    { s.counted with rx := { s.counted.rx with raw := b } }.RxInv := by
  obtain ⟨hones, -, hrange, hcmd, hxunit, hdata, hxcmd, haddr⟩ := hs
  obtain ⟨hrest, hlow, hhigh⟩ := hrange hactive
  have hcount : (BitVec.ofNat 8 (s.rx.count.toNat + 1)).toNat = s.rx.count.toNat + 1 := by
    simp only [BitVec.toNat_ofNat]
    omega
  have heven : ∀ T, T % 2 = 0 → (T ≤ s.rx.count.toNat ↔ T ≤ s.rx.count.toNat + 1) := by omega
  simp only [State.RxInv, State.counted, hcount, ← heven 22 rfl, ← heven 30 rfl, ← heven 46 rfl]
  exact ⟨hones, fun h => absurd (hactive.symm.trans h) Bool.noConfusion, fun _ => ⟨hrest, by omega, by omega⟩, hcmd, hxunit,
    hdata, hxcmd, haddr⟩

theorem State.RxInv.rxStep (hs : s.RxInv) (hactive : s.rx.active = true) (b : Bool) : (s.rxStep b).RxInv := by
  have ⟨hones, _, _, _, _, _, _, haddr⟩ := hs
  rw [State.rxStep_eq]
  split
  · exact hs.latch hactive ‹_› b
  · split
    · obtain ⟨hrx, -, haddr'⟩ := s.counted.endOfMessage_receiver (BitVec.ofNat 8 (s.rx.count.toNat + 1 - 2))
      have hseed : (if b then 2 else 0 : BitVec 3).toNat ≤ 4 := by cases b <;> decide
      refine .of_cleared hseed hrx ?_
      rcases haddr' with h | h
      · exact fun hv => h.trans (haddr ((congrArg PendingAddr.valid h).symm.trans hv))
      · exact fun _ => h
    · obtain ⟨-, -, hones', haddr'⟩ := s.counted.acceptBit.checkpoint_receiver (s.rx.count.toNat + 1)
      split
      · refine .endOfMessage ?_ (by rw [hones']; exact hones) 62
        rcases haddr' with h | h
        · rw [h]
          exact haddr
        · exact fun h' => absurd (h.symm.trans h') Bool.noConfusion
      · exact hs.accept hactive ‹_›

/-- A finish gives its sample to the decoder while a message is received, else to the detector (42_bit_slot_timer R513). -/
theorem State.received_cases (s : State) :
    (s.rx.active = true ∧ s.received = s.ended.rxStep s.inLatch) ∨
    (s.rx.active = false ∧ s.received = s.ended.detect s.inLatch) := by
  unfold State.received
  cases s.rx.active
  · exact .inr ⟨rfl, rfl⟩
  · exact .inl ⟨rfl, rfl⟩

theorem State.RxInv.received (hs : s.RxInv) : s.received.RxInv := by
  have hended : s.ended.RxInv := hs
  rcases s.received_cases with ⟨hactive, h⟩ | ⟨hidle, h⟩ <;> rw [h]
  · exact hended.rxStep hactive s.inLatch
  · exact hended.detect hidle s.inLatch

theorem State.Effect.rxInv {i : Instr} (h : s.Effect i t) (hs : s.RxInv) : t.RxInv := by
  cases h with
  | answer | start | overwrite | append | wipe | ignore | listen | sample | pause | pulse => exact hs
  | @send sh =>
    obtain ⟨a, b, c, d, hbit⟩ := s.opened.nextBitOf_frame s.headSlot.frame sh
    rw [State.driveBit_eq, hbit]
    exact hs
  | finish => exact hs.received

/-- Settles O49: only the finish step touches the receiver, and every branch of it leaves the receiver in range. -/
theorem stepKeepsTheReceiverInvariant : Obligations.StepKeepsTheReceiverInvariant :=
  fun _ _ hs h => step_preserves (P := State.RxInv) (fun _ _ _ hp => hp) (fun _ hp => hp)
    (fun _ _ _ heff hp => heff.rxInv hp) hs h

end Sys2Proof.Machine
end

section
/-! The rest of the invariant: timer (42_bit_slot_timer R511, R512), module memory (20_memory R200 to R205), records
(44_frame_decoder R630) and the silence of a core not yet started (10_state R103); with them, the whole. -/

namespace Sys2Proof.Machine

variable {s t : State}

/-! ## Timer and output (42_bit_slot_timer R507 to R512; 41_zero_cross R454) -/

/-- Outside a half-cycle everything is at rest. -/
theorem State.TimerInv.of_idle (hslot : s.slot = 0) (harmed : s.timerArmed = false) (hout : s.outLevel = false) :
    s.TimerInv := by
  rw [State.TimerInv, hslot, harmed, hout]
  simp

/-- A half-cycle just opened has its output low: an overrun drops it, and an idle core never drives it. -/
theorem State.opened_outLevel (hs : s.TimerInv) : s.opened.outLevel = false := by
  obtain ⟨-, -, -, hout⟩ := hs
  by_cases h0 : s.slot = 0
  · have : s.outLevel = false := by simpa [h0] using hout
    simp [State.opened, this]
  · show (s.outLevel && s.slot == 0) = false
    rw [beq_eq_false_iff_ne.mpr h0, Bool.and_false]

/-- At slot 1 the output follows the bit latched (41_zero_cross R454). -/
theorem State.TimerInv.of_slot_one (hphases : 1 ≤ s.cfg.phases) (hslot : s.slot = 1) (harmed : s.timerArmed = true)
    (hout : s.outLevel = s.txOut) : s.TimerInv := by
  rw [State.TimerInv, hslot, harmed, hout]
  simp
  omega

/-- From slot 3 on the output is high exactly in the even sub-states (42_bit_slot_timer R508, R509). -/
theorem State.TimerInv.of_repeat (hlow : 3 ≤ s.slot.toNat) (hmax : s.slot.toNat ≤ 2 * s.cfg.phases)
    (harmed : s.timerArmed = true) (htx : s.txOut = true) (hout : s.outLevel = decide (s.slot.toNat % 2 = 0)) :
    s.TimerInv := by
  have hne : ∀ k : BitVec 4, k.toNat < 3 → s.slot ≠ k := by
    rintro k hk rfl
    omega
  have h0 := hne 0 (by decide)
  have h1 := hne 1 (by decide)
  have h2 := hne 2 (by decide)
  rw [State.TimerInv, harmed, htx, hout, decide_eq_true_eq]
  refine ⟨hmax, by simpa using h0, fun _ => rfl, fun h => .inr ⟨by omega, h⟩, ?_⟩
  rintro (⟨h | h, -⟩ | ⟨-, h⟩)
  · exact absurd h h1
  · exact absurd h h2
  · exact h

theorem slot_succ_toNat {k : BitVec 4} (h : k.toNat < 15) : (k + 1).toNat = k.toNat + 1 := by
  rw [BitVec.toNat_add]
  simp only [BitVec.ofNat_eq_ofNat, BitVec.toNat_ofNat]
  omega

theorem State.Effect.timerInv {i : Instr} (h : s.Effect i t) (hl : s.cfg.Legal) (hs : s.TimerInv) : t.TimerInv := by
  obtain ⟨-, -, -, -, -, hphases, hphases7, -⟩ := hl
  cases h with
  | answer | start | overwrite | append | wipe | ignore => exact hs
  | listen => exact .of_slot_one hphases rfl rfl (State.opened_outLevel hs)
  | @send sh =>
    obtain ⟨a, b, c, d, hbit⟩ := s.opened.nextBitOf_frame s.headSlot.frame sh
    rw [State.driveBit_eq, hbit]
    exact .of_slot_one hphases rfl rfl (by simp [State.opened_outLevel hs])
  | sample harmed hslot hmax =>
    obtain ⟨-, -, -, hout⟩ := hs
    have hslot : s.slot = 1 := BitVec.eq_of_toNat_eq hslot
    simp [State.TimerInv, hout, hslot]
    omega
  | pause harmed hlow heven hmax htx =>
    obtain ⟨-, -, htxOut, -⟩ := hs
    have hslot : (s.slot + 1).toNat = s.slot.toNat + 1 := slot_succ_toNat (by omega)
    have htx' : s.txOut = true := by
      rcases hlow.eq_or_lt with h2 | h3
      · exact htx h2.symm
      · exact htxOut h3
    refine .of_repeat (by simp only [hslot]; omega) (by simp only [hslot]; exact hmax) rfl htx' ?_
    simp only [hslot]
    exact (decide_eq_false (by omega)).symm
  | pulse harmed hlow hodd hmax =>
    obtain ⟨-, -, htxOut, -⟩ := hs
    have hslot : (s.disarmTimer.startPhasePulse.slot).toNat = s.slot.toNat + 1 := 
      slot_succ_toNat (k := s.slot) (by omega)
    have hlt : s.slot.toNat + 1 ≤ 2 * s.cfg.phases := by omega
    refine .of_repeat (by omega) (by rw [hslot]; exact hlt) rfl (htxOut hlow) ?_
    rw [hslot]
    exact (decide_eq_true (by omega)).symm
  | finish =>
    have hframe := s.received_frame
    exact .of_idle hframe.slot hframe.timerArmed hframe.outLevel

/-! ## The module memory (20_memory R200 to R205; 45_module_state R653) -/

/-- What a VOLATILE store reads is in range: a listed byte, or the 0 of an unlisted key. -/
theorem Memory.read_br_le {m : Memory} (h : ∀ c ∈ m, (byteBr c.2).toNat ≤ 62) (a : Nat) : (byteBr (m.read a)).toNat ≤ 62 := by
  induction m with
  | nil => simp [Memory.unlisted, byteBr]
  | cons c m ih =>
    rw [Memory.read_cons]
    split
    · exact h c List.mem_cons_self
    · exact ih fun d hd => h d (List.mem_cons_of_mem _ hd)

theorem byteBr_mkByte (st : BitVec 2) (br : BitVec 6) : byteBr (mkByte st br) = br := by
  apply BitVec.eq_of_toNat_eq
  rw [byteBr_toNat, mkByte_toNat]
  have := br.isLt
  omega

theorem dataLevel_le (d : Byte) : (dataLevel d).toNat ≤ 62 := by
  simp only [dataLevel, BitVec.toNat_ofNat]
  omega

theorem dimBr_le (st : BitVec 2) (br : BitVec 6) : (dimBr st br).toNat ≤ 62 := by
  unfold dimBr clampNat
  split
  · simp only [BitVec.toNat_ofNat]
    omega
  · decide

theorem brightBr_le (st : BitVec 2) (br : BitVec 6) : (brightBr st br).toNat ≤ 62 := by
  unfold brightBr clampNat
  split
  · simp only [BitVec.toNat_ofNat]
    omega
  · decide

/-- 45_module_state R653: no command takes a brightness out of 0..62. -/
theorem updatedByte_br_le {v : Byte} (hv : (byteBr v).toNat ≤ 62) (presetDim : Bool) (cmd : Nibble) (d x : Byte)
    (xvalid : Bool) : (byteBr (updatedByte presetDim v cmd d x xvalid)).toNat ≤ 62 := by
  unfold updatedByte
  dsimp only
  split
  · rw [byteBr_mkByte]
    split
    · decide
    · exact hv
  · split
    · rwa [byteBr_mkByte]
    · split
      · rw [byteBr_mkByte]
        exact dimBr_le _ _
      · split
        · rw [byteBr_mkByte]
          exact brightBr_le _ _
        · split
          · split
            · rwa [byteBr_mkByte]
            · rw [byteBr_mkByte]
              exact dataLevel_le d
          · rwa [byteBr_mkByte]

theorem State.MemInv.memWrite (hs : s.MemInv) (k : Key) {v : Byte}
    (hv : s.cfg.backend = .volatile → (byteBr v).toNat ≤ 62) : (s.memWrite k v).MemInv := by
  obtain ⟨hwf, hnone, hbr, hlog⟩ := hs
  refine ⟨State.memWrite_wf hwf k v, ?_, ?_, ?_⟩ <;> rw [State.memWrite_eq] <;> dsimp only <;> intro hb
  · rw [if_pos hb]
    exact hnone hb
  · intro c hc
    rw [if_neg (by simp [hb])] at hc
    rcases Memory.mem_write hc with rfl | hc
    · exact hv hb
    · exact hbr hb c hc
  · rw [if_neg hb]
    exact hlog hb

theorem State.MemInv.wipe (ks : List Key) (hs : s.MemInv) : (State.wipe ks s).MemInv := by
  induction ks generalizing s with
  | nil => exact hs
  | cons k ks ih => exact ih (hs.memWrite k fun _ => by decide)

theorem State.MemInv.deliver (hs : s.MemInv) (r : Resolved) (n : BitVec 8) : (s.deliver r n).MemInv := by
  have ⟨_, _, hbr, _⟩ := hs
  rw [State.deliver_eq]
  split
  · exact hs
  · refine State.MemInv.memWrite hs _ fun hb => updatedByte_br_le ?_ _ _ _ _ _
    rw [State.memRead_eq, if_neg (by simp [hb])]
    exact Memory.read_br_le (hbr hb) _

theorem State.MemInv.endOfMessage (hs : s.MemInv) (n : BitVec 8) : (s.endOfMessage n).MemInv := by
  rcases s.endOfMessage_cases n with ⟨-, h⟩ | ⟨-, -, h⟩ | ⟨r, -, -, h⟩ <;> rw [h]
  · exact hs
  · exact hs
  · exact hs.deliver r n

/-- A checkpoint touches neither the store nor the records. -/
theorem State.checkpoint_store (s : State) (c : Nat) :
    (s.checkpoint c).mem = s.mem ∧ (s.checkpoint c).storeLog = s.storeLog ∧ (s.checkpoint c).nlog = s.nlog := by
  unfold State.checkpoint
  repeat' split
  all_goals exact ⟨rfl, rfl, rfl⟩

theorem State.MemInv.checkpoint (hs : s.MemInv) (c : Nat) : (s.checkpoint c).MemInv := by
  obtain ⟨hmem, hlog, -⟩ := s.checkpoint_store c
  rw [State.MemInv, hmem, hlog, (s.checkpoint_frame c).cfg]
  exact hs

theorem State.MemInv.rxStep (hs : s.MemInv) (b : Bool) : (s.rxStep b).MemInv := by
  have hcounted : s.counted.MemInv := hs
  have haccepted : s.counted.acceptBit.MemInv := hs
  have hchecked := haccepted.checkpoint (s.rx.count.toNat + 1)
  rw [State.rxStep_eq]
  split
  · exact hs
  · split
    · exact hcounted.endOfMessage _
    · split
      · exact hchecked.endOfMessage 62
      · exact hchecked

theorem State.MemInv.detect (hs : s.MemInv) (b : Bool) : (s.detect b).MemInv := by
  rcases s.detect_cases b with ⟨-, h⟩ | ⟨-, -, h⟩ | ⟨-, -, h⟩ <;> rw [h] <;> exact hs

theorem State.MemInv.received (hs : s.MemInv) : s.received.MemInv := by
  have hended : s.ended.MemInv := hs
  rcases s.received_cases with ⟨-, h⟩ | ⟨-, h⟩ <;> rw [h]
  · exact hended.rxStep s.inLatch
  · exact hended.detect s.inLatch

theorem State.Effect.memInv {i : Instr} (h : s.Effect i t) (hs : s.MemInv) : t.MemInv := by
  cases h with
  | answer | start | overwrite | append | ignore | listen | sample | pause | pulse => exact hs
  | wipe house unit =>
    have hw := hs.wipe (wipeKeys house unit)
    rw [State.wipe_frame] at hw
    exact hw
  | @send sh =>
    obtain ⟨a, b, c, d, hbit⟩ := s.opened.nextBitOf_frame s.headSlot.frame sh
    rw [State.driveBit_eq, hbit]
    exact hs
  | finish => exact hs.received

/-! ## The records (44_frame_decoder R630) -/

/-- A command resolves to a unit 1..16 or to none (44_frame_decoder R614, R619). -/
theorem resolveCommand_unit_le {presetDim : Bool} {x : RxAcc} {a : PendingAddr} {r : Resolved}
    (h : resolveCommand presetDim x a = some r) : r.unit.toNat ≤ 16 := by
  have hif : ∀ (p : Prop) [Decidable p] (c : Nibble), (if p then unitOf c else 0).toNat ≤ 16 := by
    intro p _ c
    split
    · exact (unitOf_range c).2
    · decide
  unfold resolveCommand at h
  split at h
  · cases h
    exact hif _ _
  · split at h
    · split at h
      · cases h
        exact (unitOf_range _).2
      · cases h
    · cases h
      exact hif _ _

/-- A message that ends with a command is recorded with its count, so the count must be a record's. -/
theorem State.LogInv.endOfMessage (hs : s.LogInv) {n : BitVec 8}
    (hn : s.rx.cmdValid = true → 22 ≤ n.toNat ∧ n.toNat ≤ 62 ∧ n.toNat % 2 = 0) : (s.endOfMessage n).LogInv := by
  rcases s.endOfMessage_cases n with ⟨-, h⟩ | ⟨-, -, h⟩ | ⟨r, hcmd, hr, h⟩ <;> rw [h]
  · exact hs
  · exact hs
  · have hlog : (s.deliver r n).clearAll.nlog = s.nlog ++ [⟨r.house, r.unit, s.rx.cmd, r.data, r.xcmd, n⟩] := by
      rw [State.deliver_eq]
      split <;> simp
    intro m hm
    rw [hlog, List.mem_append, List.mem_singleton] at hm
    rcases hm with hm | rfl
    · exact hs m hm
    · exact ⟨resolveCommand_unit_le hr, hn hcmd⟩

theorem State.LogInv.rxStep (hs : s.LogInv) (hrx : s.RxInv) (hactive : s.rx.active = true) (b : Bool) :
    (s.rxStep b).LogInv := by
  obtain ⟨-, -, hrange, hcmd, -⟩ := hrx
  obtain ⟨-, -, hhigh⟩ := hrange hactive
  have hcounted : s.counted.LogInv := hs
  have haccept : (s.counted.acceptBit.checkpoint (s.rx.count.toNat + 1)).LogInv := by
    obtain ⟨-, -, hnlog⟩ := s.counted.acceptBit.checkpoint_store (s.rx.count.toNat + 1)
    rw [State.LogInv, hnlog]
    exact hs
  rw [State.rxStep_eq]
  split
  · exact hs
  · rename_i heven
    split
    · refine hcounted.endOfMessage fun hvalid => ?_
      have hlow : 22 ≤ s.rx.count.toNat := hcmd hvalid
      simp only [BitVec.toNat_ofNat]
      omega
    · split
      · exact haccept.endOfMessage fun _ => by decide
      · exact haccept

theorem State.LogInv.detect (hs : s.LogInv) (b : Bool) : (s.detect b).LogInv := by
  rcases s.detect_cases b with ⟨-, h⟩ | ⟨-, -, h⟩ | ⟨-, -, h⟩ <;> rw [h] <;> exact hs

theorem State.LogInv.received (hs : s.LogInv) (hrx : s.RxInv) : s.received.LogInv := by
  have hended : s.ended.LogInv := hs
  rcases s.received_cases with ⟨hactive, h⟩ | ⟨-, h⟩ <;> rw [h]
  · exact hended.rxStep hrx hactive s.inLatch
  · exact hended.detect s.inLatch

theorem State.Effect.logInv {i : Instr} (h : s.Effect i t) (hrx : s.RxInv) (hs : s.LogInv) : t.LogInv := by
  cases h with
  | answer | start | overwrite | append | wipe | ignore | listen | sample | pause | pulse => exact hs
  | @send sh =>
    obtain ⟨a, b, c, d, hbit⟩ := s.opened.nextBitOf_frame s.headSlot.frame sh
    rw [State.driveBit_eq, hbit]
    exact hs
  | finish => exact hs.received hrx

/-! ## Before START, and the whole invariant -/

/-- 10_state R103: before START only commands take effect, and no command touches the line side. -/
theorem State.Effect.disabledInv {i : Instr} (h : s.Effect i t) (hs : s.DisabledInv) : t.DisabledInv := by
  intro hoff
  have hsoff : s.enable = false := by
    have henable := h.enable
    rw [hoff, eq_comm, Bool.or_eq_false_iff] at henable
    exact henable.1
  have hrest := hs hsoff
  cases h with
  | answer | overwrite | append | wipe | ignore => exact hrest
  | start => cases hoff
  | listen henable | send henable => exact absurd (hsoff.symm.trans henable) Bool.noConfusion
  | sample harmed | pause harmed | pulse harmed | finish harmed =>
    obtain ⟨-, -, hdisarmed, -⟩ := hrest
    exact absurd (hdisarmed.symm.trans harmed) Bool.noConfusion

theorem State.Effect.inv {i : Instr} (h : s.Effect i t) (hs : s.Inv) : t.Inv := by
  obtain ⟨hlegal, hqueue, hframes, htx, htimer, hrx, hmem, hlog, hoff⟩ := hs
  exact ⟨h.cfg ▸ hlegal, h.queueInv hqueue, h.framesInv hqueue hframes, h.txInv hqueue htx, h.timerInv hlegal htimer,
    h.rxInv hrx, h.memInv hmem, h.logInv hrx hlog, h.disabledInv hoff⟩

/-- Settles O51: each part stands every effect, with at most the queue, receiver and parameter parts beside it. -/
theorem stepKeepsTheInvariant : Obligations.StepKeepsTheInvariant :=
  fun _ _ hs h => step_preserves (P := State.Inv) (fun _ _ _ hp => hp) (fun _ hp => hp)
    (fun _ _ _ heff hp => heff.inv hp) hs h

end Sys2Proof.Machine
end

section
/-! The tick values (10_state R122; 70_reset_and_hazards R920): other tick parameters and another `timer_delay` pass unchanged
through every operation but `arm_timer`, which writes the new `timer_delay` and reads nothing of the old. -/

namespace Sys2Proof.Machine

/-- The state with another `timer_delay` and other tick parameters. -/
def State.withTicks (d : BitVec 16) (a b c : Nat) (s : State) : State :=
  { s with timerDelay := d, cfg := { s.cfg with tSample := a, tPulse := b, tPhase := c } }

variable (d : BitVec 16) (a b c : Nat) (s : State)

/-! ## The module store and the queue -/

theorem State.memWrite_withTicks (k : Key) (v : Byte) :
    (s.withTicks d a b c).memWrite k v = (s.memWrite k v).withTicks d a b c := by
  rw [State.memWrite_eq, State.memWrite_eq]
  rfl

theorem State.wipe_withTicks (ks : List Key) :
    State.wipe ks (s.withTicks d a b c) = (State.wipe ks s).withTicks d a b c := by
  induction ks generalizing s with
  | nil => rfl
  | cons k ks ih => simp only [State.wipe, State.memWrite_withTicks, ih]

theorem State.enqueue_withTicks (w : Frame) (reps : BitVec 8) (ctx : Bool) :
    (s.withTicks d a b c).enqueue w reps ctx = (s.enqueue w reps ctx).withTicks d a b c := by
  simp only [State.enqueue, apply_ite (State.withTicks d a b c)]
  rfl

/-! ## The finish step -/

theorem State.deliver_withTicks (r : Resolved) (n : BitVec 8) :
    (s.withTicks d a b c).deliver r n = (s.deliver r n).withTicks d a b c := by
  rw [State.deliver_eq, State.deliver_eq]
  split
  · rfl
  · rw [State.memWrite_withTicks]
    rfl

theorem State.endOfMessage_withTicks (n : BitVec 8) :
    (s.withTicks d a b c).endOfMessage n = (s.endOfMessage n).withTicks d a b c := by
  have hres : resolveCommand (s.withTicks d a b c).cfg.presetDimEnable (s.withTicks d a b c).rx (s.withTicks d a b c).addr =
      resolveCommand s.cfg.presetDimEnable s.rx s.addr := rfl
  simp only [State.endOfMessage, State.processCommand, hres, State.deliver_withTicks, apply_ite (State.withTicks d a b c)]
  cases resolveCommand s.cfg.presetDimEnable s.rx s.addr <;> rfl

theorem State.checkpoint_withTicks (k : Nat) :
    (s.withTicks d a b c).checkpoint k = (s.checkpoint k).withTicks d a b c := by
  simp only [State.checkpoint, apply_ite (State.withTicks d a b c)]
  rfl

theorem State.rxStep_withTicks (x : Bool) : (s.withTicks d a b c).rxStep x = (s.rxStep x).withTicks d a b c := by
  have hrx : (s.withTicks d a b c).rx = s.rx := rfl
  have hcounted : (s.withTicks d a b c).counted = s.counted.withTicks d a b c := rfl
  have haccept : (s.counted.withTicks d a b c).acceptBit = s.counted.acceptBit.withTicks d a b c := rfl
  simp only [State.rxStep_eq, hrx, hcounted, haccept, State.checkpoint_withTicks, State.endOfMessage_withTicks,
    apply_ite (State.withTicks d a b c)]
  rfl

theorem State.detect_withTicks (x : Bool) : (s.withTicks d a b c).detect x = (s.detect x).withTicks d a b c := by
  simp only [State.detect, apply_ite (State.withTicks d a b c)]
  rfl

theorem State.finish_withTicks : (s.withTicks d a b c).finish = s.finish.withTicks d a b c := by
  have hclosed : (s.withTicks d a b c).closed = s.closed.withTicks d a b c := rfl
  rw [State.finish_eq, State.finish_eq, hclosed, State.rxStep_withTicks, State.detect_withTicks,
    apply_ite (State.withTicks d a b c)]
  rfl

/-! ## The encoder -/

theorem State.endOfRepetition_withTicks (w : Frame) (sh : Shape) :
    (s.withTicks d a b c).endOfRepetition w sh = (s.endOfRepetition w sh).withTicks d a b c := by
  simp only [State.endOfRepetition, apply_ite (State.withTicks d a b c)]
  rfl

theorem State.nextBitOf_withTicks (w : Frame) (sh : Shape) :
    (s.withTicks d a b c).nextBitOf w sh = ((s.nextBitOf w sh).1, (s.nextBitOf w sh).2.withTicks d a b c) := by
  have hhold : (s.withTicks d a b c).holdsPartTwo sh = s.holdsPartTwo sh := rfl
  have hcount : { s.withTicks d a b c with txCount := BitVec.ofNat 8 (s.txCount.toNat + 1) } =
      { s with txCount := BitVec.ofNat 8 (s.txCount.toNat + 1) }.withTicks d a b c := rfl
  have htx : (s.withTicks d a b c).txCount = s.txCount := rfl
  simp only [State.nextBitOf, hhold, htx, hcount, State.endOfRepetition_withTicks]
  split
  · rfl
  · rw [apply_ite (State.withTicks d a b c)]

theorem State.nextBit_withTicks :
    (s.withTicks d a b c).nextBit = s.nextBit.map fun r => (r.1, r.2.withTicks d a b c) := by
  have hhead : (s.withTicks d a b c).headSlot = s.headSlot := rfl
  rw [State.nextBit, State.nextBit, hhead]
  cases frameShape s.headSlot.frame with
  | none => rfl
  | some sh => simp only [State.nextBitOf_withTicks, Option.map_some]

theorem State.driveBit_withTicks (x : Bool) : (s.withTicks d a b c).driveBit x = (s.driveBit x).withTicks d a b c := by
  cases x <;> rfl

/-! ## The two events: what arms the timer writes another `timer_delay` -/

theorem execZc_withTicks :
    ∃ d', execZc (s.withTicks d a b c) = mapNext (State.withTicks d' a b c) (execZc s) := by
  by_cases henable : s.enable = false
  · refine ⟨d, ?_⟩
    rw [execZc, execZc, if_pos henable, if_pos (show (s.withTicks d a b c).enable = false from henable)]
    rfl
  · refine ⟨delayWord a, ?_⟩
    have hopened : (s.withTicks d a b c).opened = s.opened.withTicks (delayWord a) a b c := rfl
    have hready : (s.opened.withTicks (delayWord a) a b c).txReady = s.opened.txReady := rfl
    rw [execZc, execZc, if_neg henable, if_neg (show ¬(s.withTicks d a b c).enable = false from henable)]
    simp only [State.markOverrun_beginHalfCycle, hopened, hready, State.nextBit_withTicks]
    split
    · cases s.opened.nextBit with
      | none => rfl
      | some r => simp only [Option.map_some, State.driveBit_withTicks, mapNext]
    · rfl

theorem State.endFirstPulse_withTicks :
    ∃ d', (s.withTicks d a b c).endFirstPulse = s.endFirstPulse.withTicks d' a b c := by
  by_cases hrepeat : s.txOut = true ∧ s.cfg.phases > 1
  · have hstep : s.endFirstPulse = { (s.setOut false).armTimer (s.cfg.tPhase - s.cfg.tPulse) with slot := 3 } :=
      if_pos hrepeat
    exact ⟨delayWord (c - b), by rw [hstep]; exact if_pos hrepeat⟩
  · have hstep : s.endFirstPulse = (s.setOut false).finish := if_neg hrepeat
    exact ⟨d, by rw [hstep, ← State.finish_withTicks]; exact if_neg hrepeat⟩

theorem State.endPhasePulse_withTicks :
    ∃ d', (s.withTicks d a b c).endPhasePulse = s.endPhasePulse.withTicks d' a b c := by
  by_cases hlast : s.slot.toNat = 2 * s.cfg.phases
  · have hstep : s.endPhasePulse = (s.setOut false).finish := if_pos hlast
    exact ⟨d, by rw [hstep, ← State.finish_withTicks]; exact if_pos hlast⟩
  · have hstep : s.endPhasePulse =
        { (s.setOut false).armTimer (s.cfg.tPhase - s.cfg.tPulse) with slot := s.slot + 1 } := if_neg hlast
    exact ⟨delayWord (c - b), by rw [hstep]; exact if_neg hlast⟩

theorem execTimer_withTicks :
    ∃ d', execTimer (s.withTicks d a b c) = mapNext (State.withTicks d' a b c) (execTimer s) := by
  have harmed : (s.withTicks d a b c).timerArmed = s.timerArmed := rfl
  have hslot : (s.withTicks d a b c).slot = s.slot := rfl
  have hphases : (s.withTicks d a b c).cfg.phases = s.cfg.phases := rfl
  have hdisarm : (s.withTicks d a b c).disarmTimer = s.disarmTimer.withTicks d a b c := rfl
  obtain ⟨d₁, hfirst⟩ := s.disarmTimer.endFirstPulse_withTicks d a b c
  obtain ⟨d₂, hphase⟩ := s.disarmTimer.endPhasePulse_withTicks d a b c
  simp only [execTimer_eq, harmed, hslot, hphases, hdisarm, hfirst, hphase]
  split
  · exact ⟨d, rfl⟩
  · split
    · exact ⟨d, rfl⟩
    · split
      · exact ⟨delayWord (b - a), rfl⟩
      · split
        · exact ⟨d₁, rfl⟩
        · split
          · exact ⟨delayWord b, rfl⟩
          · exact ⟨d₂, rfl⟩

/-! ## The step -/

/-- 10_state R122: no instruction reads a tick value but to arm the timer. -/
theorem exec_withTicks (i : Instr) :
    ∃ d', exec i (s.withTicks d a b c) = mapNext (State.withTicks d' a b c) (exec i s) := by
  cases hq : enqRequest i with
  | some q =>
    obtain ⟨w, reps, ctx⟩ := q
    refine ⟨d, ?_⟩
    rw [exec_of_enqRequest _ hq, exec_of_enqRequest _ hq, State.enqueue_withTicks]
    rfl
  | none =>
    by_cases hwf : i.wellFormed = false
    · exact ⟨d, by rw [exec_of_not_wellFormed _ hwf, exec_of_not_wellFormed _ hwf]; rfl⟩
    · unfold enqRequest at hq
      rw [if_neg hwf] at hq
      cases i with
      | enqAddress | enqCommand | enqDimPercent | enqExtDimPercent | enqRawExt => cases hq
      | start | getStatus => exact ⟨d, rfl⟩
      | getState => exact ⟨d, by rw [exec_getState, exec_getState, if_neg hwf, if_neg hwf]; rfl⟩
      | wipeState =>
        exact ⟨d, by rw [exec_wipeState, exec_wipeState, if_neg hwf, if_neg hwf, State.wipe_withTicks]; rfl⟩
      | pctToBright => exact ⟨d, by rw [exec_pctToBright, exec_pctToBright, if_neg hwf, if_neg hwf]; rfl⟩
      | brightToPct => exact ⟨d, by rw [exec_brightToPct, exec_brightToPct, if_neg hwf, if_neg hwf]; rfl⟩
      | zc => exact execZc_withTicks d a b c s
      | timer => exact execTimer_withTicks d a b c s

/-- Settles O58: `exec_withTicks`, with the parameters of the next state those of the state before. -/
theorem tickValuesAreObservationOnly : Obligations.TickValuesAreObservationOnly := by
  intro i s t d a b c h
  obtain ⟨d', hd⟩ := exec_withTicks d a b c s i
  refine ⟨d', hd.trans ?_⟩
  rw [h, ← (exec_effect h).cfg]
  rfl

end Sys2Proof.Machine
end

section
/-! The module store (20_memory R200 to R206): what an instruction can do to it on each backend, and the statements that follow. -/

namespace Sys2Proof.Machine

variable {s t : State}

/-- Settles O50: each write of a module byte keeps the form, and every byte written is in range. -/
theorem stepKeepsTheMemoryInvariant : Obligations.StepKeepsTheMemoryInvariant :=
  fun _ _ hs h => step_preserves (P := State.MemInv) (fun _ _ _ hp => hp) (fun _ hp => hp)
    (fun _ _ _ heff hp => heff.memInv hp) hs h

/-! ## What an instruction can do to the store -/

/-- The same store, on the same backend, sent the same byte writes. -/
structure State.StoreFrame (s t : State) : Prop where
  cfg : t.cfg = s.cfg
  mem : t.mem = s.mem
  storeLog : t.storeLog = s.storeLog

theorem State.StoreFrame.trans {u : State} (h : s.StoreFrame t) (h' : t.StoreFrame u) : s.StoreFrame u :=
  ⟨h'.cfg.trans h.cfg, h'.mem.trans h.mem, h'.storeLog.trans h.storeLog⟩

theorem State.StoreFrame.memRead (h : s.StoreFrame t) (k : Key) : t.memRead k = s.memRead k := by
  rw [State.memRead_eq, State.memRead_eq, h.cfg, h.mem]

theorem State.StoreFrame.memWrite (h : s.StoreFrame t) (k : Key) (v : Byte) : (s.memWrite k v).StoreFrame (t.memWrite k v) := by
  rw [State.memWrite_eq, State.memWrite_eq]
  exact ⟨h.cfg, by simp only [h.cfg, h.mem], by simp only [h.cfg, h.storeLog]⟩

theorem State.StoreFrame.of_checkpoint (s : State) (c : Nat) : s.StoreFrame (s.counted.acceptBit.checkpoint c) := by
  obtain ⟨hmem, hlog, -⟩ := s.counted.acceptBit.checkpoint_store c
  exact ⟨(s.counted.acceptBit.checkpoint_frame c).cfg, hmem, hlog⟩

theorem State.StoreFrame.of_detect (s : State) (b : Bool) : s.StoreFrame (s.detect b) := by
  rcases s.detect_cases b with ⟨-, h⟩ | ⟨-, -, h⟩ | ⟨-, -, h⟩ <;> rw [h] <;> exact ⟨rfl, rfl, rfl⟩

/-- From `s` to `t`: one byte written where a key is given, else nothing. -/
inductive State.Stores (s : State) : Option Key → State → Prop
  | nothing {u : State} (h : s.StoreFrame u) : s.Stores none u
  | byte {u : State} (k : Key) (v : Byte) (h : (s.memWrite k v).StoreFrame u) : s.Stores (some k) u

/-- The store of a state that differs outside it. -/
theorem State.Stores.congr {s' t' : State} {o : Option Key} (h : s.Stores o t) (hs : s'.StoreFrame s) (ht : t.StoreFrame t') :
    s'.Stores o t' := by
  cases h with
  | nothing h => exact .nothing ((hs.trans h).trans ht)
  | byte k v h => exact .byte k v (((hs.memWrite k v).trans h).trans ht)

/-- The module the end of this message stores to, if any (44_frame_decoder R614). -/
def State.messageTarget (s : State) : Option Key :=
  if s.rx.cmdValid then
    match resolveCommand s.cfg.presetDimEnable s.rx s.addr with
    | none => none
    | some r => if r.unit = 0 then none else some (moduleKey r.house r.unit)
  else none

theorem State.storeTarget_eq (s : State) :
    s.storeTarget = if s.finishing && s.endsMessage then s.messageTarget else none := by
  unfold State.storeTarget State.messageTarget
  cases s.finishing <;> cases s.endsMessage <;> rfl

theorem State.endOfMessage_stores (s : State) (n : BitVec 8) : s.Stores s.messageTarget (s.endOfMessage n) := by
  unfold State.messageTarget
  rcases s.endOfMessage_cases n with ⟨hv, h⟩ | ⟨hv, hr, h⟩ | ⟨r, hv, hr, h⟩ <;> rw [h, hv]
  · exact .nothing ⟨rfl, rfl, rfl⟩
  · rw [hr]
    exact .nothing ⟨rfl, rfl, rfl⟩
  · rw [hr, State.deliver_eq]
    dsimp only
    by_cases hu : r.unit = 0
    · simp only [hu, if_true]
      exact .nothing ⟨rfl, rfl, rfl⟩
    · simp only [hu, if_false, if_true]
      exact .byte _ _ ⟨rfl, rfl, rfl⟩

/-- The checkpoint at the ceiling takes the sub-command in, which the target does not depend on (44_frame_decoder R606). -/
theorem State.messageTarget_ceiling (s : State) : (s.counted.acceptBit.checkpoint 62).messageTarget = s.messageTarget := by
  by_cases hext : s.rx.cmdValid = true ∧ isExtCmd s.rx.cmd = true
  · have hcheck : s.counted.acceptBit.checkpoint 62 =
        { s.counted.acceptBit with
          rx := { s.counted.acceptBit.rx with xcmd := s.counted.acceptBit.rx.buf, xcmdValid := true } } := if_pos hext
    rw [hcheck]
    simp only [State.messageTarget, resolveCommand, State.acceptBit, State.counted, hext.2, if_true]
    rfl
  · have hcheck : s.counted.acceptBit.checkpoint 62 = s.counted.acceptBit := if_neg hext
    rw [hcheck]
    rfl

/-- A receive step stores where it ends a message for a unit (44_frame_decoder R610, R611, R614). -/
theorem State.rxStep_stores (s : State) (b : Bool) :
    s.Stores
      (if (s.rx.count.toNat + 1) % 2 = 0 ∧ (b = s.rx.raw ∨ s.rx.count.toNat + 1 = 62) then s.messageTarget else none)
      (s.rxStep b) := by
  rw [State.rxStep_eq]
  by_cases hodd : (s.rx.count.toNat + 1) % 2 = 1
  · rw [if_pos hodd, if_neg fun h => by omega]
    exact .nothing ⟨rfl, rfl, rfl⟩
  · have heven : (s.rx.count.toNat + 1) % 2 = 0 := by omega
    rw [if_neg hodd]
    by_cases hraw : b = s.rx.raw
    · rw [if_pos hraw, if_pos ⟨heven, .inl hraw⟩]
      exact (s.counted.endOfMessage_stores _).congr ⟨rfl, rfl, rfl⟩ ⟨rfl, rfl, rfl⟩
    · rw [if_neg hraw]
      by_cases hlast : s.rx.count.toNat + 1 = 62
      · rw [if_pos hlast, if_pos ⟨heven, .inr hlast⟩, hlast, ← s.messageTarget_ceiling]
        exact (State.endOfMessage_stores _ 62).congr (.of_checkpoint s 62) ⟨rfl, rfl, rfl⟩
      · rw [if_neg hlast, if_neg fun h => h.2.elim hraw hlast]
        exact .nothing (.of_checkpoint s _)

/-- The finish step stores where its half-cycle ends a message for a unit (42_bit_slot_timer R513). -/
theorem State.received_stores (s : State) : s.Stores (if s.endsMessage then s.messageTarget else none) s.received := by
  have hended : s.StoreFrame s.ended := ⟨rfl, rfl, rfl⟩
  rcases s.received_cases with ⟨hactive, h⟩ | ⟨hidle, h⟩ <;> rw [h]
  · have hends : s.endsMessage = true ↔
        (s.rx.count.toNat + 1) % 2 = 0 ∧ (s.inLatch = s.rx.raw ∨ s.rx.count.toNat + 1 = 62) := by
      simp [State.endsMessage, hactive]
    simp only [hends]
    exact (s.ended.rxStep_stores s.inLatch).congr hended ⟨rfl, rfl, rfl⟩
  · have hends : s.endsMessage = false := by simp [State.endsMessage, hidle]
    rw [hends]
    exact .nothing (hended.trans (.of_detect s.ended _))

/-- A TIMER stores where it ends a message for a unit, and nowhere else. -/
theorem State.Effect.timer_stores (h : s.Effect .timer t) : s.Stores s.storeTarget t := by
  have hquiet (hgo : ¬s.finishing = true) (hsame : s.StoreFrame t) : s.Stores s.storeTarget t := by
    rw [State.storeTarget_eq, Bool.eq_false_iff.mpr hgo]
    exact .nothing hsame
  rw [State.finishing_iff] at hquiet
  cases h with
  | answer hcmd => cases hcmd
  | overwrite hreq | append hreq => cases hreq
  | sample harmed hslot => exact hquiet (by omega) ⟨rfl, rfl, rfl⟩
  | pulse harmed hlow hodd => exact hquiet (by omega) ⟨rfl, rfl, rfl⟩
  | pause harmed hlow heven hmax htx =>
    refine hquiet ?_ ⟨rfl, rfl, rfl⟩
    rintro (⟨h2, hn⟩ | ⟨-, heq⟩)
    · exact hn ⟨htx h2, by omega⟩
    · omega
  | finish harmed hlast =>
    rw [State.storeTarget_eq, hlast, Bool.true_and]
    exact s.received_stores

/-- Settles O35: the byte a TIMER stores is the one its module reads back. -/
theorem oneByteWritePerAddressedCommand : Obligations.OneByteWritePerAddressedCommand := by
  intro s t hwf h
  have hstores := (exec_effect h).timer_stores
  generalize s.storeTarget = target at hstores ⊢
  cases hstores with
  | nothing hsame => exact hsame.storeLog
  | byte k v hwrite =>
    rw [hwrite.storeLog, State.memWrite_eq]
    dsimp only
    split
    · rename_i hb
      rw [hwrite.memRead, State.memRead_memWrite_same hwf (by simp [hb])]
    · rfl

/-! ## No store (20_memory R205) -/

theorem State.memWrite_of_none (hb : s.cfg.backend = .none) (k : Key) (v : Byte) : s.memWrite k v = s := by
  unfold State.memWrite
  rw [hb]

theorem State.wipe_of_none (hb : s.cfg.backend = .none) (ks : List Key) : State.wipe ks s = s := by
  induction ks with
  | nil => rfl
  | cons k ks ih => rw [State.wipe, State.memWrite_of_none hb, ih]

theorem State.Stores.of_none {o : Option Key} (h : s.Stores o t) (hb : s.cfg.backend = .none) : s.StoreFrame t := by
  cases h with
  | nothing h => exact h
  | byte k v h => rwa [State.memWrite_of_none hb] at h

theorem State.Effect.storeFrame_of_none {i : Instr} (h : s.Effect i t) (hb : s.cfg.backend = .none) : s.StoreFrame t := by
  cases h with
  | answer | start | overwrite | append | ignore | listen | sample | pause | pulse => exact ⟨rfl, rfl, rfl⟩
  | wipe =>
    rw [State.wipe_of_none hb]
    exact ⟨rfl, rfl, rfl⟩
  | @send sh =>
    obtain ⟨a, b, c, d, hbit⟩ := s.opened.nextBitOf_frame s.headSlot.frame sh
    rw [State.driveBit_eq, hbit]
    exact ⟨rfl, rfl, rfl⟩
  | finish => exact s.received_stores.of_none hb

/-- Settles O60: without a store a write is no change, and a read is the 0 of an unseen module. -/
theorem backendNoneHasNoModuleState : Obligations.BackendNoneHasNoModuleState := by
  intro s hb
  have hread (k : Key) : s.memRead k = 0 := by rw [State.memRead_eq, if_pos hb]
  refine ⟨hread, fun i t h => ?_, fun house unit hwf => ?_, fun house unit hwf => ?_⟩
  · obtain ⟨-, hmem, hlog⟩ := (exec_effect h).storeFrame_of_none hb
    exact ⟨hmem, hlog⟩
  · rw [exec_getState, if_neg (by simp [hwf]), hread]
    rfl
  · rw [exec_wipeState, if_neg (by simp [hwf]), State.wipe_of_none hb]
    rfl

end Sys2Proof.Machine
end

section
/-! What a host reads and clears (45_module_state R670, R675), what a reset leaves (20_memory R208), and what no command takes
from the queue (20_memory R236). -/

namespace Sys2Proof.Machine

/-! ## The commands on module bytes (45_module_state R670, R675) -/

/-- 20_memory R201: the key of a module, from its operands as numbers. -/
theorem moduleKey_houseOfField {house unit : BitVec 5} (hhouse : house.toNat ≤ 15) (hunit : 1 ≤ unit.toNat) :
    moduleKey (houseOfField house) unit = BitVec.ofNat 8 (house.toNat * 16 + unit.toNat - 1) := by
  have hfield : (houseOfField house).toNat = house.toNat := by
    rw [houseOfField, BitVec.toNat_setWidth]
    omega
  rw [moduleKey, hfield, Nat.add_sub_assoc hunit]

/-- 30_encoding R336, 45_module_state R670: the GET_STATE response as a number. -/
theorem stateResponse_toNat (v : Byte) :
    (statusCode .ok ++ stateResult v : Response).toNat =
      (min (v.toNat % 64) 62 * 100 + 31) / 62 * 65536 + (isOn v).toNat * 1024 + (isKnown v).toNat * 512 +
        (isSeen v).toNat * 256 + v.toNat := by
  rw [respWord_toNat, stateResult_toNat, byteBr_toNat, b2pNat, show (statusCode .ok).toNat = 0 from rfl]
  omega

/-- Settles O21: each field of the response, read off its number. -/
theorem getStateReportsTheModule : Obligations.GetStateReportsTheModule := by
  intro s house unit hhouse hunit1 hunit16
  dsimp only
  rw [← moduleKey_houseOfField hhouse hunit1]
  generalize hv : s.memRead (moduleKey (houseOfField house) unit) = v
  have hwf : (Instr.getState house unit).wellFormed = true := by
    simp [Instr.wellFormed, houseOk, unitOk]
    omega
  refine ⟨statusCode .ok ++ stateResult v, ?_, ?_⟩
  · rw [exec_getState, if_neg (by simp [hwf]), hv]
    rfl
  · have hword := stateResponse_toNat v
    have hlt := v.isLt
    have hon := (isOn v).toNat_le
    have hknown := (isKnown v).toNat_le
    have hseen := (isSeen v).toNat_le
    have hon' : (isOn v).toNat = 1 ↔ v.toNat / 64 = 3 := by simp [isOn_eq]
    have hknown' : (isKnown v).toNat = 1 ↔ 2 ≤ v.toNat / 64 := by simp [isKnown_eq]
    have hseen' : (isSeen v).toNat = 1 ↔ v.toNat / 64 ≠ 0 := by simp [isSeen_eq]
    have hpercent : (min (v.toNat % 64) 62 * 100 + 31) / 62 ≤ 100 := by omega
    simp only [extract_eq_iff, getLsbD_eq_div, BitVec.extractLsb'_toNat, Nat.shiftRight_eq_div_pow, decide_eq_true_eq,
      decide_eq_false_iff_not, BitVec.ofNat_eq_ofNat, BitVec.toNat_ofNat, hword]
    generalize (min (v.toNat % 64) 62 * 100 + 31) / 62 = percent at hpercent ⊢
    omega

/-- The wiped keys as numbers (45_module_state R675). -/
theorem wipeKeys_toNat (house unit : BitVec 5) :
    (wipeKeys house unit).map BitVec.toNat =
      (List.range 256).filter fun k =>
        decide ((house.toNat = 31 ∨ house.toNat = k / 16) ∧ (unit.toNat = 0 ∨ unit.toNat = k % 16 + 1)) := by
  have hwild : (house == 31) = decide (house.toNat = 31) := by
    rw [beq_eq_decide, decide_eq_decide]
    exact (BitVec.toNat_inj (x := house) (y := 31)).symm
  have hnone : (unit == 0) = decide (unit.toNat = 0) := by
    rw [beq_eq_decide, decide_eq_decide]
    exact (BitVec.toNat_inj (x := unit) (y := 0)).symm
  simp only [wipeKeys, List.map_map, hwild, hnone, beq_eq_decide, Bool.decide_and, Bool.decide_or]
  conv_rhs => rw [← List.map_id (List.filter _ _)]
  refine List.map_congr_left fun k hk => Nat.mod_eq_of_lt ?_
  exact List.mem_range.mp (List.mem_of_mem_filter hk)

theorem mem_wipeKeys {house unit : BitVec 5} {k : Key} :
    k ∈ wipeKeys house unit ↔
      (house.toNat = 31 ∨ house.toNat = k.toNat / 16) ∧ (unit.toNat = 0 ∨ unit.toNat = k.toNat % 16 + 1) := by
  have hlt := k.isLt
  rw [← List.mem_map_of_injective (f := BitVec.toNat) (fun _ _ => BitVec.eq_of_toNat_eq), wipeKeys_toNat]
  simp [hlt]

/-- Settles O22: the keys wiped are the keys of the matching modules, in order. -/
theorem wipeStateClearsMatchingModules : Obligations.WipeStateClearsMatchingModules := by
  intro s house unit hhouse hunit hwf
  dsimp only
  have hok : (Instr.wipeState house unit).wellFormed = true := by
    simp [Instr.wellFormed, houseOk, unitOrNoneOk]
    omega
  refine ⟨_, by rw [exec_wipeState, if_neg (by simp [hok])], ?_, fun k => ?_, ?_⟩
  · rw [State.wipe_frame]
    rfl
  · exact (State.memRead_wipe _ hwf k).trans (by simp only [mem_wipeKeys])
  · rw [State.respond_storeLog, State.wipe_storeLog, ← wipeKeys_toNat, List.map_map]
    rfl

/-! ## Reset (20_memory R208; 70_reset_and_hazards R900, R901) -/

/-- A store read back from its raw bytes: a missing one counts as erased (20_memory R204). -/
theorem Memory.read_ofRaw (bs : List Byte) (j : Nat) {a : Nat} (ha : a < 256) (hj : j ≤ a) :
    (Memory.ofRaw j bs).read a = bs.getD (a - j) 0xFF + 1 := by
  induction bs generalizing j with
  | nil => simp [Memory.ofRaw, Memory.unlisted]
  | cons b bs ih =>
    rw [Memory.ofRaw, if_neg (by omega)]
    rcases hj.eq_or_lt with rfl | hlt
    · rw [Nat.sub_self, List.getD_cons_zero]
      split
      · rename_i herased
        rw [Memory.read_below (Memory.ofRaw_wfFrom bs _) (Nat.lt_succ_self _), herased]
        rfl
      · simp
    · obtain ⟨d, rfl⟩ := Nat.exists_eq_add_of_lt hlt
      have hnext : (Memory.ofRaw (j + 1) bs).read (j + d + 1) = bs.getD d 0xFF + 1 := by
        rw [ih (j + 1) (by omega)]
        congr 2
        omega
      rw [show j + d + 1 - j = d + 1 by omega, List.getD_cons_succ]
      split
      · exact hnext
      · rw [Memory.read_cons, if_neg (by simp; omega), hnext]

/-- Settles O44: all but the slots and the module bytes is read off the two definitions. -/
theorem resetStateIsAsTabulated : Obligations.ResetStateIsAsTabulated := by
  intro cfg store s
  dsimp only
  have hslots (i : Nat) : (State.launch cfg store).slotAt i = ⟨0, 0⟩ := by
    rw [State.slotAt, List.getD_eq_getElem?_getD]
    exact List.getElem?_getD_replicate_default_eq _ cfg.n i
  refine ⟨rfl, rfl, rfl, hslots, List.length_replicate, rfl, rfl, rfl, rfl, rfl, rfl, rfl, rfl, rfl, rfl, rfl, rfl, rfl, rfl,
    rfl, fun k => ?_, fun k => ?_, fun hb => ?_, rfl⟩
  · rw [State.memRead_eq]
    show (if cfg.backend = .none then 0 else (Memory.atReset cfg.backend store).read k.toNat) = _
    cases cfg.backend with
    | none | volatile => rfl
    | persistent => exact Memory.read_ofRaw store 0 k.isLt (Nat.zero_le _)
  · rw [State.memRead_eq, State.memRead_eq]
    cases hb : s.cfg.backend with
    | none | volatile => simp [State.applyReset, State.launch, hb, Memory.unlisted]
    | persistent => simp [State.applyReset, State.launch, hb]
  · cases hb' : s.cfg.backend with
    | none | volatile => simp [State.applyReset, hb']
    | persistent => exact absurd hb' hb

/-! ## The queue under commands (20_memory R236) -/

/-- Settles O56: a command only adds to the queue, and the slot an append fills is not queued yet. -/
theorem noCommandRemovesAnEntry : Obligations.NoCommandRemovesAnEntry := by
  intro i s t _ hs hcmd h
  have heff := exec_effect h
  obtain ⟨-, -, -, hreps⟩ := heff.queueInv hs
  have hkept (hhead : t.qHead = s.qHead)
      (hslot : ∀ j < s.cfg.n, s.queued j → t.queued j ∧ (t.slotAt j).frame = (s.slotAt j).frame) :
      t.qHead = s.qHead ∧ ∀ j < s.cfg.n, s.queued j →
        t.queued j ∧ (t.slotAt j).frame = (s.slotAt j).frame ∧ 1 ≤ (t.slotAt j).reps.toNat := by
    refine ⟨hhead, fun j hj hqueued => ?_⟩
    obtain ⟨hqueued', hframe⟩ := hslot j hj hqueued
    exact ⟨hqueued', hframe, (hreps j (by rwa [heff.cfg])).mp hqueued'⟩
  cases heff with
  | answer | start | wipe => exact hkept rfl fun j _ hqueued => ⟨hqueued, rfl⟩
  | overwrite => exact hkept rfl fun j _ hqueued => ⟨hqueued, s.frame_slotAt_setHeadReps _ j⟩
  | @append _ f reps ctx hreq hroom =>
    obtain ⟨-, hhead, htail, -⟩ := hs
    have hnext : (s.qTail + 1) % s.cfg.n ≠ s.qHead := by simpa [State.qFull] using hroom
    refine hkept rfl fun j hj hqueued => ⟨(ring_interval_succ_end hhead htail hj hnext).mpr (.inl hqueued), ?_⟩
    have hne : s.qTail ≠ j := by
      rintro rfl
      exact lt_irrefl _ hqueued
    change ((s.append f reps ctx).slotAt j).frame = _
    rw [State.slotAt_append, if_neg fun h => hne h.1]
  | ignore | listen | send | sample | pause | pulse | finish => cases hcmd

end Sys2Proof.Machine
end

section
/-! The encoding of a PERSISTENT store (20_memory R204): an operation on VOLATILE and the same operation on PERSISTENT give the
same state but for the byte writes sent. Only `memWrite` sends any, and only WIPE_STATE and the finish step call it. -/

namespace Sys2Proof.Machine

/-- The state on a PERSISTENT store that has been sent the byte writes `l`. -/
def State.persisted (l : List Host.Cell) (s : State) : State :=
  { s with cfg := { s.cfg with backend := .persistent }, storeLog := l }

/-- `p` is `s` on a PERSISTENT store that has been sent the byte writes `l`, and perhaps more. -/
def State.SentMore (l : List Host.Cell) (s p : State) : Prop := ∃ log, p = s.persisted (l ++ log)

variable (l : List Host.Cell) (s : State)

theorem State.SentMore.of_eq {l : List Host.Cell} {s p : State} (h : p = s.persisted l) : State.SentMore l s p :=
  ⟨[], by rw [h, List.append_nil]⟩

/-- An operation that sends nothing keeps what was sent before it. -/
theorem State.SentMore.map {l : List Host.Cell} {s p : State} {f : State → State} (h : State.SentMore l s p)
    (hf : ∀ l, f (s.persisted l) = (f s).persisted l) : State.SentMore l (f s) (f p) := by
  obtain ⟨log, rfl⟩ := h
  exact ⟨log, hf _⟩

/-! ## The operations that call `memWrite` -/

section

variable {s : State} (hb : s.cfg.backend = .volatile)
include hb

theorem State.memRead_persisted (k : Key) : (s.persisted l).memRead k = s.memRead k := by
  rw [State.memRead_eq, State.memRead_eq, if_neg (by simp [State.persisted]), if_neg (by simp [hb])]
  rfl

theorem State.memWrite_persisted (k : Key) (v : Byte) :
    (s.persisted l).memWrite k v = (s.memWrite k v).persisted (l ++ [(k.toNat, v - 1)]) := by
  rw [State.memWrite_eq, State.memWrite_eq]
  simp [State.persisted, hb]

theorem State.wipe_persisted (ks : List Key) : State.SentMore l (State.wipe ks s) (State.wipe ks (s.persisted l)) := by
  induction ks generalizing s l with
  | nil => exact .of_eq rfl
  | cons k ks ih =>
    obtain ⟨log, h⟩ := ih (l ++ [(k.toNat, 0 - 1)]) (s := s.memWrite k 0) (by rw [State.memWrite_cfg, hb])
    exact ⟨(k.toNat, 0 - 1) :: log, by rw [State.wipe, State.memWrite_persisted l hb, h, List.append_assoc]; rfl⟩

theorem State.deliver_persisted (r : Resolved) (n : BitVec 8) :
    State.SentMore l (s.deliver r n) ((s.persisted l).deliver r n) := by
  rw [State.deliver_eq, State.deliver_eq]
  by_cases hu : r.unit = 0
  · simp only [hu, if_true]
    exact .of_eq rfl
  · simp only [hu, if_false, State.memRead_persisted l hb, State.memWrite_persisted l hb]
    exact ⟨_, rfl⟩

theorem State.endOfMessage_persisted (n : BitVec 8) :
    State.SentMore l (s.endOfMessage n) ((s.persisted l).endOfMessage n) := by
  have hvalid : (s.persisted l).rx.cmdValid = s.rx.cmdValid := rfl
  have hres : resolveCommand (s.persisted l).cfg.presetDimEnable (s.persisted l).rx (s.persisted l).addr =
      resolveCommand s.cfg.presetDimEnable s.rx s.addr := rfl
  simp only [State.endOfMessage, State.processCommand, hvalid, hres]
  split
  · exact .of_eq rfl
  · cases resolveCommand s.cfg.presetDimEnable s.rx s.addr with
    | none => exact .of_eq rfl
    | some r => exact (State.deliver_persisted l hb r n).map (f := State.clearAll) fun _ => rfl

end

/-! ## The finish step -/

theorem State.checkpoint_persisted (c : Nat) : (s.persisted l).checkpoint c = (s.checkpoint c).persisted l := by
  simp only [State.checkpoint, apply_ite (State.persisted l)]
  rfl

theorem State.detect_persisted (b : Bool) : (s.persisted l).detect b = (s.detect b).persisted l := by
  simp only [State.detect, apply_ite (State.persisted l)]
  rfl

section

variable {s : State} (hb : s.cfg.backend = .volatile)
include hb

theorem State.rxStep_persisted (b : Bool) : State.SentMore l (s.rxStep b) ((s.persisted l).rxStep b) := by
  have hrx : (s.persisted l).rx = s.rx := rfl
  have hcounted : (s.persisted l).counted = s.counted.persisted l := rfl
  have haccept : (s.counted.persisted l).acceptBit = s.counted.acceptBit.persisted l := rfl
  simp only [State.rxStep_eq, hrx, hcounted, haccept, State.checkpoint_persisted]
  split
  · exact .of_eq rfl
  · split
    · exact (State.endOfMessage_persisted l (s := s.counted) hb _).map
        (f := fun u => { u with onesCount := if b then 2 else 0 }) fun _ => rfl
    · split
      · exact State.endOfMessage_persisted l (by rw [(State.checkpoint_frame _ _).cfg]; exact hb) 62
      · exact .of_eq rfl

theorem State.finish_persisted : State.SentMore l s.finish (s.persisted l).finish := by
  have hclosed : (s.persisted l).closed = s.closed.persisted l := rfl
  have hrx : (s.persisted l).rx = s.rx := rfl
  have hlatch : (s.persisted l).inLatch = s.inLatch := rfl
  simp only [State.finish_eq, hclosed, hrx, hlatch, State.detect_persisted]
  split
  · exact State.rxStep_persisted l (s := s.closed) hb s.inLatch
  · exact .of_eq rfl

/-! ## TIMER -/

theorem State.endFirstPulse_persisted : State.SentMore l s.endFirstPulse (s.persisted l).endFirstPulse := by
  by_cases hrepeat : s.txOut = true ∧ s.cfg.phases > 1
  · have hstep : s.endFirstPulse = { (s.setOut false).armTimer (s.cfg.tPhase - s.cfg.tPulse) with slot := 3 } :=
      if_pos hrepeat
    exact .of_eq (by rw [hstep]; exact if_pos hrepeat)
  · have hstep : s.endFirstPulse = (s.setOut false).finish := if_neg hrepeat
    have hstep' : (s.persisted l).endFirstPulse = ((s.setOut false).persisted l).finish := if_neg hrepeat
    rw [hstep, hstep']
    exact State.finish_persisted l hb

theorem State.endPhasePulse_persisted : State.SentMore l s.endPhasePulse (s.persisted l).endPhasePulse := by
  by_cases hlast : s.slot.toNat = 2 * s.cfg.phases
  · have hstep : s.endPhasePulse = (s.setOut false).finish := if_pos hlast
    have hstep' : (s.persisted l).endPhasePulse = ((s.setOut false).persisted l).finish := if_pos hlast
    rw [hstep, hstep']
    exact State.finish_persisted l hb
  · have hstep : s.endPhasePulse =
        { (s.setOut false).armTimer (s.cfg.tPhase - s.cfg.tPulse) with slot := s.slot + 1 } := if_neg hlast
    exact .of_eq (by rw [hstep]; exact if_neg hlast)

/-- On PERSISTENT a TIMER that has a next state has one too, the same but for what was sent. -/
theorem execTimer_persisted {t : State} (h : execTimer s = .next t) :
    ∃ p, execTimer (s.persisted l) = .next p ∧ State.SentMore l t p := by
  have harmed : (s.persisted l).timerArmed = s.timerArmed := rfl
  have hslot : (s.persisted l).slot = s.slot := rfl
  have hphases : (s.persisted l).cfg.phases = s.cfg.phases := rfl
  have hdisarm : (s.persisted l).disarmTimer = s.disarmTimer.persisted l := rfl
  rw [execTimer_eq] at h ⊢
  rw [harmed, hslot, hphases, hdisarm]
  split_ifs at h ⊢ <;> cases h
  · exact ⟨_, rfl, .of_eq rfl⟩
  · exact ⟨_, rfl, State.endFirstPulse_persisted l hb⟩
  · exact ⟨_, rfl, .of_eq rfl⟩
  · exact ⟨_, rfl, State.endPhasePulse_persisted l hb⟩

end

/-! ## ZC, which has no business with the store -/

theorem State.endOfRepetition_persisted (w : Frame) (sh : Shape) :
    (s.persisted l).endOfRepetition w sh = (s.endOfRepetition w sh).persisted l := by
  simp only [State.endOfRepetition, apply_ite (State.persisted l)]
  rfl

theorem State.nextBitOf_persisted (w : Frame) (sh : Shape) :
    (s.persisted l).nextBitOf w sh = ((s.nextBitOf w sh).1, (s.nextBitOf w sh).2.persisted l) := by
  have hhold : (s.persisted l).holdsPartTwo sh = s.holdsPartTwo sh := rfl
  have hcount : { s.persisted l with txCount := BitVec.ofNat 8 (s.txCount.toNat + 1) } =
      { s with txCount := BitVec.ofNat 8 (s.txCount.toNat + 1) }.persisted l := rfl
  have htx : (s.persisted l).txCount = s.txCount := rfl
  simp only [State.nextBitOf, hhold, htx, hcount, State.endOfRepetition_persisted]
  split
  · rfl
  · rw [apply_ite (State.persisted l)]

theorem State.nextBit_persisted : (s.persisted l).nextBit = s.nextBit.map fun r => (r.1, r.2.persisted l) := by
  have hhead : (s.persisted l).headSlot = s.headSlot := rfl
  rw [State.nextBit, State.nextBit, hhead]
  cases frameShape s.headSlot.frame with
  | none => rfl
  | some sh => simp only [State.nextBitOf_persisted, Option.map_some]

theorem execZc_persisted : execZc (s.persisted l) = mapNext (State.persisted l) (execZc s) := by
  have henable : (s.persisted l).enable = s.enable := rfl
  have hopened : (s.persisted l).opened = s.opened.persisted l := rfl
  have hready : (s.opened.persisted l).txReady = s.opened.txReady := rfl
  simp only [execZc, State.markOverrun_beginHalfCycle, henable, hopened, hready, State.nextBit_persisted]
  split
  · rfl
  · split
    · cases s.opened.nextBit with
      | none => rfl
      | some r =>
        obtain ⟨b, u⟩ := r
        cases b <;> rfl
    · rfl

/-! ## The step -/

theorem State.enqueue_persisted (w : Frame) (reps : BitVec 8) (ctx : Bool) :
    (s.persisted l).enqueue w reps ctx = (s.enqueue w reps ctx).persisted l := by
  simp only [State.enqueue, apply_ite (State.persisted l)]
  rfl

/-- 20_memory R204: an instruction that has a next state on VOLATILE has the same on PERSISTENT, but for what was sent. -/
theorem exec_persisted {s t : State} {i : Instr} (hb : s.cfg.backend = .volatile) (h : exec i s = .next t) :
    ∃ p, exec i (s.persisted l) = .next p ∧ State.SentMore l t p := by
  cases hq : enqRequest i with
  | some q =>
    obtain ⟨w, reps, ctx⟩ := q
    rw [exec_of_enqRequest _ hq] at h ⊢
    cases h
    exact ⟨_, rfl, .of_eq (State.enqueue_persisted l s w reps ctx)⟩
  | none =>
    by_cases hwf : i.wellFormed = false
    · rw [exec_of_not_wellFormed _ hwf] at h ⊢
      cases h
      exact ⟨_, rfl, .of_eq rfl⟩
    · unfold enqRequest at hq
      rw [if_neg hwf] at hq
      cases i with
      | enqAddress | enqCommand | enqDimPercent | enqExtDimPercent | enqRawExt => cases hq
      | start | getStatus => cases h; exact ⟨_, rfl, .of_eq rfl⟩
      | getState =>
        rw [exec_getState, if_neg hwf] at h ⊢
        cases h
        exact ⟨_, rfl, .of_eq (by rw [State.memRead_persisted l hb]; rfl)⟩
      | wipeState house unit =>
        rw [exec_wipeState, if_neg hwf] at h ⊢
        cases h
        exact ⟨_, rfl, (State.wipe_persisted l hb _).map (f := fun u => u.respond .ok 0) fun _ => rfl⟩
      | pctToBright =>
        rw [exec_pctToBright, if_neg hwf] at h ⊢
        cases h
        exact ⟨_, rfl, .of_eq rfl⟩
      | brightToPct =>
        rw [exec_brightToPct, if_neg hwf] at h ⊢
        cases h
        exact ⟨_, rfl, .of_eq rfl⟩
      | zc => exact ⟨_, (execZc_persisted l s).trans (congrArg _ h), .of_eq rfl⟩
      | timer => exact execTimer_persisted l hb h

/-- Settles O59: `exec_persisted`, from the writes sent so far. -/
theorem persistentActsAsVolatile : Obligations.PersistentActsAsVolatile := by
  intro i s t hb h
  obtain ⟨p, hp, log, rfl⟩ := exec_persisted s.storeLog hb h
  refine ⟨log, hp.trans ?_⟩
  rw [← (exec_effect h).cfg]
  rfl

end Sys2Proof.Machine
end

section
/-! The words on the ports (30_encoding R330 to R341): an encoded instruction decodes to itself, a word that is no
instruction is answered without effect, and only the bits a row uses are read. -/

namespace Sys2Proof.Machine

/-- Settles O4: an assembled word's OP selects the row, whose fields read back what was put in. -/
theorem decodeInvertsEncode : Obligations.DecodeInvertsEncode := by
  intro i
  cases i with
  | zc | timer => rfl
  | _ => simp only [encode, decode, decodeCommand_commandWord, decodeOp, fieldOp_commandWord, fieldCtx_commandWord,
      fieldReps_commandWord, fieldHouse_commandWord, fieldUnit_commandWord, fieldCmd_commandWord, fieldTime_commandWord,
      fieldXdata_commandWord, fieldXcmd_commandWord, fieldVal_commandWord, BitVec.ofNat_eq_ofNat, BitVec.reduceToNat]

/-! ## Words that are no instruction (30_encoding R334, R339, R343) -/

theorem decodeOp_of_reservedOpcode {w : CommandWord}
    (h : (fieldOp w).toNat ∉ [0x01, 0x02, 0x10, 0x11, 0x12, 0x13, 0x14, 0x20, 0x21, 0x30, 0x31]) :
    decodeOp w = .reject .reservedOpcode := by
  unfold decodeOp
  split
  case h_12 => rfl
  all_goals
    rename_i hop
    rw [hop] at h
    exact absurd (by decide) h

theorem step_of_reject {s : State} {x : Input} {rest : List Input} {e : DecodeError} (hp : s.port = x :: rest)
    (hd : decode x.word = .reject e) : step s = (s.present x rest).undecoded e := by
  rw [step, hp]
  simp only [hd]

/-- Settles O3: reserved bits and a reserved opcode are rejected for different reasons, with the same answer. -/
theorem undecodableWordsAnswerIllegal : Obligations.UndecodableWordsAnswerIllegal := by
  intro s w now b rest hp hbad
  by_cases hrsvd : fieldRsvd w = 0
  · have hop := decodeOp_of_reservedOpcode (hbad.resolve_left (not_not_intro hrsvd))
    have hdec : decode (.command w) = .reject .reservedOpcode := (if_neg (not_not_intro hrsvd)).trans hop
    exact step_of_reject hp hdec
  · have hdec : decode (.command w) = .reject .reservedBits := if_pos hrsvd
    exact step_of_reject hp hdec

/-- Settles O2: neither code decodes. -/
theorem eventCodesWithoutAnEvent : Obligations.EventCodesWithoutAnEvent := by
  intro s x rest hp
  constructor
  · intro hx
    have hdec : decode x.word = .reject .noEvent := by rw [hx]; rfl
    exact step_of_reject hp hdec
  · intro hx
    have hdec : decode x.word = .reject .reservedEvent := by rw [hx]; rfl
    exact step_of_reject hp hdec

/-- Settles O6: each word is evaluated. -/
theorem exampleWordsDecode : Obligations.ExampleWordsDecode := by
  unfold Obligations.ExampleWordsDecode
  decide

/-! ## Unused fields (30_encoding R335) -/

/-- Words that agree under a mask agree on every field the mask covers. -/
theorem extractLsb'_eq_of_and_eq {w w' m : CommandWord} {lo len : Nat} (hm : w &&& m = w' &&& m)
    (hcover : m.extractLsb' lo len = BitVec.allOnes len) : w.extractLsb' lo len = w'.extractLsb' lo len := by
  have h := congrArg (BitVec.extractLsb' lo len) hm
  rwa [BitVec.extractLsb'_and, BitVec.extractLsb'_and, hcover, BitVec.and_allOnes, BitVec.and_allOnes] at h

/-- Every command's row uses OP and RSVD. -/
theorem usedBits_covers_header {i : Instr} (h : isEvent i = false) :
    (usedBits i).extractLsb' 56 8 = BitVec.allOnes 8 ∧ (usedBits i).extractLsb' 48 7 = BitVec.allOnes 7 := by
  cases i with
  | zc | timer => cases h
  | _ => rw [usedBits]; decide

/-- 30_encoding R340: the opcode is read only where no reserved bit is set. -/
theorem decode_command_eq_instr_iff {w : CommandWord} {i : Instr} :
    decode (.command w) = .instr i ↔ fieldRsvd w = 0 ∧ decodeOp w = .instr i := by
  change decodeCommand w = _ ↔ _
  unfold decodeCommand
  split
  case isTrue hrsvd => exact iff_of_false (by simp) fun h => hrsvd h.1
  case isFalse hrsvd => exact (and_iff_right (not_not.mp hrsvd)).symm

/-- OP selects commands only. -/
theorem isEvent_of_decodeOp {w : CommandWord} {i : Instr} (h : decodeOp w = .instr i) : isEvent i = false := by
  unfold decodeOp at h
  split at h <;> cases h <;> rfl

/-- The row OP selects reads its own fields, each of which `usedBits` covers, and no other. -/
theorem decodeOp_congr {w w' : CommandWord} {i : Instr} (hm : w &&& usedBits i = w' &&& usedBits i)
    (h : decodeOp w = .instr i) : decodeOp w' = .instr i := by
  have hop : fieldOp w = fieldOp w' :=
    extractLsb'_eq_of_and_eq hm (usedBits_covers_header (isEvent_of_decodeOp h)).1
  rw [← h]
  unfold decodeOp at h ⊢
  rw [← hop]
  split at h <;> cases h
  all_goals
    simp only [usedBits] at hm
    simp (disch := decide) only [*, fieldCtx, fieldReps, fieldHouse, fieldUnit, fieldCmd, fieldTime, fieldXdata, fieldXcmd,
      fieldVal, extractLsb'_eq_of_and_eq hm]

/-- Settles O5: OP and RSVD are used by every row, the row's own fields by `decodeOp_congr`. -/
theorem unusedFieldsAreIgnored : Obligations.UnusedFieldsAreIgnored := by
  intro w w' i h hm
  rw [decode_command_eq_instr_iff] at h ⊢
  obtain ⟨hrsvd, hrow⟩ := h
  have hsame : fieldRsvd w = fieldRsvd w' :=
    extractLsb'_eq_of_and_eq hm (usedBits_covers_header (isEvent_of_decodeOp hrow)).2
  exact ⟨hsame ▸ hrsvd, decodeOp_congr hm hrow⟩

end Sys2Proof.Machine
end

section
/-! What a command puts on the wire and what it answers: the frame each enqueue asks for, field by field (30_encoding R312 to
R317), and the one response of every command (30_encoding R336, R337). -/

namespace Sys2Proof.Machine

/-! ## Frames and the operands in them (40_send_buffer R420 to R440) -/

/-- 30_encoding R317: the layout `build` chooses by command and unit; the override takes the house nibble's place. -/
theorem buildFrame_layout (h : BitVec 4) (u : BitVec 5) (c : Nibble) (xd xc : Byte) (hp : Option Nibble) :
    if isExtCmd c = true then ExtendedLayout (buildFrame h u c xd xc hp) (houseCode h) c (unitCode u) xd xc
    else if u = 0 then CommandOnlyLayout (buildFrame h u c xd xc hp) (hp.getD (houseCode h)) c
    else StandardLayout (buildFrame h u c xd xc hp) (houseCode h) (unitCode u) c (hp.getD (houseCode h)) := by
  unfold buildFrame
  split
  · exact extendedFrame_layout ..
  · split
    · exact commandOnlyFrame_layout ..
    · exact standardFrame_layout ..

/-- 40_send_buffer R440: a code that is not extended carries no data in any case. -/
theorem rawExtFrame_eq_buildFrame (h : BitVec 4) (u : BitVec 5) (c : Nibble) (xd xc : Byte) :
    (if isExtCmd c then extendedFrame h u c xd xc else buildFrame h u c 0 0 none) = buildFrame h u c xd xc none := by
  unfold buildFrame
  split <;> rfl

theorem houseOfField_eq_ofNat (house : BitVec 5) : houseOfField house = BitVec.ofNat 4 house.toNat :=
  (BitVec.ofNat_toNat 4 house).symm

/-- 40_send_buffer R430: both preset codes are no extended code. -/
theorem isExtCmd_presetCmd (level : BitVec 5) : isExtCmd (presetCmd level) = false := by
  revert level; decide

theorem presetLevel_toNat {val : BitVec 8} (h : percentOk val = true) :
    (presetLevel val).toNat = ((val.toNat * 62 + 50) / 100 + 1) / 2 := by
  simp only [percentOk, decide_eq_true_eq] at h
  simp only [presetLevel, p2bNat, BitVec.toNat_ofNat]
  omega

theorem presetCmd_eq_ofNat (level : BitVec 5) : presetCmd level = BitVec.ofNat 4 (10 + level.toNat / 16) := by
  revert level; decide

theorem presetNibble_eq_houseCode (level : BitVec 5) :
    presetNibble level = houseCode (BitVec.ofNat 4 (level.toNat % 16)) := by
  revert level; decide

/-- 40_send_buffer R435: the brightness of a percentage fits its six bits. -/
theorem extDimData_eq_ofNat {val : BitVec 8} (h : percentOk val = true) (time : BitVec 2) :
    extDimData time val = BitVec.ofNat 8 (time.toNat * 64 + (val.toNat * 62 + 50) / 100) := by
  simp only [percentOk, decide_eq_true_eq] at h
  have hfits : (val.toNat * 62 + 50) / 100 < 64 := by omega
  apply BitVec.eq_of_toNat_eq
  rw [extDimData, toNat_append_add, p2b, p2bNat, BitVec.toNat_ofNat, BitVec.toNat_ofNat, Nat.mod_eq_of_lt hfits,
    Nat.mod_eq_of_lt (by omega)]
  rfl

/-- Settles O15: each request is a built frame, whose layout is `buildFrame_layout`. -/
theorem enqueuedFrameLayouts : Obligations.EnqueuedFrameLayouts := by
  intro x ctx reps r house unit cmd time xd xc val f
  dsimp only
  rw [← houseOfField_eq_ofNat]
  refine ⟨fun h => ?address, fun h => ?command, fun h => ?dim, fun h => ?extDim, fun h => ?rawExt⟩ <;>
    obtain ⟨hwf, hreq⟩ := Option.ite_none_left_eq_some.mp h <;> cases hreq
  case address => exact ⟨addressFrame_layout .., rfl, rfl⟩
  case command => exact ⟨buildFrame_layout .., rfl, rfl⟩
  case dim =>
    have hval : percentOk val = true := by simp_all [Instr.wellFormed]
    have hlayout := buildFrame_layout (houseOfField house) unit (presetCmd (presetLevel val)) 0 0
      (some (presetNibble (presetLevel val)))
    rw [if_neg (by simp [isExtCmd_presetCmd])] at hlayout
    rw [← presetLevel_toNat hval, ← presetCmd_eq_ofNat, ← presetNibble_eq_houseCode]
    exact ⟨hlayout, rfl, rfl⟩
  case extDim =>
    have hval : percentOk val = true := by simp_all [Instr.wellFormed]
    rw [← extDimData_eq_ofNat hval]
    exact ⟨extendedFrame_layout .., rfl, rfl⟩
  case rawExt =>
    rw [rawExtFrame_eq_buildFrame]
    exact ⟨buildFrame_layout .., rfl, rfl⟩

/-! ## The response (30_encoding R336, R337) -/

/-- The step has answered, with OK, or with FULL or INVALID and no result. -/
def State.Answered (t : State) : Prop :=
  ∃ r, t.rsp = some r ∧
    (r.extractLsb' 24 8 = 0 ∨ ((r.extractLsb' 24 8 = 1 ∨ r.extractLsb' 24 8 = 2) ∧ r.extractLsb' 0 24 = 0))

theorem State.answered_respond_ok (s : State) (result : BitVec 24) : (s.respond .ok result).Answered :=
  ⟨_, rfl, .inl BitVec.extractLsb'_append_eq_left⟩

theorem State.answered_respond_full (s : State) : (s.respond .full 0).Answered :=
  ⟨_, rfl, .inr ⟨.inl BitVec.extractLsb'_append_eq_left, BitVec.extractLsb'_append_eq_right⟩⟩

theorem State.answered_respond_invalid (s : State) : (s.respond .invalid 0).Answered :=
  ⟨_, rfl, .inr ⟨.inr BitVec.extractLsb'_append_eq_left, BitVec.extractLsb'_append_eq_right⟩⟩

/-- 40_send_buffer R411: an enqueue answers OK, or FULL with nothing done. -/
theorem State.answered_enqueue (s : State) (f : Frame) (reps : BitVec 8) (ctx : Bool) :
    (s.enqueue f reps ctx).Answered := by
  rcases s.enqueue_cases f reps ctx with ⟨-, -, h⟩ | ⟨-, -, -, h⟩ | ⟨-, -, -, -, h⟩ | ⟨-, -, h⟩ <;> rw [h]
  · exact answered_respond_ok _ _
  · exact answered_respond_ok _ _
  · exact answered_respond_ok _ _
  · exact answered_respond_full _

/-- Every command that asks for nothing to be queued and has its operands in range answers OK. -/
theorem exec_answers_ok {i : Instr} (s : State) (hcmd : isEvent i = false) (hwf : ¬i.wellFormed = false)
    (hreq : enqRequest i = none) : ∃ t result, exec i s = .next (State.respond t .ok result) := by
  unfold enqRequest at hreq
  rw [if_neg hwf] at hreq
  cases i with
  | enqAddress | enqCommand | enqDimPercent | enqExtDimPercent | enqRawExt => cases hreq
  | zc | timer => cases hcmd
  | start | getStatus => exact ⟨_, _, rfl⟩
  | getState => rw [exec_getState, if_neg hwf]; exact ⟨_, _, rfl⟩
  | wipeState => rw [exec_wipeState, if_neg hwf]; exact ⟨_, _, rfl⟩
  | pctToBright => rw [exec_pctToBright, if_neg hwf]; exact ⟨_, _, rfl⟩
  | brightToPct => rw [exec_brightToPct, if_neg hwf]; exact ⟨_, _, rfl⟩

theorem exec_answered {i : Instr} (s : State) (hcmd : isEvent i = false) : ∃ t, exec i s = .next t ∧ t.Answered := by
  by_cases hwf : i.wellFormed = false
  · exact ⟨_, exec_of_not_wellFormed s hwf, State.answered_respond_invalid s⟩
  · cases hreq : enqRequest i with
    | some q => exact ⟨_, exec_of_enqRequest s hreq, State.answered_enqueue s ..⟩
    | none =>
      obtain ⟨t, result, h⟩ := exec_answers_ok s hcmd hwf hreq
      exact ⟨_, h, State.answered_respond_ok t result⟩

/-- Settles O16: an operand out of range, an enqueue, or any other command. -/
theorem everyCommandAnswersOnce : Obligations.EveryCommandAnswersOnce := by
  intro i s hcmd
  obtain ⟨t, hexec, r, hrsp, hlegal⟩ := exec_answered s hcmd
  exact ⟨t, r, hexec, hrsp, hlegal⟩

end Sys2Proof.Machine
end

section
/-! The send buffer (40_send_buffer): the four rules of the common enqueue procedure as exact next states, the operands every
command refuses, and what a command and its CTX bit cannot touch. -/

namespace Sys2Proof.Machine

/-! ## The coalescing rules, one equation each (40_send_buffer R401) -/

section
variable (s : State) (f : Frame) (reps : BitVec 8) (ctx : Bool)

/-- Rule 1 (40_send_buffer R402). -/
theorem State.enqueue_of_head (hhead : s.headSlot.frame = f ∧ 0 < s.headSlot.reps.toNat) :
    s.enqueue f reps ctx = (s.setHeadReps reps).respondEnq 1 :=
  if_pos hhead

/-- Rule 2 (40_send_buffer R403, R404). -/
theorem State.enqueue_of_new (hhead : ¬(s.headSlot.frame = f ∧ 0 < s.headSlot.reps.toNat)) (hroom : s.qFull = false)
    (hnew : (s.slotAt s.qLast).frame ≠ f ∨ s.rebufferElapsed = true) :
    s.enqueue f reps ctx = (s.append f reps ctx).respondEnq 0 := by
  rw [State.enqueue, if_neg hhead, if_pos hroom, if_pos hnew]

/-- Rule 3 (40_send_buffer R406). -/
theorem State.enqueue_of_duplicate (hhead : ¬(s.headSlot.frame = f ∧ 0 < s.headSlot.reps.toNat)) (hroom : s.qFull = false)
    (hlast : (s.slotAt s.qLast).frame = f) (hwindow : s.rebufferElapsed = false) :
    s.enqueue f reps ctx = s.respondEnq 2 := by
  rw [State.enqueue, if_neg hhead, if_pos hroom, if_neg (by simp [hlast, hwindow])]

/-- Rule 4 (40_send_buffer R408). -/
theorem State.enqueue_of_full (hhead : ¬(s.headSlot.frame = f ∧ 0 < s.headSlot.reps.toNat)) (hfull : s.qFull = true) :
    s.enqueue f reps ctx = s.respond .full 0 := by
  rw [State.enqueue, if_neg hhead, if_neg (by simp [hfull])]

/-! ## The rules' conditions and the answer, in numbers -/

theorem State.qFull_iff : s.qFull = true ↔ (s.qTail + 1) % s.cfg.n = s.qHead := beq_iff_eq

theorem State.qFull_eq_false_iff : s.qFull = false ↔ (s.qTail + 1) % s.cfg.n ≠ s.qHead := beq_eq_false_iff_ne

/-- 40_send_buffer R407. -/
theorem State.rebufferElapsed_iff :
    s.rebufferElapsed = true ↔
      s.nowMs.toNat < s.lastMs.toNat ∨ s.cfg.rebufferDelayMs.toNat ≤ s.nowMs.toNat - s.lastMs.toNat := by
  simp [State.rebufferElapsed]

/-- 40_send_buffer R411: the length of a legal ring fits its byte, so the response is the number it spells. -/
theorem State.respondEnq_eq (hlegal : s.cfg.Legal) (action : BitVec 2) :
    s.respondEnq action = { s with rsp := some (BitVec.ofNat 32 (s.qLen * 256 + action.toNat)) } := by
  obtain ⟨hmin, hmax, -⟩ := hlegal
  have hlen : s.qLen < s.cfg.n := Nat.mod_lt _ (by omega)
  have hword : (statusCode .ok ++ enqResult s.qLen action : Response) = BitVec.ofNat 32 (s.qLen * 256 + action.toNat) := by
    rw [respWord_eq, enqResult_toNat, Nat.mod_eq_of_lt (by omega), show (statusCode .ok).toNat = 0 from rfl, Nat.zero_mul,
      Nat.zero_add]
  rw [← hword]
  rfl

/-- An append with room makes the queue one longer (10_state R107). -/
theorem State.qLen_append (hhead : s.qHead < s.cfg.n) (htail : s.qTail < s.cfg.n) (hroom : s.qFull = false) :
    (s.append f reps ctx).qLen = s.qLen + 1 := by
  rw [State.qFull_eq_false_iff] at hroom
  have hnext : (s.qTail + 1) % s.cfg.n < s.cfg.n := Nat.mod_lt _ (by omega)
  simp only [State.qLen, State.append_qTail, State.append_qHead, State.append_cfg]
  rw [ring_sub_eq hhead hnext, ring_sub_eq hhead htail]
  rw [ring_succ_eq htail] at hroom ⊢
  split_ifs at hroom ⊢ <;> omega

end

/-! ## The exact next state of an enqueue -/

/-- Settles O10: rule 1, whose overwrite keeps the queue length. -/
theorem enqueueOfHeadOverwritesRepetitions : Obligations.EnqueueOfHeadOverwritesRepetitions := by
  intro s i f reps ctx hreq hlegal hframe hreps
  rw [exec_of_enqRequest s hreq, s.enqueue_of_head f reps ctx ⟨hframe, hreps⟩,
    (s.setHeadReps reps).respondEnq_eq hlegal, ← hframe]
  rfl

/-- Settles O11: rule 2; the new length is `State.qLen_append`. -/
theorem enqueueAppendsAtTheTail : Obligations.EnqueueAppendsAtTheTail := by
  intro s i f reps ctx hreq hlegal hhead htail hother hroom hnew
  rw [← State.qFull_eq_false_iff] at hroom
  rw [← State.rebufferElapsed_iff] at hnew
  rw [exec_of_enqRequest s hreq, s.enqueue_of_new f reps ctx hother hroom hnew,
    (s.append f reps ctx).respondEnq_eq hlegal, s.qLen_append f reps ctx hhead htail hroom]
  simp only [State.append, State.qEmpty, Bool.and_eq_true, beq_iff_eq, BitVec.ofNat_eq_ofNat, BitVec.reduceToNat,
    Nat.add_zero]

/-- Settles O12: rule 3. -/
theorem enqueueSuppressesADuplicate : Obligations.EnqueueSuppressesADuplicate := by
  intro s i f reps ctx hreq hlegal hother hroom hlast hclock hwindow
  have hinside : s.rebufferElapsed = false := by
    rw [← Bool.not_eq_true, State.rebufferElapsed_iff]
    omega
  rw [exec_of_enqRequest s hreq,
    s.enqueue_of_duplicate f reps ctx hother (s.qFull_eq_false_iff.mpr hroom) hlast hinside, s.respondEnq_eq hlegal]
  rfl

/-- Settles O13: rule 4. -/
theorem enqueueOnAFullQueueFails : Obligations.EnqueueOnAFullQueueFails := by
  intro s i f reps ctx hreq hother hfull
  rw [exec_of_enqRequest s hreq, s.enqueue_of_full f reps ctx hother (s.qFull_iff.mpr hfull)]
  rfl

/-! ## INVALID (40_send_buffer R410) -/

/-- 30_encoding R336, R337: the STATUS byte alone tells a response from INVALID. -/
theorem respWord_ne_invalid {st : Status} (h : st ≠ .invalid) (result : BitVec 24) :
    (statusCode st ++ result : Response) ≠ 0x02000000 := by
  intro heq
  have hstatus : statusCode st = 2 := BitVec.extractLsb'_append_eq_left.symm.trans (congrArg (BitVec.extractLsb' 24 8) heq)
  cases st with
  | invalid => exact h rfl
  | ok | full | illegal => exact absurd hstatus (by decide)

theorem State.respond_rsp_ne_invalid (s : State) {st : Status} (h : st ≠ .invalid) (result : BitVec 24) :
    (s.respond st result).rsp ≠ some 0x02000000 :=
  fun heq => respWord_ne_invalid h result (Option.some.inj heq)

/-- 40_send_buffer R401: no coalescing rule answers INVALID. -/
theorem State.enqueue_rsp_ne_invalid (s : State) (f : Frame) (reps : BitVec 8) (ctx : Bool) :
    (s.enqueue f reps ctx).rsp ≠ some 0x02000000 := by
  rcases s.enqueue_cases f reps ctx with ⟨-, -, h⟩ | ⟨-, -, -, h⟩ | ⟨-, -, -, -, h⟩ | ⟨-, -, h⟩ <;> rw [h] <;>
    exact State.respond_rsp_ne_invalid _ (by decide) _

/-- Settles O14: an ill-formed command answers INVALID before anything else; of the others an enqueue answers by its
rules and the rest answer OK. -/
theorem invalidExactlyOnOperandsOutOfRange : Obligations.InvalidExactlyOnOperandsOutOfRange := by
  refine ⟨fun i s hwf => exec_of_not_wellFormed s hwf, fun i s t hwf hcmd h => ?_⟩
  cases hreq : enqRequest i with
  | some q =>
    rw [exec_of_enqRequest s hreq] at h
    cases h
    exact s.enqueue_rsp_ne_invalid _ _ _
  | none =>
    obtain ⟨u, result, hok⟩ := exec_answers_ok s hcmd (by simp [hwf]) hreq
    rw [hok] at h
    cases h
    exact u.respond_rsp_ne_invalid (by decide) result

/-! ## What a command leaves alone, and CTX (40_send_buffer R405, R412; 46_control R713) -/

/-- Settles O55: by cases on what the command did. -/
theorem commandsLeaveTheLineSideAlone : Obligations.CommandsLeaveTheLineSideAlone := by
  intro i s t hcmd h
  cases exec_effect h with
  | answer | start => exact ⟨rfl, fun _ => ⟨rfl, rfl⟩, fun _ => ⟨rfl, rfl, rfl, rfl⟩⟩
  | overwrite hreq | append hreq =>
    exact ⟨rfl, fun _ => ⟨rfl, rfl⟩, fun hnone => absurd (hreq.symm.trans hnone) (by simp)⟩
  | wipe house unit => exact ⟨rfl, fun hne => absurd rfl (hne house unit), fun _ => ⟨rfl, rfl, rfl, rfl⟩⟩
  | ignore | listen | send | sample | pause | pulse | finish => cases hcmd

theorem wellFormed_withCtx (x : Bool) (i : Instr) : (withCtx x i).wellFormed = i.wellFormed := by
  cases i <;> rfl

/-- CTX is passed on, and what is asked for does not depend on it (46_control R713). -/
theorem enqRequest_withCtx {i : Instr} {f : Frame} {reps : BitVec 8} {ctx : Bool}
    (h : enqRequest i = some (f, reps, ctx)) (x : Bool) : enqRequest (withCtx x i) = some (f, reps, x) := by
  obtain ⟨hwf, hreq⟩ := Option.ite_none_left_eq_some.mp h
  cases i with
  | enqAddress | enqCommand | enqDimPercent | enqExtDimPercent | enqRawExt => cases hreq; exact if_neg hwf
  | _ => cases hreq

/-- Without a request to queue, CTX is not read: the command has none, or is refused first (46_control R713). -/
theorem exec_withCtx_of_no_request {i : Instr} (hreq : enqRequest i = none) (x : Bool) (s : State) :
    exec (withCtx x i) s = exec i s := by
  by_cases hwf : i.wellFormed = false
  · rw [exec_of_not_wellFormed s hwf, exec_of_not_wellFormed s ((wellFormed_withCtx x i).trans hwf)]
  · unfold enqRequest at hreq
    rw [if_neg hwf] at hreq
    cases i with
    | enqAddress | enqCommand | enqDimPercent | enqExtDimPercent | enqRawExt => cases hreq
    | _ => rfl

/-- 40_send_buffer R405: CTX acts in rule 2 only. There the tail moves on, a ring having two slots or more; in the other
rules it stays. -/
theorem State.enqueue_ctx {s : State} (hn : 2 ≤ s.cfg.n) (htail : s.qTail < s.cfg.n) (f : Frame) (reps : BitVec 8) :
    s.enqueue f reps true =
      { s.enqueue f reps false with
        zeroCount := if s.qHead = s.qTail ∧ (s.enqueue f reps false).qTail ≠ s.qTail then 0
          else (s.enqueue f reps false).zeroCount } := by
  rcases s.enqueue_cases f reps false with ⟨hframe, hreps, h⟩ | ⟨hother, hroom, hnew, h⟩ | ⟨hother, hroom, hlast, hin, h⟩ |
    ⟨hother, hfull, h⟩ <;> rw [h]
  · rw [s.enqueue_of_head f reps true ⟨hframe, hreps⟩, if_neg fun hc => hc.2 rfl]
  · have hmoved : (s.qTail + 1) % s.cfg.n ≠ s.qTail := by
      rw [ring_succ_eq htail]
      split <;> omega
    rw [s.enqueue_of_new f reps true hother hroom hnew]
    by_cases hempty : s.qHead = s.qTail <;>
      simp [State.respondEnq, State.respond, State.append, State.qEmpty, State.qLen, hempty, hmoved]
  · rw [s.enqueue_of_duplicate f reps true hother hroom hlast hin, if_neg fun hc => hc.2 rfl]
  · rw [s.enqueue_of_full f reps true hother hfull, if_neg fun hc => hc.2 rfl]

/-- Settles O17: an enqueue by `State.enqueue_ctx`; no other command reads CTX or moves the tail. -/
theorem ctxOnlyResetsQuiescence : Obligations.CtxOnlyResetsQuiescence := by
  intro i s t hlegal htail h hcmd
  cases hreq : enqRequest i with
  | some q =>
    obtain ⟨f, reps, ctx⟩ := q
    rw [exec_of_enqRequest s (enqRequest_withCtx hreq false)] at h
    cases h
    rw [exec_of_enqRequest s (enqRequest_withCtx hreq true), State.enqueue_ctx hlegal.1 htail]
  | none =>
    rw [exec_withCtx_of_no_request hreq] at h ⊢
    obtain ⟨-, -, hqueue⟩ := commandsLeaveTheLineSideAlone i s t hcmd h
    obtain ⟨-, hkept, -⟩ := hqueue hreq
    rw [h, if_neg fun hc => hc.2 hkept]

end Sys2Proof.Machine
end

section
/-! The ZC event (41_zero_cross R450 to R454): the half-cycle a ZC begins, the next bit of a repetition in progress, and the tie
between sub-state, timer request and output. -/

namespace Sys2Proof.Machine

variable {s : State}

/-- Settles O48: every effect keeps the tie under legal parameters, and the parameters themselves. -/
theorem stepKeepsTheTimerInvariant : Obligations.StepKeepsTheTimerInvariant := by
  intro s t hlegal htimer h
  have hkept : t.cfg.Legal ∧ t.TimerInv :=
    step_preserves (P := fun u => u.cfg.Legal ∧ u.TimerInv) (fun _ _ _ hp => hp) (fun _ hp => hp)
      (fun _ _ _ heff ⟨hl, hinv⟩ => ⟨heff.cfg ▸ hl, heff.timerInv hl hinv⟩) ⟨hlegal, htimer⟩ h
  exact hkept.2

/-! ## A ZC that runs (41_zero_cross R450 to R452) -/

/-- Beginning a half-cycle touches nothing the transmit condition reads. -/
theorem State.begun_txReady_iff (s : State) : s.begun.txReady = true ↔ s.mayTransmit :=
  State.txReady_iff s.begun

/-- Settles O36: with the transmit condition false the encoder is not asked. -/
theorem zcBeginsASilentHalfCycle : Obligations.ZcBeginsASilentHalfCycle := by
  intro s henable hlegal hsilent
  have hready : ¬s.begun.txReady = true := mt s.begun_txReady_iff.mp hsilent
  rw [execZc_eq hlegal, if_neg (by simp [henable]), if_neg hready]

/-- With the transmit condition true, a head frame of a produced shape has its next bit sent. -/
theorem execZc_of_mayTransmit {sh : Shape} (henable : s.enable = true) (hlegal : s.cfg.Legal) (hsend : s.mayTransmit)
    (hshape : frameShape (s.slotAt s.qHead).frame = some sh) :
    exec .zc s = .next ((s.begun.nextBitOf (s.slotAt s.qHead).frame sh).2.driveBit
      (s.begun.nextBitOf (s.slotAt s.qHead).frame sh).1) := by
  have hbit : s.begun.nextBit = some (s.begun.nextBitOf (s.slotAt s.qHead).frame sh) := by
    have hhead : s.begun.headSlot = s.slotAt s.qHead := rfl
    rw [State.nextBit, hhead, hshape]
  rw [execZc_eq hlegal, if_neg (by simp [henable]), if_pos (s.begun_txReady_iff.mpr hsend), hbit]

/-! ## The next bit (43_frame_encoder R551) -/

theorem State.holdsPartTwo_iff (s : State) (sh : Shape) : s.holdsPartTwo sh = true ↔ s.heldAtGap sh := by
  simp only [State.holdsPartTwo, State.heldAtGap, Bool.and_eq_true, beq_iff_eq, decide_eq_true_eq, and_assoc]

/-- Neither held nor at its last count, a repetition advances by one and sends that count's bit. -/
theorem State.nextBitOf_of_inside {sh : Shape} (f : Frame) (hfree : ¬s.heldAtGap sh)
    (hinside : s.txCount.toNat + 1 < endCount sh) :
    s.nextBitOf f sh = (wireBit f sh (s.txCount.toNat + 1), { s with txCount := s.txCount + 1 }) := by
  have hcount : BitVec.ofNat 8 (s.txCount.toNat + 1) = s.txCount + 1 := by simp [BitVec.ofNat_add]
  rw [State.nextBitOf, if_neg (mt (s.holdsPartTwo_iff sh).mp hfree)]
  simp only [if_neg hinside.ne, hcount]

/-- Settles O37: the half-cycle begun keeps the count and the hold, so its next bit is that of the next count. -/
theorem zcSendsTheNextWireBit : Obligations.ZcSendsTheNextWireBit := by
  intro s sh henable hlegal hsend hshape hfree hinside b
  have hbit : s.begun.nextBitOf (s.slotAt s.qHead).frame sh = (b, { s.begun with txCount := s.txCount + 1 }) :=
    State.nextBitOf_of_inside _ hfree hinside
  rw [execZc_of_mayTransmit henable hlegal hsend hshape, hbit, State.driveBit_eq]

end Sys2Proof.Machine
end

section
/-! The TIMER event (42_bit_slot_timer): the exact next state of every sub-state short of the finish step, the finish step while
no message is received, and what no TIMER touches. -/

namespace Sys2Proof.Machine

variable {s t : State}

/-! ## What TIMER leaves alone (42_bit_slot_timer R515) -/

/-- The receive path's frame as one equation. -/
theorem State.RxFrame.eq_update (h : s.RxFrame t) :
    t = { s with
      onesCount := t.onesCount, rx := t.rx, addr := t.addr, mem := t.mem, nlog := t.nlog, storeLog := t.storeLog
      notifyPort := t.notifyPort } := by
  cases h
  cases t
  simp_all

/-- A TIMER that stores at most one byte leaves every other module's byte as it was. -/
theorem State.Stores.memRead {target : Option Key} {k : Key} (h : s.Stores target t) (hk : target ≠ some k) :
    t.memRead k = s.memRead k := by
  cases h with
  | nothing hsame => exact hsame.memRead k
  | byte j v hwrite =>
    have hjk : j ≠ k := fun hjk => hk (congrArg some hjk)
    rw [hwrite.memRead, State.memRead_memWrite_other s hjk]

/-- The registers a TIMER can write: the line side, the receiver, the module store and the records. -/
theorem State.Effect.timer_frame (h : s.Effect .timer t) :
    t = { s with
      outLevel := t.outLevel, slot := t.slot, inLatch := t.inLatch, onesCount := t.onesCount, zeroCount := t.zeroCount
      timerArmed := t.timerArmed, timerDelay := t.timerDelay, rx := t.rx, addr := t.addr, mem := t.mem, nlog := t.nlog
      storeLog := t.storeLog, notifyPort := t.notifyPort } := by
  cases h with
  | answer hcmd => cases hcmd
  | overwrite hreq | append hreq => cases hreq
  | sample | pause | pulse => rfl
  | finish =>
    rw [s.received_frame.eq_update]
    rfl

/-- Settles O34: the registers by cases on the sub-state, the module bytes by the one byte a TIMER can store. -/
theorem timerFrame : Obligations.TimerFrame := by
  intro s t h
  have heffect := exec_effect h
  exact ⟨heffect.timer_frame, fun _ hk => heffect.timer_stores.memRead hk⟩

/-! ## The detector (42_bit_slot_timer R522, R523) -/

/-- The saturating count of ones, on the register's own width. -/
theorem onesCount_succ {n : BitVec 3} (hn : n.toNat ≤ 4) :
    BitVec.ofNat 3 (min (n.toNat + 1) 4) = if n = 4 then 4 else n + 1 := by
  split
  · rename_i h4
    subst h4
    rfl
  · rename_i h4
    have hlt : n.toNat + 1 ≤ 4 := lt_of_le_of_ne hn fun h => h4 (BitVec.eq_of_toNat_eq h)
    rw [Nat.min_eq_left hlt]
    simp [BitVec.ofNat_add]

theorem State.detect_eq (hones : s.onesCount.toNat ≤ 4) (b : Bool) :
    s.detect b = { s with
      onesCount := if b = false then 0 else if s.onesCount = 4 then 4 else s.onesCount + 1
      rx := if b = false ∧ s.onesCount = 3 then { active := true, count := 4 } else s.rx } := by
  rcases s.detect_cases b with ⟨rfl, h⟩ | ⟨rfl, h3, h⟩ | ⟨rfl, h3, h⟩ <;> rw [h]
  · simp [onesCount_succ hones]
  · simp [h3]
  · simp [h3]

/-- Settles O24: an idle finish step gives its sample to the detector. -/
theorem finishStepDetectsStartCodes : Obligations.FinishStepDetectsStartCodes := by
  intro s hfinish hidle hones
  rw [execTimer_atFinish hfinish, State.received, if_neg (by simp [hidle]), State.detect_eq (s := s.ended) hones]
  rfl

/-! ## The sub-states before the last (42_bit_slot_timer R505 to R509) -/

theorem delayWord_of_lt {d : Nat} (h : d < 65536) : delayWord d = BitVec.ofNat 16 d := if_pos h

/-- A TIMER its request and sub-state allow runs that sub-state (42_bit_slot_timer R500, R511, R512). -/
theorem execTimer_of_armed (harmed : s.timerArmed = true) (hlow : 1 ≤ s.slot.toNat) (hmax : s.slot.toNat ≤ 2 * s.cfg.phases) :
    exec .timer s =
      if s.slot.toNat = 1 then .next s.disarmTimer.sampleLine
      else if s.slot.toNat = 2 then .next s.disarmTimer.endFirstPulse
      else if s.slot.toNat % 2 = 1 then .next s.disarmTimer.startPhasePulse
      else .next s.disarmTimer.endPhasePulse := by
  have hexec : exec .timer s = execTimer s := rfl
  rw [hexec, execTimer_eq, if_neg (by simp [harmed]), if_neg (by omega)]

/-- The end of a pulse that is not the half-cycle's last arms the pause before the next. -/
theorem execTimer_pause (harmed : s.timerArmed = true) (hlow : 2 ≤ s.slot.toNat) (heven : s.slot.toNat % 2 = 0)
    (hmax : s.slot.toNat < 2 * s.cfg.phases) (htx : s.slot.toNat = 2 → s.txOut = true) (hdelay : s.cfg.tPhase < 65536) :
    exec .timer s = .next { s with
      outLevel := false, slot := s.slot + 1, timerArmed := true
      timerDelay := BitVec.ofNat 16 (s.cfg.tPhase - s.cfg.tPulse) } := by
  rw [execTimer_of_armed harmed (by omega) hmax.le, if_neg (by omega), ← delayWord_of_lt (by omega)]
  by_cases h2 : s.slot.toNat = 2
  · have hrepeat : s.txOut = true ∧ s.cfg.phases > 1 := ⟨htx h2, by omega⟩
    rw [if_pos h2, show s.slot = 2 from BitVec.eq_of_toNat_eq h2]
    exact congrArg Host.Outcome.next (if_pos hrepeat)
  · rw [if_neg h2, if_neg (by omega)]
    exact congrArg Host.Outcome.next (if_neg hmax.ne)

/-- Settles O31: the delay to the end of the pulse window fits its register. -/
theorem timerSamplesTheLine : Obligations.TimerSamplesTheLine := by
  intro s harmed hslot ⟨_, _, _, _, _, hphases, _⟩ hdelay
  have h1 : s.slot.toNat = 1 := congrArg BitVec.toNat hslot
  rw [execTimer_of_armed harmed h1.ge (by omega), if_pos h1, ← delayWord_of_lt (by omega)]
  rfl

/-- Settles O32: the pulses at even sub-states end alike, and an odd one starts the next. -/
theorem timerDrivesPhaseRepeats : Obligations.TimerDrivesPhaseRepeats := by
  intro s harmed ⟨_, _, _, _, _, _, _, _, _, _, hpulse⟩ hphase
  refine ⟨fun hslot htx hphases => ?_, fun hlow hodd hmax => ?_, fun hlow heven hmax => ?_⟩
  · have h2 : s.slot.toNat = 2 := congrArg BitVec.toNat hslot
    rw [execTimer_pause harmed h2.ge (by omega) (by omega) (fun _ => htx) hphase, hslot]
    rfl
  · rw [execTimer_of_armed harmed (by omega) hmax.le, if_neg (by omega), if_neg (by omega), if_pos hodd,
      ← delayWord_of_lt (by omega)]
    rfl
  · exact execTimer_pause harmed (by omega) heven hmax (by omega) hphase

end Sys2Proof.Machine
end

section
/-! The wire sequence (43_frame_encoder R553 to R558): what `wireBit` sends in each stretch of a repetition. -/

namespace Sys2Proof.Machine

variable {f : Frame} {sh : Shape} {c : Nat}

theorem wireSequence_length (f : Frame) (sh : Shape) : (wireSequence f sh).length = endCount sh := by
  simp [wireSequence]

/-- 30_encoding R322: counts run from 1. -/
theorem wireSequence_getElem? (h : c < endCount sh) : (wireSequence f sh)[c]? = some (wireBit f sh (c + 1)) := by
  simp [wireSequence, h]

theorem wireSequence_drop (h : c < endCount sh) :
    (wireSequence f sh).drop c = wireBit f sh (c + 1) :: (wireSequence f sh).drop (c + 1) := by
  rw [List.drop_eq_getElem?_toList_append, wireSequence_getElem? h]
  rfl

/-- The start code 1,1,1,0, at its four places (43_frame_encoder R553). -/
theorem startBit_eq (hlow : 1 ≤ c) (hhigh : c ≤ 4) : startBit c = decide (c ≠ 4) := by
  interval_cases c <;> rfl

theorem wireBit_of_le_four (hlow : 1 ≤ c) (hhigh : c ≤ 4) : wireBit f sh c = decide (c ≠ 4) := by
  rw [wireBit, if_pos hhigh, startBit_eq hlow hhigh]

/-- The first block, to its end: count 22 of a STANDARD repetition (43_frame_encoder R554, R556 to R558). -/
theorem wireBit_first_block (hlow : 5 ≤ c) (hhigh : sh = .standard → c ≤ 22) :
    wireBit f sh c = xor (f.getLsbD (31 - (c - 5) / 2)) (c % 2 == 0) := by
  have hgap : ¬(sh = .standard ∧ 23 ≤ c ∧ c ≤ 40) := fun ⟨hsh, h, _⟩ => by have := hhigh hsh; omega
  have hstart : ¬(sh = .standard ∧ 41 ≤ c ∧ c ≤ 44) := fun ⟨hsh, h, _⟩ => by have := hhigh hsh; omega
  have hpart : ¬(sh = .standard ∧ 45 ≤ c) := fun ⟨hsh, h⟩ => by have := hhigh hsh; omega
  rw [wireBit, if_neg (by omega), if_neg hgap, if_neg hstart, if_neg hpart]

theorem wireBit_gap (hlow : 23 ≤ c) (hhigh : c ≤ 40) : wireBit f .standard c = false := by
  rw [wireBit, if_neg (by omega), if_pos ⟨rfl, hlow, hhigh⟩]

theorem wireBit_second_start (hlow : 41 ≤ c) (hhigh : c ≤ 44) : wireBit f .standard c = decide (c ≠ 44) := by
  rw [wireBit, if_neg (by omega), if_neg (by omega), if_pos ⟨rfl, hlow, hhigh⟩, startBit_eq (by omega) (by omega)]
  exact decide_eq_decide.mpr (by omega)

theorem wireBit_part_two (hlow : 45 ≤ c) :
    wireBit f .standard c = xor (f.getLsbD (31 - (c - 27) / 2)) (c % 2 == 0) := by
  rw [wireBit, if_neg (by omega), if_neg (by omega), if_neg (by omega), if_pos ⟨rfl, hlow⟩]

/-- A bit pair of the first block: the frame bit and its complement (43_frame_encoder R554). -/
theorem wireBit_first_block_pair {p : Nat} (hp : sh = .standard → p < 9) :
    wireBit f sh (5 + 2 * p) = f.getLsbD (31 - p) ∧ wireBit f sh (6 + 2 * p) = !f.getLsbD (31 - p) := by
  constructor
  · rw [wireBit_first_block (by omega) fun h => by have := hp h; omega]
    simp [show (5 + 2 * p) % 2 = 1 by omega]
  · rw [wireBit_first_block (by omega) fun h => by have := hp h; omega]
    simp [show (6 + 2 * p - 5) / 2 = p by omega]

/-- A bit pair of a STANDARD frame's second block, which goes on where the first ended. -/
theorem wireBit_part_two_pair (p : Nat) :
    wireBit f .standard (45 + 2 * p) = f.getLsbD (22 - p) ∧ wireBit f .standard (46 + 2 * p) = !f.getLsbD (22 - p) := by
  constructor
  · rw [wireBit_part_two (by omega), show 31 - (45 + 2 * p - 27) / 2 = 22 - p by omega]
    simp [show (45 + 2 * p) % 2 = 1 by omega]
  · rw [wireBit_part_two (by omega), show 31 - (46 + 2 * p - 27) / 2 = 22 - p by omega]
    simp

/-- Settles O41: stretch by stretch. -/
theorem wireSequenceCountMap : Obligations.WireSequenceCountMap := by
  intro f sh
  refine ⟨wireSequence_length f sh, fun c hlow hhigh => ?_, fun c => wireBit_of_le_four,
    fun p hp => wireBit_first_block_pair fun _ => hp, ?_, ?_⟩
  · rw [wireSequence_getElem? (by omega), Nat.sub_add_cancel hlow]
  · rintro rfl p -
    exact wireBit_first_block_pair nofun
  · rintro rfl
    exact ⟨fun c => wireBit_gap, fun c => wireBit_second_start, fun p _ => wireBit_part_two_pair p⟩

end Sys2Proof.Machine
end

section
/-! The encoder's other two answers (43_frame_encoder R551): the hold before part two, and the end of a repetition. -/

namespace Sys2Proof.Machine

variable {s : State} {sh : Shape}

/-! ## The hold (43_frame_encoder R555) -/

theorem State.nextBitOf_of_held (f : Frame) (hheld : s.heldAtGap sh) : s.nextBitOf f sh = (false, s) :=
  if_pos ((s.holdsPartTwo_iff sh).mpr hheld)

/-- Settles O38: a held encoder sends 0 and changes nothing, and the half-cycle begun sends 0 already. -/
theorem zcHoldsBeforePartTwo : Obligations.ZcHoldsBeforePartTwo := by
  intro s henable hlegal hsend hshape hcount hgap
  have hbit : s.begun.nextBitOf (s.slotAt s.qHead).frame .standard = (false, s.begun) :=
    State.nextBitOf_of_held _ ⟨rfl, hcount, hgap⟩
  rw [execZc_of_mayTransmit henable hlegal hsend hshape, hbit]
  rfl

/-! ## The end of a repetition (43_frame_encoder R565 to R567) -/

theorem preSeeds_iff (f : Frame) (sh : Shape) :
    preSeeds f sh = true ↔ sh = .commandOnly ∧ (frameKey1 f = cmdDim ∨ frameKey1 f = cmdBright) := by
  simp [preSeeds]

/-- One repetition of the head entry spent: the last one retires the entry, an earlier one may pre-seed the silence count. -/
def State.spent (s : State) (f : Frame) (sh : Shape) : State :=
  { s with
    txCount := 0
    slots := s.slots.set s.qHead ⟨s.headSlot.frame, s.headSlot.reps - 1⟩
    qHead := if s.headSlot.reps = 1 then (s.qHead + 1) % s.cfg.n else s.qHead
    zeroCount :=
      if s.headSlot.reps ≠ 1 ∧ sh = .commandOnly ∧ (frameKey1 f = cmdDim ∨ frameKey1 f = cmdBright) then s.cfg.minSilence
      else s.zeroCount }

theorem State.endOfRepetition_eq_spent (f : Frame) (sh : Shape) (hhead : s.qHead < s.slots.length) :
    s.endOfRepetition f sh = s.spent f sh := by
  simp only [State.spent, ← preSeeds_iff]
  rcases s.endOfRepetition_cases f sh hhead with ⟨h1, h⟩ | ⟨h1, hseed, h⟩ | ⟨h1, hseed, h⟩ <;> rw [h]
  · simp [h1, State.setHeadReps]
  · simp [h1, hseed, State.setHeadReps]
  · simp [h1, hseed, State.setHeadReps]

/-- No repetition ends at the count of the hold. -/
theorem State.not_heldAtGap_of_last (hlast : s.txCount.toNat + 1 = endCount sh) : ¬s.heldAtGap sh := by
  rintro ⟨rfl, h40, -⟩
  rw [h40] at hlast
  exact absurd hlast (by decide)

/-- At its last count a repetition sends that count's bit and is spent. -/
theorem State.nextBitOf_of_last (f : Frame) (hhead : s.qHead < s.slots.length) (hlast : s.txCount.toNat + 1 = endCount sh) :
    s.nextBitOf f sh = (wireBit f sh (endCount sh), s.spent f sh) := by
  rw [State.nextBitOf, if_neg (mt (s.holdsPartTwo_iff sh).mp (State.not_heldAtGap_of_last hlast)),
    ← State.endOfRepetition_eq_spent f sh hhead]
  simp only [hlast, if_true]
  rfl

/-- Settles O39: the half-cycle begun keeps the count, so its next bit is the last one. -/
theorem zcEndsTheRepetition : Obligations.ZcEndsTheRepetition := by
  intro s sh henable hlegal hsend hhead hshape hlast f r b
  have hbit : s.begun.nextBitOf f sh = (b, s.begun.spent f sh) := State.nextBitOf_of_last f hhead hlast
  rw [execZc_of_mayTransmit henable hlegal hsend hshape, hbit, State.driveBit_eq]
  rfl

end Sys2Proof.Machine
end

section
/-! One repetition, half-cycle by half-cycle (43_frame_encoder R551 to R568): from any count on, the rest of the wire sequence is
sent and the repetition spent. -/

namespace Sys2Proof.Machine

variable {s : State} {f : Frame} {sh : Shape} {b : Bool}

/-- An enabled core in a repetition of the head entry `f`, or about to begin one. The silence clause is what lets a STANDARD
repetition pass count 40: the gap sends 0, so each half-cycle of it adds one to the silence count. -/
structure State.Repeating (s : State) (f : Frame) (sh : Shape) : Prop where
  enable : s.enable = true
  legal : s.cfg.Legal
  ready : s.mayTransmit
  head : s.qHead < s.slots.length
  frame : (s.slotAt s.qHead).frame = f
  shape : frameShape f = some sh
  silence : sh = .standard → s.txCount.toNat ≤ 40 → s.txCount.toNat - 22 ≤ s.zeroCount.toNat

/-- PART_GAP is at most the 18 half-cycles of the gap, so no repetition is held (00_scope R10; 43_frame_encoder R555). -/
theorem State.Repeating.not_heldAtGap (h : s.Repeating f sh) : ¬s.heldAtGap sh := by
  rintro ⟨hsh, h40, hshort⟩
  obtain ⟨-, -, -, -, hgap, -⟩ := h.legal
  have hcount : s.txCount.toNat = 40 := congrArg BitVec.toNat h40
  have hsilent := h.silence hsh hcount.le
  omega

/-- A half-cycle keeps what its ZC did and then only counts the silence, beside the receive path (30_encoding R344). -/
theorem halfCycle_frame {z : State} (henable : s.enable = true) (hlegal : s.cfg.Legal) (hz : exec .zc s = .next z) (b : Bool) :
    ∃ d t, halfCycle b s = .next t ∧ { z with inLatch := b, readIn := b, timerDelay := d }.ended.RxFrame t := by
  obtain ⟨d, h⟩ := halfCycle_eq (b := b) henable hlegal hz
  exact ⟨d, _, h, State.received_frame _⟩

theorem endCount_pos (sh : Shape) : 0 < endCount sh := by
  cases sh <;> decide

/-- The transmit count does not wrap within a repetition (30_encoding R311). -/
theorem txCount_succ_toNat {c : BitVec 8} (h : c.toNat < endCount sh) : (c + 1).toNat = c.toNat + 1 := by
  have : endCount sh ≤ 62 := by cases sh <;> decide
  bv_omega

/-- In a silent half-cycle the silence count gains one, up to 255 (42_bit_slot_timer R520). -/
theorem silence_succ_le {n : Nat} {z : BitVec 8} (hn : n < 255) (hz : n ≤ z.toNat) :
    n + 1 ≤ (if z = 255 then 255 else z + 1).toNat := by
  split
  · exact hn
  · bv_omega

/-- The silence clause stands the next half-cycle: before the gap it asks for nothing, and in the gap the line is silent. -/
theorem State.Repeating.silence_advance (h : s.Repeating f sh)
    (hheard : b = true → wireBit f sh (s.txCount.toNat + 1) = true) (hsh : sh = .standard) (hgap : s.txCount.toNat + 1 ≤ 40) :
    s.txCount.toNat + 1 - 22 ≤
      (if b || wireBit f sh (s.txCount.toNat + 1) then 0 else if s.zeroCount = 255 then 255 else s.zeroCount + 1).toNat := by
  by_cases hblock : s.txCount.toNat + 1 ≤ 22
  · omega
  · have hsent : wireBit f sh (s.txCount.toNat + 1) = false := by
      rw [hsh]
      exact wireBit_gap (by omega) hgap
    have hsilent : b = false := Bool.eq_false_iff.mpr fun hb => Bool.false_ne_true (hsent.symm.trans (hheard hb))
    have hbefore := h.silence hsh (by omega)
    have hafter := silence_succ_le (by omega) hbefore
    rw [hsent, hsilent, Bool.or_false, if_neg Bool.false_ne_true]
    omega

/-- Short of its last count, a repetition sends the next bit and goes on. -/
theorem State.Repeating.advance (h : s.Repeating f sh) (hinside : s.txCount.toNat + 1 < endCount sh)
    (hheard : b = true → wireBit f sh (s.txCount.toNat + 1) = true) :
    ∃ t, halfCycle b s = .next t ∧ t.txOut = wireBit f sh (s.txCount.toNat + 1) ∧ t.Repeating f sh ∧
      { s with txCount := s.txCount + 1 }.QueueFrame t := by
  have hfree := h.not_heldAtGap
  have hsilence := h.silence_advance hheard
  obtain ⟨henable, hlegal, hready, hhead, rfl, hshape, -⟩ := h
  have hzc := zcSendsTheNextWireBit s sh henable hlegal hready hshape hfree hinside
  obtain ⟨d, t, hhalf, hframe⟩ := halfCycle_frame henable hlegal hzc b
  have hqueue : { s with txCount := s.txCount + 1 }.QueueFrame t :=
    ⟨hframe.cfg, hframe.slots, hframe.qHead, hframe.qTail, hframe.txCount⟩
  have ⟨hcfg, hslots, hqHead, hqTail, _⟩ := hqueue
  have hcount : t.txCount.toNat = s.txCount.toNat + 1 :=
    (congrArg BitVec.toNat hqueue.txCount).trans (txCount_succ_toNat (Nat.lt_of_succ_lt hinside))
  have hslot : t.slotAt t.qHead = s.slotAt s.qHead := by rw [State.slotAt, hslots, hqHead, State.slotAt]
  have hready' : t.mayTransmit := by
    obtain ⟨hsome, hreps, -⟩ := hready
    exact ⟨by rwa [hqHead, hqTail], by rwa [hslot], .inl (by omega)⟩
  refine ⟨t, hhalf, hframe.txOut, ⟨hframe.enable.trans henable, by rwa [hcfg], hready', by rwa [hslots, hqHead], by rw [hslot],
    hshape, fun hsh hgap => ?_⟩, hqueue⟩
  rw [hcount] at hgap ⊢
  rw [hframe.zeroCount]
  exact hsilence hsh hgap

/-- What a repetition leaves behind: the encoder at rest between half-cycles, and one repetition of the head entry less. -/
abbrev State.RepetitionSpent (s t : State) : Prop :=
  t.slot = 0 ∧ t.txCount = 0 ∧ (t.slotAt s.qHead).reps = (s.slotAt s.qHead).reps - 1 ∧
    t.qHead = if (s.slotAt s.qHead).reps = 1 then (s.qHead + 1) % s.cfg.n else s.qHead

/-- At its last count, a repetition sends its last bit and is spent (43_frame_encoder R565, R566). -/
theorem State.Repeating.finish (h : s.Repeating f sh) (hlast : s.txCount.toNat + 1 = endCount sh) (b : Bool) :
    ∃ t, halfCycle b s = .next t ∧ t.txOut = wireBit f sh (endCount sh) ∧ s.RepetitionSpent t := by
  obtain ⟨henable, hlegal, hready, hhead, rfl, hshape, -⟩ := h
  have hzc := zcEndsTheRepetition s sh henable hlegal hready hhead hshape hlast
  obtain ⟨d, t, hhalf, hframe⟩ := halfCycle_frame henable hlegal hzc b
  refine ⟨t, hhalf, hframe.txOut, hframe.slot, hframe.txCount, ?_, hframe.qHead⟩
  rw [State.slotAt, hframe.slots]
  simp only [State.ended, slots_getD_set, hhead, and_self, if_true]

/-- A repetition spent from a later count of it is spent from the earlier one, the queue being the same. -/
theorem State.RepetitionSpent.of_advance {t u : State} {c : BitVec 8} (hspent : t.RepetitionSpent u)
    (h : { s with txCount := c }.QueueFrame t) : s.RepetitionSpent u := by
  obtain ⟨hcfg, hslots, hqHead, -, -⟩ := h
  have hslot : t.slotAt s.qHead = s.slotAt s.qHead := by rw [State.slotAt, hslots, State.slotAt]
  rw [State.RepetitionSpent, hqHead, hslot, hcfg] at hspent
  exact hspent

/-! ## From any count to the end -/

theorem halfCycles_cons {t : State} (h : halfCycle b s = .next t) (bs : List Bool) :
    halfCycles (b :: bs) s = halfCycles bs t := by
  rw [halfCycles, h]
  rfl

theorem sentBits_cons {t : State} (h : halfCycle b s = .next t) (bs : List Bool) :
    sentBits (b :: bs) s = t.txOut :: sentBits bs t := by
  rw [sentBits, h]

/-- The half-cycles that remain send the rest of the wire sequence, by induction on their line levels. -/
theorem State.Repeating.sends_rest {levels : List Bool} (h : s.Repeating f sh) (hcount : s.txCount.toNat < endCount sh)
    (hlength : s.txCount.toNat + levels.length = endCount sh)
    (hheard : ∀ i, levels[i]? = some true → wireBit f sh (s.txCount.toNat + i + 1) = true) :
    sentBits levels s = (wireSequence f sh).drop s.txCount.toNat ∧
      ∃ t, halfCycles levels s = .next t ∧ s.RepetitionSpent t := by
  induction levels generalizing s with
  | nil => exact absurd hlength hcount.ne
  | cons b bs ih =>
    rw [List.length_cons] at hlength
    rw [wireSequence_drop hcount]
    by_cases hlast : s.txCount.toNat + 1 = endCount sh
    · obtain ⟨t, hhalf, hsent, hspent⟩ := h.finish hlast b
      have hnil : bs = [] := List.length_eq_zero_iff.mp (by omega)
      have hend : (wireSequence f sh).drop (endCount sh) = [] := List.drop_eq_nil_of_le (wireSequence_length f sh).le
      rw [hnil, sentBits_cons hhalf, halfCycles_cons hhalf, hsent, hlast, hend]
      exact ⟨rfl, t, rfl, hspent⟩
    · obtain ⟨t, hhalf, hsent, hnext, hqueue⟩ := h.advance (b := b) (by omega) fun hb => hheard 0 (congrArg some hb)
      have htxCount : t.txCount.toNat = s.txCount.toNat + 1 := by
        rw [hqueue.txCount]
        exact txCount_succ_toNat hcount
      have hheard' : ∀ i, bs[i]? = some true → wireBit f sh (t.txCount.toNat + i + 1) = true := fun i hi => by
        rw [htxCount, Nat.add_right_comm _ 1 i]
        exact hheard (i + 1) hi
      obtain ⟨hrest, u, hu, hspent⟩ := ih hnext (by omega) (by omega) hheard'
      rw [sentBits_cons hhalf, halfCycles_cons hhalf, hsent, hrest, htxCount]
      exact ⟨rfl, u, hu, hspent.of_advance hqueue⟩

/-- The head of a queue that is not empty has a repetition to send (10_state R109). -/
theorem State.QueueInv.head_reps_pos (hs : s.QueueInv) (hsome : s.qHead ≠ s.qTail) :
    1 ≤ (s.slotAt s.qHead).reps.toNat := by
  obtain ⟨-, hhead, htail, hreps⟩ := hs
  refine (hreps s.qHead hhead).mp ?_
  rw [State.queued, State.qLen, ring_sub_eq hhead hhead, ring_sub_eq hhead htail]
  split_ifs <;> omega

/-- Settles O42: a ready entry is a repetition at count 0, with its whole sequence to send. -/
theorem repetitionSendsItsWireSequence : Obligations.RepetitionSendsItsWireSequence := by
  intro s sh levels ⟨hlegal, hqueue, _⟩ henable _ hsome hcount hquiet hshape hlength hheard
  have h0 : s.txCount.toNat = 0 := congrArg BitVec.toNat hcount
  have hready : s.mayTransmit := ⟨hsome, hqueue.head_reps_pos hsome, .inr hquiet⟩
  have hstart : s.Repeating (s.slotAt s.qHead).frame sh :=
    ⟨henable, hlegal, hready, hqueue.head_lt_length, rfl, hshape, fun _ _ => by omega⟩
  have hheard' : ∀ i, levels[i]? = some true → wireBit (s.slotAt s.qHead).frame sh (s.txCount.toNat + i + 1) = true :=
    fun i hi => by
      obtain ⟨hi', -⟩ := List.getElem?_eq_some_iff.mp hi
      rw [h0, Nat.zero_add]
      exact hheard i (hlength ▸ hi') hi
  have hrest := hstart.sends_rest (h0 ▸ endCount_pos sh) (by omega) hheard'
  rwa [h0, List.drop_zero] at hrest

end Sys2Proof.Machine
end

section
/-! The finish step inside a message (44_frame_decoder): the raw half, the accepted pair with its checkpoint, and the two ends of
a message, by a failing pair or at the ceiling. -/

namespace Sys2Proof.Machine

variable {s : State} {x : RxAcc} {r : Resolved} {b : Bool}

theorem State.received_of_active (hactive : s.rx.active = true) : s.received = s.ended.rxStep s.inLatch := if_pos hactive

theorem execTimer_of_active (hfinish : s.atFinish) (hactive : s.rx.active = true) :
    exec .timer s = .next (s.ended.rxStep s.inLatch) := by
  rw [execTimer_atFinish hfinish, State.received_of_active hactive]

/-- The raw half of a pair is only latched (44_frame_decoder R602). -/
theorem State.rxStep_raw (heven : s.rx.count.toNat % 2 = 0) (b : Bool) :
    s.rxStep b = { s with rx := { s.rx with count := s.rx.count + 1, raw := b } } := by
  have hcount : BitVec.ofNat 8 (s.rx.count.toNat + 1) = s.rx.count + 1 := by simp [BitVec.ofNat_add]
  rw [State.rxStep_eq, if_pos (by omega)]
  simp only [State.counted, hcount]

/-- Settles O25: the finish step's one branch at an odd count. -/
theorem rawHalfIsOnlyLatched : Obligations.RawHalfIsOnlyLatched := by
  intro s hfinish hactive heven _
  rw [execTimer_of_active hfinish hactive, State.rxStep_raw (s := s.ended) heven]
  rfl

/-! ## An accepted pair (44_frame_decoder R603 to R609) -/

/-- The rolling buffer with the raw bit shifted into its low end (44_frame_decoder R604). -/
def RxAcc.shifted (x : RxAcc) : Byte := (x.buf <<< 1) ||| (BitVec.ofBool x.raw).setWidth 8

theorem RxAcc.shifted_toNat (x : RxAcc) : x.shifted.toNat = (x.buf.toNat * 2 + x.raw.toNat) % 256 := by
  have hshift : x.shifted = x.buf * 2 + (BitVec.ofBool x.raw).setWidth 8 := by
    unfold RxAcc.shifted
    generalize x.buf = v
    cases x.raw <;> revert v <;> decide
  rw [hshift]
  simp [BitVec.toNat_add, BitVec.toNat_mul]

/-- The bit shifted in last is the raw bit. -/
theorem RxAcc.shifted_getLsbD_zero (x : RxAcc) : x.shifted.getLsbD 0 = x.raw := by
  simp [RxAcc.shifted]

theorem State.bufNibble_toNat (s : State) : s.bufNibble.toNat = s.rx.buf.toNat % 16 := by
  simp [State.bufNibble]

/-- 44_frame_decoder R606: the fields a checkpoint captures, beside those of `State.checkpoint_valid`. -/
theorem State.checkpoint_fields (s : State) (c : Nat) :
    (s.checkpoint c).rx.raw = s.rx.raw ∧ (s.checkpoint c).rx.buf = s.rx.buf ∧
    (s.checkpoint c).rx.house = (if c = 12 then s.bufNibble else s.rx.house) ∧
    (s.checkpoint c).rx.key = (if c = 20 then s.bufNibble else s.rx.key) ∧
    (s.checkpoint c).rx.xunit =
      (if c = 30 ∧ s.rx.cmdValid = true ∧ isExtCmd s.rx.cmd = true then s.bufNibble else s.rx.xunit) ∧
    (s.checkpoint c).rx.data =
      (if c = 46 ∧ s.rx.cmdValid = true ∧ isExtCmd s.rx.cmd = true then s.rx.buf else s.rx.data) ∧
    (s.checkpoint c).rx.xcmd =
      (if c = 62 ∧ s.rx.cmdValid = true ∧ isExtCmd s.rx.cmd = true then s.rx.buf else s.rx.xcmd) ∧
    (s.checkpoint c).addr =
      (if c = 22 ∧ s.rx.buf.getLsbD 0 = false then ⟨true, s.rx.house, s.rx.key⟩ else s.addr) := by
  unfold State.checkpoint State.addressBlock State.commandBlock
  split_ifs <;> simp_all

/-- A checkpoint writes the accumulator and the pending address only. -/
theorem State.checkpoint_eq (s : State) (c : Nat) :
    s.checkpoint c = { s with rx := (s.checkpoint c).rx, addr := (s.checkpoint c).addr } := by
  unfold State.checkpoint State.addressBlock State.commandBlock
  split_ifs <;> rfl

/-- A receive step's state once its valid pair is accepted, its checkpoint still to come (44_frame_decoder R604). -/
def State.accepted (s : State) : State := s.counted.acceptBit

theorem State.accepted_rx (s : State) :
    s.accepted.rx = { s.rx with count := BitVec.ofNat 8 (s.rx.count.toNat + 1), buf := s.rx.shifted } := rfl

/-- A valid pair short of the ceiling is accepted and its checkpoint taken. -/
theorem State.rxStep_pair (hodd : s.rx.count.toNat % 2 = 1) (hpair : b ≠ s.rx.raw) (hlast : s.rx.count.toNat ≠ 61) :
    s.rxStep b = s.accepted.checkpoint (s.rx.count.toNat + 1) := by
  rw [State.rxStep_eq, if_neg (by omega), if_neg hpair, if_neg (by omega), State.accepted]

theorem isExtCmd_iff (c : Nibble) : isExtCmd c = true ↔ c = 0b0111 ∨ c = 0b1100 := by
  simp [isExtCmd, cmdExtendedCode, cmdExtendedData]

/-- Settles O26: each field of the checkpoint, in numbers. -/
theorem validPairIsShiftedAndCaptured : Obligations.ValidPairIsShiftedAndCaptured := by
  intro s hfinish hactive hodd _ hlast hpair c buf ext
  have hbuf : s.ended.accepted.rx.buf.toNat = buf := s.rx.shifted_toNat
  have hnibble : s.ended.accepted.bufNibble.toNat = buf % 16 := (State.bufNibble_toNat _).trans (by rw [hbuf])
  have hbit : s.ended.accepted.rx.buf.getLsbD 0 = s.rx.raw := s.rx.shifted_getLsbD_zero
  have hcount : s.ended.accepted.rx.count.toNat = c := by
    have hc : s.ended.accepted.rx.count = BitVec.ofNat 8 c := rfl
    rw [hc, BitVec.toNat_ofNat]
    omega
  have hext : s.ended.accepted.rx.cmdValid = true ∧ isExtCmd s.ended.accepted.rx.cmd = true ↔ ext :=
    and_congr Iff.rfl (isExtCmd_iff _)
  have h62 : c ≠ 62 := fun h => hlast (Nat.succ.inj h)
  obtain ⟨hactive', hcount', -, -⟩ := s.ended.accepted.checkpoint_receiver c
  obtain ⟨hcmdValid, hcmd, hxunitValid, hdataValid, hxcmdValid⟩ := s.ended.accepted.checkpoint_valid c
  obtain ⟨hraw, hbuf', hhouse, hkey, hxunit, hdata, hxcmd, haddr⟩ := s.ended.accepted.checkpoint_fields c
  refine ⟨_, execTimer_of_active hfinish hactive, ?_⟩
  rw [State.rxStep_pair (s := s.ended) hodd hpair hlast]
  refine ⟨State.checkpoint_eq _ _, hactive'.trans hactive, (congrArg BitVec.toNat hcount').trans hcount, hraw,
    (congrArg BitVec.toNat hbuf').trans hbuf, ?_, ?_, ?_, ?_, ?_, ?_, ?_, ?_, ?_, ?_, ?_⟩
  · exact (congrArg BitVec.toNat hhouse).trans (by rw [apply_ite BitVec.toNat, hnibble]; rfl)
  · exact (congrArg BitVec.toNat hkey).trans (by rw [apply_ite BitVec.toNat, hnibble]; rfl)
  · exact hcmd.trans (by rw [hbit]; rfl)
  · refine (Bool.eq_iff_iff.mp hcmdValid).trans ?_
    rw [hbit, Bool.or_eq_true, decide_eq_true_eq]
    exact or_comm
  · exact haddr.trans (by rw [hbit]; rfl)
  · exact (congrArg BitVec.toNat hxunit).trans (by simp only [apply_ite BitVec.toNat, hnibble, hext]; rfl)
  · refine (Bool.eq_iff_iff.mp hxunitValid).trans ?_
    rw [Bool.or_eq_true, decide_eq_true_eq, hext]
    exact or_comm
  · exact (congrArg BitVec.toNat hdata).trans (by simp only [apply_ite BitVec.toNat, hbuf, hext]; rfl)
  · refine (Bool.eq_iff_iff.mp hdataValid).trans ?_
    rw [Bool.or_eq_true, decide_eq_true_eq, hext]
    exact or_comm
  · exact hxcmd.trans (if_neg fun h => h62 h.1)
  · exact hxcmdValid.trans (by rw [decide_eq_false fun h => h62 h.1, Bool.or_false]; rfl)

/-! ## The end of a message (44_frame_decoder R610 to R618) -/

/-- The state with another accumulator. -/
def State.withRx (s : State) (x : RxAcc) : State := { s with rx := x }

/-- The message in accumulator `x` ended at bit count `n`, and the detector seeded (44_frame_decoder R612, R620). -/
def State.closeMessage (s : State) (x : RxAcc) (n : BitVec 8) (ones : BitVec 3) : State :=
  { (s.withRx x).endOfMessage n with onesCount := ones }

/-- The end of a message leaves the detector as it was. -/
theorem State.closeMessage_onesCount (s : State) (x : RxAcc) (n : BitVec 8) :
    s.closeMessage x n s.onesCount = (s.withRx x).endOfMessage n := by
  obtain ⟨-, hones, -⟩ := (s.withRx x).endOfMessage_receiver n
  have hsame : s.onesCount = ((s.withRx x).endOfMessage n).onesCount := hones.symm
  rw [State.closeMessage, hsame]

/-- The accumulator once the pair at the ceiling is accepted: an extended command has its sub-command (44_frame_decoder R609,
R611). -/
def RxAcc.completed (x : RxAcc) : RxAcc :=
  { x with
    count := 62
    buf := x.shifted
    xcmd := if x.cmdValid = true ∧ isExtCmd x.cmd = true then x.shifted else x.xcmd
    xcmdValid := x.xcmdValid || decide (x.cmdValid = true ∧ isExtCmd x.cmd = true) }

/-- A failing pair ends the message at the count before it (44_frame_decoder R610). -/
theorem State.rxStep_mismatch (hodd : s.rx.count.toNat % 2 = 1) (hpair : b = s.rx.raw) :
    s.rxStep b = s.closeMessage s.counted.rx (s.rx.count - 1) (if b then 2 else 0) := by
  have hbits : BitVec.ofNat 8 (s.rx.count.toNat + 1 - 2) = s.rx.count - 1 := by bv_omega
  rw [State.rxStep_eq, if_neg (by omega), if_pos hpair, hbits]
  rfl

theorem State.checkpoint_ceiling (hlast : s.rx.count = 61) : s.accepted.checkpoint 62 = s.withRx s.rx.completed := by
  have hcount : BitVec.ofNat 8 (s.rx.count.toNat + 1) = 62 := by rw [hlast]; rfl
  by_cases hext : s.rx.cmdValid = true ∧ isExtCmd s.rx.cmd = true
  · have hcheck : s.accepted.checkpoint 62 =
        s.withRx { s.accepted.rx with xcmd := s.rx.shifted, xcmdValid := true } := if_pos hext
    rw [hcheck, State.accepted_rx, hcount]
    simp [RxAcc.completed, hext]
  · have hcheck : s.accepted.checkpoint 62 = s.withRx s.accepted.rx := if_neg hext
    rw [hcheck, State.accepted_rx, hcount]
    simp [RxAcc.completed, hext]

/-- The pair at the ceiling is accepted and ends the message, the detector left as it was (44_frame_decoder R611). -/
theorem State.rxStep_ceiling (hpair : b ≠ s.rx.raw) (hlast : s.rx.count = 61) :
    s.rxStep b = s.closeMessage s.rx.completed 62 s.onesCount := by
  have hcount : s.rx.count.toNat = 61 := congrArg BitVec.toNat hlast
  rw [State.closeMessage_onesCount, ← State.checkpoint_ceiling hlast, State.rxStep_eq, hcount, if_neg (by decide), if_neg hpair,
    if_pos rfl, State.accepted]

theorem State.closeMessage_of_no_command (s : State) (x : RxAcc) (hcmd : x.cmdValid = false) (n : BitVec 8) (ones : BitVec 3) :
    s.closeMessage x n ones = { s with rx := {}, onesCount := ones } := by
  have hend : (s.withRx x).endOfMessage n = (s.withRx x).clearAcc := if_pos hcmd
  rw [State.closeMessage, hend]
  rfl

theorem State.closeMessage_of_discarded (s : State) (x : RxAcc) (hcmd : x.cmdValid = true)
    (hresolve : resolveCommand s.cfg.presetDimEnable x s.addr = none) (n : BitVec 8) (ones : BitVec 3) :
    s.closeMessage x n ones = { s with rx := {}, addr := {}, onesCount := ones } := by
  rcases (s.withRx x).endOfMessage_cases n with ⟨hnone, -⟩ | ⟨-, -, hend⟩ | ⟨t, -, hsome, -⟩
  · exact absurd (hcmd.symm.trans hnone) Bool.noConfusion
  · rw [State.closeMessage, hend]
    rfl
  · cases hresolve.symm.trans hsome

/-- A resolved command is delivered, then everything received is cleared (44_frame_decoder R614). -/
theorem State.closeMessage_of_resolved (s : State) (x : RxAcc) (hcmd : x.cmdValid = true)
    (hresolve : resolveCommand s.cfg.presetDimEnable x s.addr = some r) (n : BitVec 8) (ones : BitVec 3) :
    s.closeMessage x n ones = { ((s.withRx x).deliver r n).clearAll with onesCount := ones } := by
  rcases (s.withRx x).endOfMessage_cases n with ⟨hnone, -⟩ | ⟨-, hnone, -⟩ | ⟨t, -, hsome, hend⟩
  · exact absurd (hcmd.symm.trans hnone) Bool.noConfusion
  · cases hresolve.symm.trans hnone
  · cases hresolve.symm.trans hsome
    rw [State.closeMessage, hend]

/-- The registers a delivery writes: its record, appended and strobed (44_frame_decoder R630). -/
theorem State.deliver_registers (s : State) (r : Resolved) (n : BitVec 8) :
    ∃ m log, s.deliver r n = { s with
      nlog := s.nlog ++ [⟨r.house, r.unit, s.rx.cmd, r.data, r.xcmd, n⟩]
      notifyPort := some (Notify.pack ⟨r.house, r.unit, s.rx.cmd, r.data, r.xcmd, n⟩)
      mem := m
      storeLog := log } := by
  rw [State.deliver_eq]
  split
  · exact ⟨s.mem, s.storeLog, rfl⟩
  · rw [State.memWrite_eq]
    exact ⟨_, _, rfl⟩

/-- The module byte a delivery updates, if it names a unit and there is a store (45_module_state R655). -/
theorem State.memRead_deliver (hwf : s.mem.wf = true) (r : Resolved) (n : BitVec 8) (k : Key) :
    (s.deliver r n).memRead k =
      if r.unit ≠ 0 ∧ s.cfg.backend ≠ .none ∧ k = moduleKey r.house r.unit then
        updatedByte s.cfg.presetDimEnable (s.memRead k) s.rx.cmd r.data r.xcmd (isExtCmd s.rx.cmd && s.rx.xcmdValid)
      else s.memRead k := by
  have hemit : ∀ (u : State) (m : Notify), (u.emit m).memRead k = u.memRead k := fun _ _ => rfl
  rw [State.deliver_eq, hemit]
  by_cases hunit : r.unit = 0
  · rw [if_pos hunit, if_neg fun h => h.1 hunit]
  · rw [if_neg hunit]
    by_cases hkey : k = moduleKey r.house r.unit
    · subst hkey
      by_cases hnone : s.cfg.backend = .none
      · rw [if_neg fun h => h.2.1 hnone]
        simp [State.memRead_eq, State.memWrite_eq, hnone]
      · rw [if_pos ⟨hunit, hnone, rfl⟩, State.memRead_memWrite_same hwf hnone]
    · rw [if_neg fun h => hkey h.2.2, State.memRead_memWrite_other s (Ne.symm hkey)]

/-- A message whose command resolves leaves its record and its module update (44_frame_decoder R612, R614). -/
theorem State.delivered_of_resolved (s : State) (x : RxAcc) (hwf : s.mem.wf = true) (hcmd : x.cmdValid = true)
    (hresolve : resolveCommand s.cfg.presetDimEnable x s.addr = some r) (n : BitVec 8) (ones : BitVec 3) :
    s.Delivered (s.ended.closeMessage x n ones) ⟨r.house, r.unit, x.cmd, r.data, r.xcmd, n⟩ (isExtCmd x.cmd && x.xcmdValid)
      ones := by
  have hread := State.memRead_deliver (s := s.ended.withRx x) hwf r n
  obtain ⟨m, log, hregisters⟩ := (s.ended.withRx x).deliver_registers r n
  rw [s.ended.closeMessage_of_resolved x hcmd hresolve]
  rw [hregisters] at hread ⊢
  exact ⟨rfl, hread⟩

/-- The two ends of a message, as TIMER's next state. -/
theorem execTimer_mismatch (hfinish : s.atFinish) (hactive : s.rx.active = true) (hodd : s.rx.count.toNat % 2 = 1)
    (hpair : s.inLatch = s.rx.raw) :
    exec .timer s = .next (s.ended.closeMessage s.ended.counted.rx (s.rx.count - 1) (if s.inLatch then 2 else 0)) := by
  rw [execTimer_of_active hfinish hactive, State.rxStep_mismatch (s := s.ended) hodd hpair]
  rfl

theorem execTimer_ceiling (hfinish : s.atFinish) (hactive : s.rx.active = true) (hpair : s.inLatch ≠ s.rx.raw)
    (hlast : s.rx.count = 61) : exec .timer s = .next (s.ended.closeMessage s.rx.completed 62 s.onesCount) := by
  rw [execTimer_of_active hfinish hactive, State.rxStep_ceiling (s := s.ended) hpair hlast]
  rfl

/-- Settles O27: either end of a message with no command clears the accumulator. -/
theorem messageWithoutCommandIsDropped : Obligations.MessageWithoutCommandIsDropped := by
  intro s hfinish hactive hcmd hodd _
  refine ⟨fun hpair => ?_, fun hpair hlast => ?_⟩
  · rw [execTimer_mismatch hfinish hactive hodd hpair, s.ended.closeMessage_of_no_command s.ended.counted.rx hcmd]
  · rw [execTimer_ceiling hfinish hactive hpair hlast, s.ended.closeMessage_of_no_command s.rx.completed hcmd]
    rfl

/-! ## The target of a command (44_frame_decoder R616 to R618) -/

theorem resolveCommand_extended {presetDim : Bool} {a : PendingAddr} (hext : isExtCmd x.cmd = true) :
    resolveCommand presetDim x a = some (resolveExtended x) := if_pos hext

theorem resolveCommand_standard {presetDim : Bool} {a : PendingAddr} (hext : isExtCmd x.cmd = false)
    (hpreset : ¬(presetDim = true ∧ isPreset x.cmd = true)) : resolveCommand presetDim x a = some (resolveStandard x a) := by
  rw [resolveCommand, if_neg (by simp [hext]), if_neg hpreset]

theorem resolveCommand_preset {a : PendingAddr} (hext : isExtCmd x.cmd = false) (hpreset : isPreset x.cmd = true) :
    resolveCommand true x a = if a.valid then some (resolvePreset x a) else none := by
  rw [resolveCommand, if_neg (by simp [hext]), if_pos ⟨rfl, hpreset⟩]

theorem isPreset_iff (c : Nibble) : isPreset c = true ↔ c = 0b1010 ∨ c = 0b1011 := by
  revert c
  decide

theorem not_isExtCmd_of_isPreset {c : Nibble} (h : isPreset c = true) : isExtCmd c = false := by
  revert c
  decide

/-- Settles O28: neither end of the message changes what a standard command resolves to. -/
theorem standardCommandIsResolvedAndReported : Obligations.StandardCommandIsResolvedAndReported := by
  intro s hfinish hactive hcmd hext hpreset hodd _ hwf u
  have hxvalid : ∀ v, (isExtCmd s.rx.cmd && v) = false := fun v => by rw [hext, Bool.false_and]
  refine ⟨fun hpair => ⟨_, execTimer_mismatch hfinish hactive hodd hpair, ?_⟩,
    fun hpair hlast => ⟨_, execTimer_ceiling hfinish hactive hpair hlast, ?_⟩⟩
  · rw [← hxvalid s.rx.xcmdValid]
    exact s.delivered_of_resolved s.ended.counted.rx hwf hcmd (resolveCommand_standard hext hpreset) _ _
  · rw [← hxvalid s.rx.completed.xcmdValid]
    exact s.delivered_of_resolved s.rx.completed hwf hcmd (resolveCommand_standard hext hpreset) _ _

/-- Settles O29: at the ceiling the sub-command is the byte just completed. -/
theorem extendedCommandIsResolvedAndReported : Obligations.ExtendedCommandIsResolvedAndReported := by
  intro s hfinish hactive hcmd hext hodd _ hwf u d x
  refine ⟨fun hpair => ⟨_, execTimer_mismatch hfinish hactive hodd hpair, ?_⟩,
    fun hpair hlast => ⟨_, execTimer_ceiling hfinish hactive hpair hlast, ?_⟩⟩
  · have hxvalid : s.rx.xcmdValid = (isExtCmd s.rx.cmd && s.rx.xcmdValid) := by rw [hext, Bool.true_and]
    rw [hxvalid]
    exact s.delivered_of_resolved s.ended.counted.rx hwf hcmd (resolveCommand_extended hext) _ _
  · have hvalid : s.rx.completed.xcmdValid = true := by simp [RxAcc.completed, hcmd, hext]
    have hxvalid : (isExtCmd s.rx.completed.cmd && s.rx.completed.xcmdValid) = true := by rw [hvalid, Bool.and_true]; exact hext
    have hbyte : BitVec.ofNat 8 (s.rx.buf.toNat * 2 + s.rx.raw.toNat) =
        if s.rx.completed.xcmdValid then s.rx.completed.xcmd else 0 := by
      have hxcmd : s.rx.completed.xcmd = s.rx.shifted := if_pos ⟨hcmd, hext⟩
      rw [if_pos hvalid, hxcmd]
      exact BitVec.eq_of_toNat_eq (by rw [BitVec.toNat_ofNat, RxAcc.shifted_toNat])
    rw [← hxvalid, hbyte]
    exact s.delivered_of_resolved s.rx.completed hwf hcmd (resolveCommand_extended hext) _ _

/-- Settles O30: the pending address is the target; without one the command is discarded. -/
theorem presetDimGoesToThePendingAddress : Obligations.PresetDimGoesToThePendingAddress := by
  intro s hfinish hactive hcmd henable hcode hodd _ hwf h u d
  have hpreset : isPreset s.rx.cmd = true := (isPreset_iff _).mpr hcode
  have hext := not_isExtCmd_of_isPreset hpreset
  have hxvalid : ∀ v, (isExtCmd s.rx.cmd && v) = false := fun v => by rw [hext, Bool.false_and]
  have hdata : d = (resolvePreset s.rx s.addr).data := by
    have hbit : s.rx.cmd.toNat % 2 = (s.rx.cmd.getLsbD 0).toNat := by rcases hcode with h | h <;> rw [h] <;> rfl
    exact congrArg (fun b => BitVec.ofNat 8 (2 * (16 * b + (houseIndex s.rx.house).toNat))) hbit
  have hresolve (y : RxAcc) (hy : y.cmd = s.rx.cmd) :
      resolveCommand s.cfg.presetDimEnable y s.addr = if s.addr.valid then some (resolvePreset y s.addr) else none := by
    rw [henable, resolveCommand_preset (hy ▸ hext) (hy ▸ hpreset)]
  refine ⟨fun hpair => ⟨fun hvalid => ⟨_, execTimer_mismatch hfinish hactive hodd hpair, ?_⟩, fun hnone => ?_⟩,
    fun hpair hlast => ⟨fun hvalid => ⟨_, execTimer_ceiling hfinish hactive hpair hlast, ?_⟩, fun hnone => ?_⟩⟩
  · have hsome := (hresolve s.ended.counted.rx rfl).trans (if_pos hvalid)
    rw [← hxvalid s.rx.xcmdValid, hdata]
    exact s.delivered_of_resolved s.ended.counted.rx hwf hcmd hsome _ _
  · have hdiscard := (hresolve s.ended.counted.rx rfl).trans (if_neg (by simp [hnone]))
    rw [execTimer_mismatch hfinish hactive hodd hpair, s.ended.closeMessage_of_discarded s.ended.counted.rx hcmd hdiscard]
  · have hsome := (hresolve s.rx.completed rfl).trans (if_pos hvalid)
    rw [← hxvalid s.rx.completed.xcmdValid, hdata]
    exact s.delivered_of_resolved s.rx.completed hwf hcmd hsome _ _
  · have hdiscard := (hresolve s.rx.completed rfl).trans (if_neg (by simp [hnone]))
    rw [execTimer_ceiling hfinish hactive hpair hlast, s.ended.closeMessage_of_discarded s.rx.completed hcmd hdiscard]
    rfl

end Sys2Proof.Machine
end

section
/-! The records (44_frame_decoder R613, R614, R630): which instruction appends one. -/

namespace Sys2Proof.Machine

variable {s t : State}

/-- No record, and nothing strobed. -/
abbrev State.Silent (s t : State) : Prop := t.nlog = s.nlog ∧ t.notifyPort = s.notifyPort

/-- One record appended, its word strobed (44_frame_decoder R630). -/
abbrev State.Records (s t : State) : Prop := ∃ r : Notify, t.nlog = s.nlog ++ [r] ∧ t.notifyPort = some r.pack

/-- A message ends in a record only if it had a command (44_frame_decoder R613). -/
theorem State.closeMessage_records (s : State) (x : RxAcc) (n : BitVec 8) (ones : BitVec 3) :
    s.Silent (s.closeMessage x n ones) ∨ (x.cmdValid = true ∧ s.Records (s.closeMessage x n ones)) := by
  rw [State.closeMessage]
  rcases (s.withRx x).endOfMessage_cases n with ⟨-, hend⟩ | ⟨-, -, hend⟩ | ⟨r, hcmd, -, hend⟩ <;> rw [hend]
  · exact .inl ⟨rfl, rfl⟩
  · exact .inl ⟨rfl, rfl⟩
  · obtain ⟨m, log, hregisters⟩ := (s.withRx x).deliver_registers r n
    rw [hregisters]
    exact .inr ⟨hcmd, _, rfl, rfl⟩

/-- A receive step records only where it ends a message with a command (44_frame_decoder R610 to R614). -/
theorem State.rxStep_records (s : State) (b : Bool) :
    s.Silent (s.rxStep b) ∨
      ((s.rx.count.toNat + 1) % 2 = 0 ∧ (b = s.rx.raw ∨ s.rx.count.toNat + 1 = 62)) ∧ s.rx.cmdValid = true ∧
        s.Records (s.rxStep b) := by
  by_cases heven : s.rx.count.toNat % 2 = 0
  · rw [State.rxStep_raw heven]
    exact .inl ⟨rfl, rfl⟩
  · have hodd : s.rx.count.toNat % 2 = 1 := by omega
    by_cases hpair : b = s.rx.raw
    · rw [State.rxStep_mismatch hodd hpair]
      exact (s.closeMessage_records _ _ _).imp_right fun h => ⟨⟨by omega, .inl hpair⟩, h⟩
    · by_cases hlast : s.rx.count.toNat = 61
      · rw [State.rxStep_ceiling hpair (BitVec.eq_of_toNat_eq hlast)]
        exact (s.closeMessage_records _ _ _).imp_right fun h => ⟨⟨by omega, .inr (by omega)⟩, h⟩
      · rw [State.rxStep_pair hodd hpair hlast, State.checkpoint_eq]
        exact .inl ⟨rfl, rfl⟩

theorem State.received_records (s : State) :
    s.Silent s.received ∨ (s.endsMessage = true ∧ s.rx.cmdValid = true ∧ s.Records s.received) := by
  rcases s.received_cases with ⟨hactive, h⟩ | ⟨-, h⟩ <;> rw [h]
  · refine (s.ended.rxStep_records s.inLatch).imp_right fun ⟨hends, hrecord⟩ => ⟨?_, hrecord⟩
    have hrx : s.ended.rx = s.rx := rfl
    simpa [State.endsMessage, hactive, hrx] using hends
  · rcases s.ended.detect_cases s.inLatch with ⟨-, h⟩ | ⟨-, -, h⟩ | ⟨-, -, h⟩ <;> rw [h] <;> exact .inl ⟨rfl, rfl⟩

/-- Settles O54: by cases on what the instruction did; only the finish step reaches the end of a message. -/
theorem onlyAnEndedCommandMessageNotifies : Obligations.OnlyAnEndedCommandMessageNotifies := by
  intro i s t h
  cases exec_effect h with
  | answer | start | overwrite | append | wipe | ignore | listen | sample | pause | pulse => exact .inl ⟨rfl, rfl⟩
  | @send sh =>
    obtain ⟨a, b, c, d, hbit⟩ := s.opened.nextBitOf_frame s.headSlot.frame sh
    rw [State.driveBit_eq, hbit]
    exact .inl ⟨rfl, rfl⟩
  | finish harmed hlast =>
    exact s.received_records.imp_right fun ⟨hends, hcmd, hrecord⟩ => ⟨rfl, hlast, hends, hcmd, hrecord⟩

end Sys2Proof.Machine
end

section
/-! What a listening core makes of the half-cycles it hears (30_encoding R344): start codes, the bits of a block, and the end of a
message. -/

namespace Sys2Proof.Machine

variable {s t u : State} {cfg : Config} {log : List Notify} {a : PendingAddr} {x : RxAcc} {w : Frame} {n : Nat} {b : Bool}
  {ones : BitVec 3} {P Q : State → Prop}

/-! ## Half-cycles in a row -/

/-- The half-cycles with the line at `bs` lead to a next state of which `P` holds. -/
def State.Leads (s : State) (bs : List Bool) (P : State → Prop) : Prop := ∃ t, halfCycles bs s = .next t ∧ P t

theorem State.Leads.single (h : halfCycle b s = .next t) (hP : P t) : s.Leads [b] P :=
  ⟨t, halfCycles_cons h [], hP⟩

theorem halfCycles_append {bs : List Bool} (h : halfCycles bs s = .next t) (cs : List Bool) :
    halfCycles (bs ++ cs) s = halfCycles cs t := by
  induction bs generalizing s with
  | nil => cases h; rfl
  | cons b bs ih =>
    cases hhalf : halfCycle b s with
    | next u =>
      rw [List.cons_append, halfCycles_cons hhalf]
      exact ih ((halfCycles_cons hhalf bs).symm.trans h)
    | fault r => rw [halfCycles, hhalf] at h; cases h
    | refused r => rw [halfCycles, hhalf] at h; cases h

theorem State.Leads.append {bs cs : List Bool} (h : s.Leads bs P) (hnext : ∀ t, P t → t.Leads cs Q) :
    s.Leads (bs ++ cs) Q := by
  obtain ⟨t, ht, hP⟩ := h
  obtain ⟨u, hu, hQ⟩ := hnext t hP
  exact ⟨u, (halfCycles_append ht cs).trans hu, hQ⟩

/-! ## A core that listens (41_zero_cross R452) -/

/-- An enabled core with an empty queue, its records and pending address as given: it sends nothing. -/
structure State.Listens (s : State) (cfg : Config) (log : List Notify) (a : PendingAddr) : Prop where
  enable : s.enable = true
  cfg_eq : s.cfg = cfg
  legal : cfg.Legal
  empty : s.qHead = s.qTail
  nlog : s.nlog = log
  addr : s.addr = a

/-- A half-cycle of a listening core gives the line's level to the decoder or the detector, and changes nothing they read. -/
theorem State.Listens.hears (h : s.Listens cfg log a) (b : Bool) :
    ∃ u : State, u.Listens cfg log a ∧ u.rx = s.rx ∧ u.onesCount = s.onesCount ∧
      halfCycle b s = .next (if s.rx.active then u.rxStep b else u.detect b) := by
  have hsilent : ¬s.mayTransmit := fun hsend => hsend.1 h.empty
  obtain ⟨d, hhalf⟩ := halfCycle_listen (b := b) h.enable (h.cfg_eq ▸ h.legal) hsilent
  refine ⟨{ s.begun with inLatch := b, readIn := b, timerDelay := d }.ended,
    ⟨h.enable, h.cfg_eq, h.legal, h.empty, h.nlog, h.addr⟩, rfl, rfl, ?_⟩
  rw [hhalf]
  rfl

/-- Nothing is being received, and the detector has counted `ones`. -/
structure State.Rests (s : State) (cfg : Config) (log : List Notify) (a : PendingAddr) (ones : BitVec 3) : Prop where
  listens : s.Listens cfg log a
  cleared : s.rx = {}
  counted : s.onesCount = ones

/-- The first `n` bits of the block `w`, from its bit 31 down, have been received into the accumulator (44_frame_decoder R604 to
R609). -/
structure RxAcc.Holds (x : RxAcc) (w : Frame) (n : Nat) : Prop where
  active : x.active = true
  buf : x.buf = w.extractLsb' (32 - n) 8
  house : 4 ≤ n → x.house = w.extractLsb' 28 4
  key : 8 ≤ n → x.key = w.extractLsb' 24 4
  cmdValid : x.cmdValid = (decide (9 ≤ n) && w.getLsbD 23)
  cmd : x.cmdValid = true → x.cmd = w.extractLsb' 24 4
  xunit : x.cmdValid = true → isExtCmd x.cmd = true → 13 ≤ n → x.xunitValid = true ∧ x.xunit = w.extractLsb' 19 4
  data : x.cmdValid = true → isExtCmd x.cmd = true → 21 ≤ n → x.dataValid = true ∧ x.data = w.extractLsb' 11 8

/-- The pending address once `n` bits of the block `w` are received: an address block's own from bit 9 on (44_frame_decoder
R607). -/
def pendingAfter (a : PendingAddr) (w : Frame) (n : Nat) : PendingAddr :=
  if 9 ≤ n ∧ w.getLsbD 23 = false then ⟨true, w.extractLsb' 28 4, w.extractLsb' 24 4⟩ else a

/-- The first `n` bits of the block `w` have been received, from a pending address `a`. -/
structure State.Takes (s : State) (cfg : Config) (log : List Notify) (a : PendingAddr) (w : Frame) (n : Nat) : Prop where
  listens : s.Listens cfg log (pendingAfter a w n)
  count : s.rx.count.toNat = 4 + 2 * n
  holds : s.rx.Holds w n
  counted : s.onesCount = 0

/-! ## The detector (42_bit_slot_timer R522, R523) -/

theorem State.Rests.hears (h : s.Rests cfg log a ones) (hones : ones.toNat ≤ 4) (b : Bool) :
    ∃ t : State, halfCycle b s = .next t ∧ t.Listens cfg log a ∧
      t.onesCount = (if b = false then 0 else if ones = 4 then 4 else ones + 1) ∧
      t.rx = (if b = false ∧ ones = 3 then { active := true, count := 4 } else {}) := by
  obtain ⟨hlistens, hcleared, rfl⟩ := h
  obtain ⟨u, hu, hrx, hcount, hhalf⟩ := hlistens.hears b
  rw [hcleared, if_neg Bool.false_ne_true, State.detect_eq (hcount ▸ hones), hcount, hrx, hcleared] at hhalf
  exact ⟨_, hhalf, ⟨hu.enable, hu.cfg_eq, hu.legal, hu.empty, hu.nlog, hu.addr⟩, rfl, rfl⟩

theorem State.Rests.hears_one (h : s.Rests cfg log a ones) (hones : ones.toNat < 4) :
    s.Leads [true] (·.Rests cfg log a (ones + 1)) := by
  obtain ⟨t, hhalf, hlistens, hcount, hrx⟩ := h.hears hones.le true
  have hne : ones ≠ 4 := fun h4 => hones.ne (congrArg BitVec.toNat h4)
  refine .single hhalf ⟨hlistens, hrx, hcount.trans ?_⟩
  rw [if_neg Bool.noConfusion, if_neg hne]

theorem State.Rests.hears_zero (h : s.Rests cfg log a 0) : s.Leads [false] (·.Rests cfg log a 0) := by
  obtain ⟨t, hhalf, hlistens, hcount, hrx⟩ := h.hears (by decide) false
  exact .single hhalf ⟨hlistens, hrx, hcount⟩

theorem State.Rests.hears_silence (h : s.Rests cfg log a 0) (n : Nat) :
    s.Leads (List.replicate n false) (·.Rests cfg log a 0) := by
  induction n generalizing s with
  | zero => exact ⟨s, rfl, h⟩
  | succ n ih => exact h.hears_zero.append (cs := List.replicate n false) fun t ht => ih ht

/-- At the start code no bit of the block to come is received. -/
theorem RxAcc.holds_zero (w : Frame) : ({ active := true, count := 4 } : RxAcc).Holds w 0 where
  active := rfl
  buf := by
    apply BitVec.eq_of_toNat_eq
    rw [BitVec.extractLsb'_toNat, Nat.shiftRight_eq_div_pow, Nat.div_eq_of_lt w.isLt]
    rfl
  house := nofun
  key := nofun
  cmdValid := rfl
  cmd := nofun
  xunit := nofun
  data := nofun

/-- Three ones and a zero start a message (42_bit_slot_timer R522). -/
theorem State.Rests.hears_start (h : s.Rests cfg log a 0) (w : Frame) :
    s.Leads [true, true, true, false] (·.Takes cfg log a w 0) := by
  have hones : s.Leads ([true] ++ [true] ++ [true]) (·.Rests cfg log a 3) :=
    ((h.hears_one (by decide)).append fun _ h1 => h1.hears_one (by decide)).append fun _ h2 => h2.hears_one (by decide)
  refine hones.append (cs := [false]) fun t ht => ?_
  obtain ⟨u, hhalf, hlistens, hcount, hrx⟩ := ht.hears (by decide) false
  exact .single hhalf ⟨hlistens, by rw [hrx]; rfl, hrx ▸ RxAcc.holds_zero w, hcount⟩

/-! ## The decoder, a pair at a time -/

/-- The accumulator holds as much of the block once the raw half of the next pair is latched. -/
theorem RxAcc.Holds.latched (h : x.Holds w n) (c : BitVec 8) (b : Bool) :
    ({ x with count := c, raw := b } : RxAcc).Holds w n :=
  ⟨h.active, h.buf, h.house, h.key, h.cmdValid, h.cmd, h.xunit, h.data⟩

/-- A pair heard inside a message: its raw half is latched, its other half is the decoder's next step. -/
theorem State.Takes.hears (h : s.Takes cfg log a w n) (hn : n ≤ 28) (b b' : Bool) :
    ∃ u : State, u.Listens cfg log (pendingAfter a w n) ∧ u.rx.count.toNat = 5 + 2 * n ∧ u.rx.raw = b ∧ u.rx.Holds w n ∧
      u.onesCount = 0 ∧ halfCycles [b, b'] s = .next (u.rxStep b') := by
  obtain ⟨hlistens, hcount, hholds, hcounted⟩ := h
  obtain ⟨u, hu, hrx, hones, hhalf⟩ := hlistens.hears b
  have heven : u.rx.count.toNat % 2 = 0 := by rw [hrx, hcount]; omega
  have hlatched : State.Listens { u with rx := { u.rx with count := u.rx.count + 1, raw := b } } cfg log (pendingAfter a w n) :=
    ⟨hu.enable, hu.cfg_eq, hu.legal, hu.empty, hu.nlog, hu.addr⟩
  rw [hholds.active, if_pos rfl, State.rxStep_raw heven] at hhalf
  rw [← hrx] at hholds hcount
  obtain ⟨v, hv, hrx', hones', hhalf'⟩ := hlatched.hears b'
  have hlatchedHolds := hholds.latched (u.rx.count + 1) b
  rw [show _ = true from hlatchedHolds.active, if_pos rfl] at hhalf'
  refine ⟨v, hv, ?_, by rw [hrx'], hrx' ▸ hlatchedHolds, hones'.trans (hones.trans hcounted),
    (halfCycles_cons hhalf [b']).trans (halfCycles_cons hhalf' [])⟩
  rw [hrx']
  show (u.rx.count + 1).toNat = _
  bv_omega

/-- One more bit of a block, shifted into a window on its last eight. -/
theorem block_shift (w : Frame) (hn : n < 32) :
    ((w.extractLsb' (32 - n) 8).toNat * 2 + (w.getLsbD (31 - n)).toNat) % 256 = (w.extractLsb' (31 - n) 8).toNat := by
  have hpow : 2 ^ (32 - n) = 2 ^ (31 - n) * 2 := by rw [← Nat.pow_succ]; congr 1; omega
  rw [BitVec.extractLsb'_toNat, BitVec.extractLsb'_toNat, Nat.shiftRight_eq_div_pow, Nat.shiftRight_eq_div_pow, hpow,
    ← Nat.div_div_eq_div_mul, getLsbD_eq_div]
  generalize w.toNat / 2 ^ (31 - n) = q
  by_cases hq : q % 2 = 1
  · rw [decide_eq_true hq, Bool.toNat_true]
    omega
  · rw [decide_eq_false hq, Bool.toNat_false]
    omega

/-- The rolling buffer a checkpoint reads: the last eight bits of the block. -/
theorem RxAcc.Holds.shifted (h : x.Holds w n) (hn : n < 32) (hraw : x.raw = w.getLsbD (31 - n)) :
    x.shifted = w.extractLsb' (31 - n) 8 := by
  apply BitVec.eq_of_toNat_eq
  rw [RxAcc.shifted_toNat, h.buf, hraw, block_shift w hn]

/-- The last four bits of a window on eight. -/
theorem extract_low_nibble (w : Frame) (i : Nat) : (w.extractLsb' i 8).extractLsb' 0 4 = w.extractLsb' i 4 := by
  apply BitVec.eq_of_toNat_eq
  simp only [BitVec.extractLsb'_toNat, Nat.shiftRight_eq_div_pow]
  omega

/-- A field of an extended command is captured at its count `T` and kept from there on. -/
theorem captured_from {α : Type} {valid v ext : Bool} {c T : Nat} {old new full : α} (hv : v = true) (hext : ext = true)
    (hnow : c = T → new = full) (hkept : c ≠ T → valid = true ∧ old = full) :
    (valid || decide (c = T ∧ v = true ∧ ext = true)) = true ∧ (if c = T ∧ v = true ∧ ext = true then new else old) = full := by
  by_cases hc : c = T
  · simp [hc, hv, hext, hnow hc]
  · simp [hc, hkept hc]

/-- A valid pair takes in the block's next bit, and its checkpoint captures the field that is complete with it
(44_frame_decoder R604 to R609). -/
theorem RxAcc.Holds.checkpoint (h : u.rx.Holds w n) (hn : n < 28) (hraw : u.rx.raw = w.getLsbD (31 - n)) :
    (u.accepted.checkpoint (2 * n + 6)).rx.Holds w (n + 1) := by
  have hbuf : u.accepted.rx.buf = w.extractLsb' (31 - n) 8 := h.shifted (by omega) hraw
  have hnibble : u.accepted.bufNibble = w.extractLsb' (31 - n) 4 := by
    rw [State.bufNibble, hbuf, extract_low_nibble]
  have hbit : u.accepted.rx.buf.getLsbD 0 = w.getLsbD (31 - n) := (RxAcc.shifted_getLsbD_zero _).trans hraw
  obtain ⟨hactive', -, -, -⟩ := u.accepted.checkpoint_receiver (2 * n + 6)
  obtain ⟨hcmdValid', hcmd', hxunitValid', hdataValid', -⟩ := u.accepted.checkpoint_valid (2 * n + 6)
  obtain ⟨-, hbuf', hhouse', hkey', hxunit', hdata', -, -⟩ := u.accepted.checkpoint_fields (2 * n + 6)
  rw [hbit] at hcmdValid' hcmd'
  rw [hnibble] at hhouse' hkey' hxunit'
  rw [hbuf] at hbuf' hdata'
  have hlate (h22 : 2 * n + 6 ≠ 22) : (u.accepted.checkpoint (2 * n + 6)).rx.cmdValid = u.rx.cmdValid ∧
      (u.accepted.checkpoint (2 * n + 6)).rx.cmd = u.rx.cmd := by
    rw [hcmdValid', hcmd', decide_eq_false fun h => h22 h.1, if_neg fun h => h22 h.1, Bool.or_false]
    exact ⟨rfl, rfl⟩
  refine ⟨hactive'.trans h.active, hbuf'.trans ?_, fun h4 => hhouse'.trans ?_, fun h8 => hkey'.trans ?_, hcmdValid'.trans ?_,
    fun hv => ?_, fun hv hext h13 => ?_, fun hv hext h21 => ?_⟩
  · rw [show 32 - (n + 1) = 31 - n by omega]
  · split
    · rw [show 31 - n = 28 by omega]
    · exact h.house (by omega)
  · split
    · rw [show 31 - n = 24 by omega]
    · exact h.key (by omega)
  · rw [show u.accepted.rx.cmdValid = _ from h.cmdValid]
    by_cases h8 : n = 8
    · subst h8
      simp
    · have hsame : 9 ≤ n + 1 ↔ 9 ≤ n := by omega
      simp [hsame, show ¬2 * n + 6 = 22 by omega]
  · by_cases h22 : 2 * n + 6 = 22
    · have hnone : u.accepted.rx.cmdValid = false := h.cmdValid.trans (by simp [show ¬9 ≤ n by omega])
      have hfunction : w.getLsbD (31 - n) = true := by
        rw [hcmdValid', hnone] at hv
        simpa [h22] using hv
      rw [hcmd', if_pos ⟨h22, hfunction⟩]
      exact h.key (by omega)
    · obtain ⟨hv', hcmd⟩ := hlate h22
      rw [hcmd]
      exact h.cmd (hv' ▸ hv)
  · obtain ⟨hv', hcmd⟩ := hlate (by omega)
    rw [hcmd] at hext
    rw [hv'] at hv
    rw [hxunitValid', hxunit']
    exact captured_from hv hext (fun hc => by rw [show 31 - n = 19 by omega]) fun hc => h.xunit hv hext (by omega)
  · obtain ⟨hv', hcmd⟩ := hlate (by omega)
    rw [hcmd] at hext
    rw [hv'] at hv
    rw [hdataValid', hdata']
    exact captured_from hv hext (fun hc => by rw [show 31 - n = 11 by omega]) fun hc => h.data hv hext (by omega)

/-- The ninth bit of an address block takes its house and key into the pending address (44_frame_decoder R607). -/
theorem RxAcc.Holds.checkpoint_addr (h : u.rx.Holds w n) (hraw : u.rx.raw = w.getLsbD (31 - n))
    (haddr : u.addr = pendingAfter a w n) : (u.accepted.checkpoint (2 * n + 6)).addr = pendingAfter a w (n + 1) := by
  have hbit : u.accepted.rx.buf.getLsbD 0 = w.getLsbD (31 - n) := (RxAcc.shifted_getLsbD_zero _).trans hraw
  obtain ⟨-, -, -, -, -, -, -, haddr'⟩ := u.accepted.checkpoint_fields (2 * n + 6)
  rw [haddr', hbit, show u.accepted.addr = _ from haddr]
  by_cases h8 : n = 8
  · subst h8
    rw [show u.accepted.rx.house = _ from h.house (by omega), show u.accepted.rx.key = _ from h.key (by omega)]
    simp [pendingAfter]
  · have hsame : 9 ≤ n + 1 ↔ 9 ≤ n := by omega
    simp [pendingAfter, hsame, show ¬2 * n + 6 = 22 by omega]

theorem State.Takes.hears_pair (h : s.Takes cfg log a w n) (hn : n < 28) :
    s.Leads [w.getLsbD (31 - n), !w.getLsbD (31 - n)] (·.Takes cfg log a w (n + 1)) := by
  obtain ⟨u, hu, hcount, hraw, hholds, hones, hhalves⟩ := h.hears hn.le (w.getLsbD (31 - n)) (!w.getLsbD (31 - n))
  have hpair : (!w.getLsbD (31 - n)) ≠ u.rx.raw := by rw [hraw]; simp
  rw [State.rxStep_pair (by omega) hpair (by omega), show u.rx.count.toNat + 1 = 2 * n + 6 by omega] at hhalves
  have hframe := u.accepted.checkpoint_frame (2 * n + 6)
  obtain ⟨-, hcount', hones', -⟩ := u.accepted.checkpoint_receiver (2 * n + 6)
  obtain ⟨-, -, hnlog⟩ := u.accepted.checkpoint_store (2 * n + 6)
  have hlistens : (u.accepted.checkpoint (2 * n + 6)).Listens cfg log (pendingAfter a w (n + 1)) :=
    ⟨hframe.enable.trans hu.enable, hframe.cfg.trans hu.cfg_eq, hu.legal, hframe.qHead.trans (hu.empty.trans hframe.qTail.symm),
      hnlog.trans hu.nlog, hholds.checkpoint_addr hraw hu.addr⟩
  have hlength : (u.accepted.checkpoint (2 * n + 6)).rx.count.toNat = 4 + 2 * (n + 1) := by
    rw [hcount', State.accepted_rx]
    simp only [BitVec.toNat_ofNat]
    omega
  exact ⟨_, hhalves, hlistens, hlength, hholds.checkpoint hn hraw, hones'.trans hones⟩

/-! ## The end of a message (44_frame_decoder R610 to R618) -/

/-- A silent pair ends a message (44_frame_decoder R610). -/
theorem State.Takes.hears_silent_pair (h : s.Takes cfg log a w n) (hn : n ≤ 28) :
    ∃ u : State, u.Listens cfg log (pendingAfter a w n) ∧ u.rx.Holds w n ∧
      halfCycles [false, false] s = .next (u.closeMessage u.counted.rx (BitVec.ofNat 8 (4 + 2 * n)) 0) := by
  obtain ⟨u, hu, hcount, hraw, hholds, -, hhalves⟩ := h.hears hn false false
  have hbits : u.rx.count - 1 = BitVec.ofNat 8 (4 + 2 * n) := by bv_omega
  rw [State.rxStep_mismatch (by omega) hraw.symm, hbits] at hhalves
  exact ⟨u, hu, hholds, hhalves⟩

/-- A command delivered leaves a core at rest, its record added (44_frame_decoder R614). -/
theorem State.Listens.closes {r : Resolved} (h : s.Listens cfg log a) (hcmd : x.cmdValid = true)
    (hresolve : resolveCommand cfg.presetDimEnable x a = some r) (n : BitVec 8) :
    (s.closeMessage x n 0).Rests cfg (log ++ [⟨r.house, r.unit, x.cmd, r.data, r.xcmd, n⟩]) {} 0 := by
  obtain ⟨henable, rfl, hlegal, hempty, rfl, rfl⟩ := h
  obtain ⟨m, sent, hregisters⟩ := (s.withRx x).deliver_registers r n
  rw [s.closeMessage_of_resolved x hcmd hresolve, hregisters]
  exact ⟨⟨henable, rfl, hlegal, hempty, rfl, rfl⟩, rfl, rfl⟩

/-- An address block, then silence: its house and key are pending, and there is no record (44_frame_decoder R607, R613). -/
theorem State.Takes.hears_end_of_address (h : s.Takes cfg log a w 9) (haddress : w.getLsbD 23 = false) :
    s.Leads [false, false] (·.Rests cfg log ⟨true, w.extractLsb' 28 4, w.extractLsb' 24 4⟩ 0) := by
  obtain ⟨u, hu, hholds, hhalves⟩ := h.hears_silent_pair (by omega)
  have hnone : u.counted.rx.cmdValid = false := hholds.cmdValid.trans (by rw [haddress]; rfl)
  rw [u.closeMessage_of_no_command _ hnone] at hhalves
  have hpending : pendingAfter a w 9 = ⟨true, w.extractLsb' 28 4, w.extractLsb' 24 4⟩ := if_pos ⟨le_rfl, haddress⟩
  exact ⟨_, hhalves, ⟨hu.enable, hu.cfg_eq, hu.legal, hu.empty, hu.nlog, hu.addr.trans hpending⟩, rfl, rfl⟩

/-- A standard command block, then silence: a record for the pending unit of its house, or for none (44_frame_decoder R617). -/
theorem State.Takes.hears_end_of_command (h : s.Takes cfg log a w 9) (hcommand : w.getLsbD 23 = true)
    (hext : isExtCmd (w.extractLsb' 24 4) = false)
    (hpreset : isPreset (w.extractLsb' 24 4) = true → cfg.presetDimEnable = false) :
    s.Leads [false, false] (·.Rests cfg (log ++
      [⟨houseIndex (w.extractLsb' 28 4), if a.valid = true ∧ a.house = w.extractLsb' 28 4 then unitOf a.unit else 0,
        w.extractLsb' 24 4, 0, 0, 22⟩]) {} 0) := by
  obtain ⟨u, hu, hholds, hhalves⟩ := h.hears_silent_pair (by omega)
  have hsome : u.counted.rx.cmdValid = true := hholds.cmdValid.trans (by rw [hcommand]; rfl)
  have hcmd : u.counted.rx.cmd = w.extractLsb' 24 4 := hholds.cmd hsome
  have hhouse : u.counted.rx.house = w.extractLsb' 28 4 := hholds.house (by omega)
  have hkept : pendingAfter a w 9 = a := if_neg fun h => Bool.noConfusion (hcommand.symm.trans h.2)
  have hstandard : resolveCommand cfg.presetDimEnable u.counted.rx a = some (resolveStandard u.counted.rx a) :=
    resolveCommand_standard (hcmd ▸ hext) fun ⟨hon, hp⟩ => Bool.noConfusion (hon.symm.trans (hpreset (hcmd ▸ hp)))
  have hrests := (hkept ▸ hu).closes hsome hstandard 22
  rw [hcmd, resolveStandard, hhouse] at hrests
  exact ⟨_, hhalves, hrests⟩

/-- The last bit of an extended block is its message's end: a record of every field received (44_frame_decoder R611, R616). -/
theorem State.Takes.hears_end_of_extended (h : s.Takes cfg log a w 28) (hcommand : w.getLsbD 23 = true)
    (hext : isExtCmd (w.extractLsb' 24 4) = true) :
    s.Leads [w.getLsbD 3, !w.getLsbD 3] (·.Rests cfg (log ++
      [⟨houseIndex (w.extractLsb' 28 4), unitOf (w.extractLsb' 19 4), w.extractLsb' 24 4, w.extractLsb' 11 8,
        w.extractLsb' 3 8, 62⟩]) {} 0) := by
  obtain ⟨u, hu, hcount, hraw, hholds, hones, hhalves⟩ := h.hears le_rfl (w.getLsbD 3) (!w.getLsbD 3)
  have hpair : (!w.getLsbD 3) ≠ u.rx.raw := by rw [hraw]; simp
  rw [State.rxStep_ceiling hpair (BitVec.eq_of_toNat_eq hcount), hones] at hhalves
  have hsome : u.rx.cmdValid = true := hholds.cmdValid.trans (by rw [hcommand]; rfl)
  have hcmd : u.rx.cmd = w.extractLsb' 24 4 := hholds.cmd hsome
  have hextended : isExtCmd u.rx.cmd = true := hcmd ▸ hext
  obtain ⟨hxunitValid, hxunit⟩ := hholds.xunit hsome hextended (by omega)
  obtain ⟨hdataValid, hdata⟩ := hholds.data hsome hextended (by omega)
  have hresolved : resolveExtended u.rx.completed =
      ⟨houseIndex (w.extractLsb' 28 4), unitOf (w.extractLsb' 19 4), w.extractLsb' 11 8, w.extractLsb' 3 8⟩ := by
    simp [resolveExtended, RxAcc.completed, hsome, hextended, hxunitValid, hxunit, hdataValid, hdata,
      hholds.house (by omega), hholds.shifted (by omega) hraw]
  have hrests := hu.closes (x := u.rx.completed) hsome (resolveCommand_extended hextended) 62
  rw [hresolved, show u.rx.completed.cmd = _ from hcmd] at hrests
  exact ⟨_, hhalves, hrests⟩

end Sys2Proof.Machine
end

section
/-! The round trip (44_frame_decoder R633): each shape's wire sequence, stretch by stretch, as a listening core hears it. -/

namespace Sys2Proof.Machine

variable {s : State} {cfg : Config} {log : List Notify} {a : PendingAddr} {f w : Frame} {sh : Shape} {c m n : Nat}

/-- The stretch of `n` half-cycles of a repetition after count `c`. -/
def wireStretch (f : Frame) (sh : Shape) (c n : Nat) : List Bool := (List.range n).map fun i => wireBit f sh (c + i + 1)

theorem wireSequence_eq_stretch (f : Frame) (sh : Shape) : wireSequence f sh = wireStretch f sh 0 (endCount sh) := by
  simp [wireSequence, wireStretch]

theorem wireStretch_add (f : Frame) (sh : Shape) (c m n : Nat) :
    wireStretch f sh c (m + n) = wireStretch f sh c m ++ wireStretch f sh (c + m) n := by
  simp [wireStretch, List.range_add, Nat.add_assoc, Function.comp_def]

theorem wireStretch_two (f : Frame) (sh : Shape) (c : Nat) :
    wireStretch f sh c 2 = [wireBit f sh (c + 1), wireBit f sh (c + 2)] := rfl

theorem wireStretch_gap (hlow : 22 ≤ c) (hhigh : c + n ≤ 40) : wireStretch f .standard c n = List.replicate n false := by
  refine List.eq_replicate_iff.mpr ⟨by simp [wireStretch], fun b hb => ?_⟩
  obtain ⟨i, hi, rfl⟩ := List.mem_map.mp hb
  have := List.mem_range.mp hi
  exact wireBit_gap (by omega) (by omega)

/-- A start code and `m` bit pairs of the block `w`, heard by a core at rest. -/
theorem State.Rests.hears_block (h : s.Rests cfg log a 0) (hstart : wireStretch f sh c 4 = [true, true, true, false])
    (hbits : ∀ p < m, wireBit f sh (c + 5 + 2 * p) = w.getLsbD (31 - p) ∧
      wireBit f sh (c + 6 + 2 * p) = !w.getLsbD (31 - p)) (hm : m ≤ 28) :
    s.Leads (wireStretch f sh c (4 + 2 * m)) (·.Takes cfg log a w m) := by
  induction m with
  | zero => exact hstart ▸ h.hears_start w
  | succ m ih =>
    obtain ⟨hraw, hcomplement⟩ := hbits m (Nat.lt_succ_self m)
    have hpair : wireStretch f sh (c + (4 + 2 * m)) 2 = [w.getLsbD (31 - m), !w.getLsbD (31 - m)] := by
      rw [wireStretch_two, show c + (4 + 2 * m) + 1 = c + 5 + 2 * m by omega, hraw,
        show c + (4 + 2 * m) + 2 = c + 6 + 2 * m by omega, hcomplement]
    rw [show 4 + 2 * (m + 1) = 4 + 2 * m + 2 by ring, wireStretch_add, hpair]
    exact (ih (fun p hp => hbits p (by omega)) (by omega)).append fun t ht => ht.hears_pair (by omega)

/-- The first nine bits of any repetition (43_frame_encoder R553, R554). -/
theorem State.Rests.hears_first_block (h : s.Rests cfg log a 0) (f : Frame) (sh : Shape) :
    s.Leads (wireStretch f sh 0 22) (·.Takes cfg log a f 9) := by
  refine h.hears_block (m := 9) (by simp [wireStretch, List.range_succ, wireBit_of_le_four]) (fun p hp => ?_) (by omega)
  rw [Nat.zero_add, Nat.zero_add]
  exact wireBit_first_block_pair fun _ => hp

/-! ## The second block of a STANDARD frame, as a block of its own (43_frame_encoder R558) -/

theorem getLsbD_secondBlock (f : Frame) {p : Nat} (hp : p < 9) : (f <<< 9).getLsbD (31 - p) = f.getLsbD (22 - p) := by
  rw [BitVec.getLsbD_shiftLeft, show 31 - p - 9 = 22 - p by omega]
  simp [show 31 - p < 32 by omega, show ¬31 - p < 9 by omega]

theorem extract_secondBlock (f : Frame) {lo : Nat} (hlo : lo ≤ 19) :
    (f <<< 9).extractLsb' (lo + 9) 4 = f.extractLsb' lo 4 := by
  apply BitVec.eq_of_getLsbD_eq
  intro i hi
  simp only [BitVec.getLsbD_extractLsb', BitVec.getLsbD_shiftLeft, show lo + 9 + i - 9 = lo + i by omega]
  simp [show lo + 9 + i < 32 by omega, show ¬lo + 9 + i < 9 by omega]

theorem State.Rests.hears_second_block (h : s.Rests cfg log a 0) (f : Frame) :
    s.Leads (wireStretch f .standard 40 22) (·.Takes cfg log a (f <<< 9) 9) := by
  refine h.hears_block (m := 9) (by simp [wireStretch, List.range_succ, wireBit_second_start]) (fun p hp => ?_) (by omega)
  rw [getLsbD_secondBlock f hp]
  exact wireBit_part_two_pair p

/-! ## The four shapes (30_encoding R312 to R315) -/

theorem wireSequence_standard (f : Frame) :
    wireSequence f .standard =
      wireStretch f .standard 0 22 ++ [false, false] ++ List.replicate 16 false ++ wireStretch f .standard 40 22 := by
  rw [wireSequence_eq_stretch, show endCount .standard = 22 + 2 + 16 + 22 from rfl, wireStretch_add, wireStretch_add,
    wireStretch_add, wireStretch_gap (n := 2) (by omega) (by omega), wireStretch_gap (n := 16) (by omega) (by omega)]
  rfl

/-- The first block leaves the unit pending, the second names the command for it if its house code is the same. -/
theorem State.Rests.hears_standard {house unit cmd hp : Nibble} (h : s.Rests cfg log a 0)
    (hlayout : StandardLayout f house unit cmd hp) (hext : isExtCmd cmd = false)
    (hpreset : isPreset cmd = true → cfg.presetDimEnable = false) :
    s.Leads (wireSequence f .standard ++ [false, false])
      (·.Rests cfg (log ++ [⟨houseIndex hp, if house = hp then unitOf unit else 0, cmd, 0, 0, 22⟩]) {} 0) := by
  obtain ⟨rfl, rfl, haddress, rfl, rfl, hcommand, -⟩ := hlayout
  rw [← extract_secondBlock f (lo := 15) (by omega)] at hext hpreset
  rw [← extract_secondBlock f (lo := 15) (by omega), ← extract_secondBlock f (lo := 19) (by omega), wireSequence_standard]
  refine ((((h.hears_first_block f .standard).append fun t ht => ht.hears_end_of_address haddress).append
    fun t ht => ht.hears_silence 16).append fun t ht => ht.hears_second_block f).append fun t ht => ?_
  have hend := ht.hears_end_of_command ((getLsbD_secondBlock f (p := 8) (by omega)).trans hcommand) hext hpreset
  simpa using hend

theorem State.Rests.hears_commandOnly {house cmd : Nibble} (h : s.Rests cfg log a 0) (hnone : a.valid = false)
    (hlayout : CommandOnlyLayout f house cmd) (hext : isExtCmd cmd = false)
    (hpreset : isPreset cmd = true → cfg.presetDimEnable = false) :
    s.Leads (wireSequence f .commandOnly ++ [false, false])
      (·.Rests cfg (log ++ [⟨houseIndex house, 0, cmd, 0, 0, 22⟩]) {} 0) := by
  obtain ⟨rfl, rfl, hcommand, -⟩ := hlayout
  rw [wireSequence_eq_stretch]
  refine (h.hears_first_block f .commandOnly).append fun t ht => ?_
  have hend := ht.hears_end_of_command hcommand hext hpreset
  rwa [if_neg (by simp [hnone])] at hend

theorem State.Rests.hears_addressOnly {house unit : Nibble} (h : s.Rests cfg log a 0) (hlayout : AddressLayout f house unit) :
    s.Leads (wireSequence f .addressOnly ++ [false, false]) (·.Rests cfg log ⟨true, house, unit⟩ 0) := by
  obtain ⟨rfl, rfl, haddress, -⟩ := hlayout
  rw [wireSequence_eq_stretch]
  exact (h.hears_first_block f .addressOnly).append fun t ht => ht.hears_end_of_address haddress

theorem wireSequence_extended (f : Frame) :
    wireSequence f .extended = wireStretch f .extended 0 60 ++ [f.getLsbD 3, !f.getLsbD 3] := by
  obtain ⟨hraw, hcomplement⟩ := wireBit_first_block_pair (f := f) (sh := .extended) (p := 28) nofun
  rw [wireSequence_eq_stretch, show endCount .extended = 60 + 2 from rfl, wireStretch_add, wireStretch_two]
  exact congrArg _ (congrArg₂ (fun b b' => [b, b']) hraw hcomplement)

theorem State.Rests.hears_extended {house cmd unit : Nibble} {xd xc : Byte} (h : s.Rests cfg log a 0)
    (hlayout : ExtendedLayout f house cmd unit xd xc) (hext : isExtCmd cmd = true) :
    s.Leads (wireSequence f .extended ++ [false, false])
      (·.Rests cfg (log ++ [⟨houseIndex house, unitOf unit, cmd, xd, xc, 62⟩]) {} 0) := by
  obtain ⟨rfl, rfl, hcommand, rfl, rfl, rfl, -⟩ := hlayout
  have hblock : s.Leads (wireStretch f .extended 0 (4 + 2 * 28)) (·.Takes cfg log a f 28) := by
    refine h.hears_block (by simp [wireStretch, List.range_succ, wireBit_of_le_four]) (fun p _ => ?_) le_rfl
    rw [Nat.zero_add, Nat.zero_add]
    exact wireBit_first_block_pair nofun
  rw [wireSequence_extended]
  exact (hblock.append fun t ht => ht.hears_end_of_extended hcommand hext).append fun t ht => ht.hears_silence 2

/-- Settles O43: each frame's wire sequence is heard by a core at rest, and its codes are read back through the tables. -/
theorem wireSequenceDecodesToItsMessage : Obligations.WireSequenceDecodesToItsMessage := by
  intro s h u c xd xc ⟨hlegal, _, _, _, _, hrx, _⟩ henable _ hempty hidle hones haddr hlow hhigh
  obtain ⟨-, hcleared, -⟩ := hrx
  have hrest : s.Rests s.cfg s.nlog s.addr 0 := ⟨⟨henable, rfl, hlegal, hempty, rfl, rfl⟩, hcleared hidle, hones⟩
  have hunit := unitOf_unitCode u hlow hhigh
  refine ⟨fun hext hpreset => ⟨?_, ?_⟩, fun hext => ?_, ?_⟩
  · obtain ⟨t, ht, hend⟩ := hrest.hears_standard (standardFrame_layout h u c (houseCode h)) hext hpreset
    rw [if_pos rfl, houseIndex_houseCode, hunit] at hend
    exact ⟨t, ht, hend.listens.nlog, congrArg PendingAddr.valid hend.listens.addr⟩
  · obtain ⟨t, ht, hend⟩ := hrest.hears_commandOnly haddr (commandOnlyFrame_layout (houseCode h) c) hext hpreset
    rw [houseIndex_houseCode] at hend
    exact ⟨t, ht, hend.listens.nlog⟩
  · obtain ⟨t, ht, hend⟩ := hrest.hears_extended (extendedFrame_layout h u c xd xc) hext
    rw [houseIndex_houseCode, hunit] at hend
    exact ⟨t, ht, hend.listens.nlog⟩
  · obtain ⟨t, ht, hend⟩ := hrest.hears_addressOnly (addressFrame_layout h u)
    exact ⟨t, ht, hend.listens.nlog, hend.listens.addr⟩

end Sys2Proof.Machine
end

section
/-! The conversions (45_module_state R680 to R690) and the byte a decoded command makes of a module's byte (45_module_state R655
to R661), in numbers. -/

namespace Sys2Proof.Machine

/-! ## The conversions (45_module_state R680 to R690) -/

/-- 30_encoding R336: an OK response is its RESULT as a number. -/
theorem State.respond_ok_eq (s : State) (result : BitVec 24) :
    s.respond .ok result = { s with rsp := some (BitVec.ofNat 32 result.toNat) } := by
  have hword : (statusCode .ok ++ result : Response) = BitVec.ofNat 32 result.toNat := by
    rw [respWord_eq, show (statusCode .ok).toNat = 0 from rfl, Nat.zero_mul, Nat.zero_add]
  rw [← hword]
  rfl

/-- Settles O18: the answer fits RESULT, so the response is the number. -/
theorem pctToBrightConverts : Obligations.PctToBrightConverts := by
  intro s val hval
  have hfits : (val.toNat * 62 + 50) / 100 < 2 ^ 24 := by omega
  rw [exec_pctToBright, if_neg (by simpa [Instr.wellFormed, percentOk] using hval), State.respond_ok_eq, p2bNat,
    BitVec.toNat_ofNat, Nat.mod_eq_of_lt hfits]

/-- Settles O19: the answer fits RESULT, so the response is the number. -/
theorem brightToPctConverts : Obligations.BrightToPctConverts := by
  intro s val hval
  have hfits : (val.toNat * 100 + 31) / 62 < 2 ^ 24 := by omega
  rw [exec_brightToPct, if_neg (by simpa [Instr.wellFormed] using hval), State.respond_ok_eq, b2pNat,
    BitVec.toNat_ofNat, Nat.mod_eq_of_lt hfits]

/-- Settles O20: the brightness answered is a legal operand of the second command, so both formulas apply. -/
theorem percentRoundTripWithinOne : Obligations.PercentRoundTripWithinOne := by
  intro s val hval
  have hbright : (val.toNat * 62 + 50) / 100 ≤ 62 := by omega
  have hoperand : ((BitVec.ofNat 32 ((val.toNat * 62 + 50) / 100)).setWidth 8).toNat = (val.toNat * 62 + 50) / 100 := by
    rw [BitVec.toNat_setWidth, BitVec.toNat_ofNat, Nat.mod_eq_of_lt (hbright.trans_lt (by decide)),
      Nat.mod_eq_of_lt (hbright.trans_lt (by decide))]
  refine ⟨_, _, pctToBrightConverts s val hval, brightToPctConverts s _ (hoperand.trans_le hbright), ?_⟩
  rw [hoperand, BitVec.toNat_ofNat, Nat.mod_eq_of_lt (by omega)]
  omega

/-! ## The byte after a decoded command (45_module_state R655 to R661) -/

section
variable {presetDim xvalid : Bool} {v d x : Byte} {cmd : Nibble}

/-- 45_module_state R656. -/
theorem updatedByte_on (h : cmd = cmdOn ∨ cmd = cmdStatusOn) :
    updatedByte presetDim v cmd d x xvalid = mkByte 0b11 (if byteBr v = 0 then 62 else byteBr v) :=
  if_pos h

/-- 45_module_state R657. -/
theorem updatedByte_off (h : cmd = cmdOff ∨ cmd = cmdStatusOff) :
    updatedByte presetDim v cmd d x xvalid = mkByte 0b10 (byteBr v) := by
  rcases h with rfl | rfl <;> rfl

/-- 45_module_state R658. -/
theorem updatedByte_dim :
    updatedByte presetDim v cmdDim d x xvalid = mkByte 0b11 (dimBr (byteSt v) (byteBr v)) := rfl

/-- 45_module_state R659. -/
theorem updatedByte_bright :
    updatedByte presetDim v cmdBright d x xvalid = mkByte 0b11 (brightBr (byteSt v) (byteBr v)) := rfl

/-- 45_module_state R660, R661: a command outside R656 to R659 sets a preset level, or only marks the module seen. -/
theorem updatedByte_otherwise (h : cmd.toNat ∉ [2, 3, 4, 5, 13, 14]) :
    updatedByte presetDim v cmd d x xvalid =
      if (presetDim = true ∧ (cmd.toNat = 10 ∨ cmd.toNat = 11)) ∨ (cmd.toNat = 7 ∧ xvalid = true ∧ x = 0x31) then
        if dataLevel d = 0 then mkByte 0b10 (byteBr v) else mkByte 0b11 (dataLevel d)
      else mkByte (if byteSt v = 0 then 0b01 else byteSt v) (byteBr v) := by
  have hne {c : Nibble} (hc : cmd.toNat ≠ c.toNat) : cmd ≠ c := ne_of_apply_ne BitVec.toNat hc
  have hcode (c : Nibble) : cmd = c ↔ cmd.toNat = c.toNat := BitVec.toNat_eq
  simp only [List.mem_cons, List.not_mem_nil, or_false, not_or] at h
  obtain ⟨h2, h3, h4, h5, h13, h14⟩ := h
  have hon : ¬(cmd = cmdOn ∨ cmd = cmdStatusOn) := not_or.mpr ⟨hne h2, hne h13⟩
  have hoff : ¬(cmd = cmdOff ∨ cmd = cmdStatusOff) := not_or.mpr ⟨hne h3, hne h14⟩
  have hdim : cmd ≠ cmdDim := hne h4
  have hbright : cmd ≠ cmdBright := hne h5
  dsimp only [updatedByte]
  rw [if_neg hon, if_neg hoff, if_neg hdim, if_neg hbright]
  simp only [isPreset_iff, hcode]
  rfl

/-- 45_module_state R658, on integers: at a brightness below 10 the lower clamp applies. -/
theorem dimBr_toNat (st : BitVec 2) (br : BitVec 6) :
    ((dimBr st br).toNat : Int) = if st.toNat = 3 then max 1 (min 62 ((br.toNat : Int) - 9)) else 53 := by
  have hst : st = 0b11 ↔ st.toNat = 3 := BitVec.toNat_eq
  simp only [dimBr, hst]
  split
  · rw [BitVec.toNat_ofNat, clampNat]
    omega
  · rfl

/-- 45_module_state R659. -/
theorem brightBr_toNat (st : BitVec 2) (br : BitVec 6) :
    (brightBr st br).toNat = if st.toNat = 3 then max 1 (min 62 (br.toNat + 9)) else 9 := by
  have hst : st = 0b11 ↔ st.toNat = 3 := BitVec.toNat_eq
  simp only [brightBr, hst]
  split
  · rw [BitVec.toNat_ofNat, clampNat]
    omega
  · rfl

/-- 45_module_state R660. -/
theorem dataLevel_toNat (d : Byte) : (dataLevel d).toNat = min (d.toNat % 64) 62 := by
  rw [dataLevel, BitVec.toNat_ofNat, BitVec.extractLsb'_toNat, Nat.shiftRight_zero]
  omega

/-- Settles O23: each kind of command by its own equation, its status code and brightness as numbers. -/
theorem moduleByteFollowsTheCommand : Obligations.ModuleByteFollowsTheCommand := by
  intro presetDim v cmd d x xvalid
  dsimp only
  rw [← byteSt_toNat, ← byteBr_toNat, ← dataLevel_toNat]
  have hzero {n : Nat} (b : BitVec n) : b = 0 ↔ b.toNat = 0 := BitVec.toNat_eq
  refine ⟨fun h => ?on, fun h => ?off, fun h => ?dim, fun h => ?bright, fun h => ?preset, fun h hpreset => ?other⟩
  case on =>
    rw [updatedByte_on (h.imp BitVec.eq_of_toNat_eq BitVec.eq_of_toNat_eq), mkByte_toNat, apply_ite BitVec.toNat]
    simp only [hzero]
    rfl
  case off =>
    rw [updatedByte_off (h.imp BitVec.eq_of_toNat_eq BitVec.eq_of_toNat_eq), mkByte_toNat]
    rfl
  case dim =>
    obtain rfl : cmd = cmdDim := BitVec.eq_of_toNat_eq h
    rw [updatedByte_dim, mkByte_toNat, ← dimBr_toNat]
    rfl
  case bright =>
    obtain rfl : cmd = cmdBright := BitVec.eq_of_toNat_eq h
    rw [updatedByte_bright, mkByte_toNat, brightBr_toNat]
    rfl
  case preset =>
    have hcodes : cmd.toNat ∉ [2, 3, 4, 5, 13, 14] := by
      obtain ⟨-, hcmd | hcmd⟩ | ⟨hcmd, -⟩ := h <;> rw [hcmd] <;> decide
    rw [updatedByte_otherwise hcodes, if_pos h, apply_ite BitVec.toNat, mkByte_toNat, mkByte_toNat]
    simp only [hzero]
    rfl
  case other =>
    rw [updatedByte_otherwise h, if_neg hpreset, mkByte_toNat, apply_ite BitVec.toNat]
    simp only [hzero]
    split
    next hst => rw [hst]; rfl
    next hst => omega

end

end Sys2Proof.Machine
end

section
/-! What the enable bit reaches (46_control R710): another ENABLE passes unchanged through every operation but ZC, START and
GET_STATUS. -/

namespace Sys2Proof.Machine

/-- The state with another ENABLE. -/
def State.withEnable (b : Bool) (s : State) : State := { s with enable := b }

variable (b : Bool) (s : State)

/-! ## The module store and the queue -/

theorem State.memWrite_withEnable (k : Key) (v : Byte) :
    (s.withEnable b).memWrite k v = (s.memWrite k v).withEnable b := by
  rw [State.memWrite_eq, State.memWrite_eq]
  rfl

theorem State.wipe_withEnable (ks : List Key) : State.wipe ks (s.withEnable b) = (State.wipe ks s).withEnable b := by
  induction ks generalizing s with
  | nil => rfl
  | cons k ks ih => simp only [State.wipe, State.memWrite_withEnable, ih]

theorem State.enqueue_withEnable (w : Frame) (reps : BitVec 8) (ctx : Bool) :
    (s.withEnable b).enqueue w reps ctx = (s.enqueue w reps ctx).withEnable b := by
  simp only [State.enqueue, apply_ite (State.withEnable b)]
  rfl

/-! ## The finish step -/

theorem State.deliver_withEnable (r : Resolved) (n : BitVec 8) :
    (s.withEnable b).deliver r n = (s.deliver r n).withEnable b := by
  rw [State.deliver_eq, State.deliver_eq]
  split
  · rfl
  · rw [State.memWrite_withEnable]
    rfl

theorem State.endOfMessage_withEnable (n : BitVec 8) :
    (s.withEnable b).endOfMessage n = (s.endOfMessage n).withEnable b := by
  have hres : resolveCommand (s.withEnable b).cfg.presetDimEnable (s.withEnable b).rx (s.withEnable b).addr =
      resolveCommand s.cfg.presetDimEnable s.rx s.addr := rfl
  simp only [State.endOfMessage, State.processCommand, hres, State.deliver_withEnable, apply_ite (State.withEnable b)]
  cases resolveCommand s.cfg.presetDimEnable s.rx s.addr <;> rfl

theorem State.checkpoint_withEnable (c : Nat) : (s.withEnable b).checkpoint c = (s.checkpoint c).withEnable b := by
  simp only [State.checkpoint, apply_ite (State.withEnable b)]
  rfl

theorem State.rxStep_withEnable (x : Bool) : (s.withEnable b).rxStep x = (s.rxStep x).withEnable b := by
  have hrx : (s.withEnable b).rx = s.rx := rfl
  have hcounted : (s.withEnable b).counted = s.counted.withEnable b := rfl
  have haccept : (s.counted.withEnable b).acceptBit = s.counted.acceptBit.withEnable b := rfl
  simp only [State.rxStep_eq, hrx, hcounted, haccept, State.checkpoint_withEnable, State.endOfMessage_withEnable,
    apply_ite (State.withEnable b)]
  rfl

theorem State.detect_withEnable (x : Bool) : (s.withEnable b).detect x = (s.detect x).withEnable b := by
  simp only [State.detect, apply_ite (State.withEnable b)]
  rfl

theorem State.finish_withEnable : (s.withEnable b).finish = s.finish.withEnable b := by
  have hclosed : (s.withEnable b).closed = s.closed.withEnable b := rfl
  rw [State.finish_eq, State.finish_eq, hclosed, State.rxStep_withEnable, State.detect_withEnable,
    apply_ite (State.withEnable b)]
  rfl

/-! ## TIMER and the step -/

theorem State.endFirstPulse_withEnable : (s.withEnable b).endFirstPulse = s.endFirstPulse.withEnable b := by
  have hout : (s.withEnable b).setOut false = (s.setOut false).withEnable b := rfl
  simp only [State.endFirstPulse, hout, State.finish_withEnable, apply_ite (State.withEnable b)]
  rfl

theorem State.endPhasePulse_withEnable : (s.withEnable b).endPhasePulse = s.endPhasePulse.withEnable b := by
  have hout : (s.withEnable b).setOut false = (s.setOut false).withEnable b := rfl
  simp only [State.endPhasePulse, hout, State.finish_withEnable, apply_ite (State.withEnable b)]
  rfl

theorem execTimer_withEnable : execTimer (s.withEnable b) = mapNext (State.withEnable b) (execTimer s) := by
  have hdisarm : (s.withEnable b).disarmTimer = s.disarmTimer.withEnable b := rfl
  simp only [execTimer_eq, hdisarm, State.endFirstPulse_withEnable, State.endPhasePulse_withEnable,
    apply_ite (mapNext (State.withEnable b))]
  rfl

/-- 46_control R710: only ZC and GET_STATUS read ENABLE, and only START writes it. -/
theorem exec_withEnable {i : Instr} (hzc : i ≠ .zc) (hstart : i ≠ .start) (hstatus : i ≠ .getStatus) :
    exec i (s.withEnable b) = mapNext (State.withEnable b) (exec i s) := by
  cases hq : enqRequest i with
  | some q =>
    obtain ⟨w, reps, ctx⟩ := q
    rw [exec_of_enqRequest _ hq, exec_of_enqRequest _ hq, State.enqueue_withEnable]
    rfl
  | none =>
    by_cases hwf : i.wellFormed = false
    · rw [exec_of_not_wellFormed _ hwf, exec_of_not_wellFormed _ hwf]
      rfl
    · unfold enqRequest at hq
      rw [if_neg hwf] at hq
      cases i with
      | enqAddress | enqCommand | enqDimPercent | enqExtDimPercent | enqRawExt => cases hq
      | start => exact absurd rfl hstart
      | getStatus => exact absurd rfl hstatus
      | zc => exact absurd rfl hzc
      | getState =>
        rw [exec_getState, exec_getState, if_neg hwf, if_neg hwf]
        rfl
      | wipeState =>
        rw [exec_wipeState, exec_wipeState, if_neg hwf, if_neg hwf, State.wipe_withEnable]
        rfl
      | pctToBright =>
        rw [exec_pctToBright, exec_pctToBright, if_neg hwf, if_neg hwf]
        rfl
      | brightToPct =>
        rw [exec_brightToPct, exec_brightToPct, if_neg hwf, if_neg hwf]
        rfl
      | timer => exact execTimer_withEnable b s

end Sys2Proof.Machine
end

section
/-! The control commands (46_control R700 to R710): START, GET_STATUS and the reach of ENABLE. -/

namespace Sys2Proof.Machine

/-! ## START (46_control R700) -/

theorem exec_start (s : State) : exec .start s = .next { s with enable := true, rsp := some 0x00000000 } := rfl

/-- Settles O7: the second START writes what the first one wrote. -/
theorem startEnablesTheCore : Obligations.StartEnablesTheCore := by
  refine fun s => ⟨exec_start s, fun t h => ?_⟩
  rw [exec_start] at h
  cases h
  exact exec_start _

/-! ## GET_STATUS (46_control R705) -/

/-- 46_control R705: STATUS is 0, so the response is the status word as a number. -/
theorem exec_getStatus (s : State) :
    exec .getStatus s = .next { s with rsp := some (BitVec.ofNat 32 s.statusResult.toNat) } :=
  congrArg Host.Outcome.next (s.respond_ok_eq s.statusResult)

/-- `q_len` on integers (10_state R107). -/
theorem State.qLen_eq_emod {s : State} (hhead : s.qHead < s.cfg.n) :
    (s.qLen : Int) = ((s.qTail : Int) - (s.qHead : Int)) % (s.cfg.n : Int) := by
  have hdiff : ((s.qTail + s.cfg.n - s.qHead : Nat) : Int) = (s.qTail : Int) - s.qHead + s.cfg.n := by omega
  rw [State.qLen, Int.natCast_mod, hdiff, Int.add_emod_right]

/-- A bit of a word, from its value as a number. -/
theorem getLsbD_of_div_eq {w : Nat} {f : BitVec w} {i : Nat} {x : Bool} (h : f.toNat / 2 ^ i % 2 = x.toNat) :
    f.getLsbD i = x := by
  rw [getLsbD_eq_div, h]
  cases x <;> rfl

/-- Settles O8: the response is the sum of its fields, and no field reaches into the next. -/
theorem getStatusReportsTheState : Obligations.GetStatusReportsTheState := by
  rintro s ⟨hmin, hmax, -⟩ hhead -
  have hlen : s.qLen < s.cfg.n := Nat.mod_lt _ (by omega)
  have hzero := s.zeroCount.isLt
  have hactive := s.rx.active.toNat_lt
  have hsending := (s.txCount != 0).toNat_lt
  have hoverrun := s.overrun.toNat_lt
  have henable := s.enable.toNat_lt
  have hword : (BitVec.ofNat 32 s.statusResult.toNat).toNat = s.statusResult.toNat := by
    rw [BitVec.toNat_ofNat, Nat.mod_eq_of_lt (s.statusResult.isLt.trans (by decide))]
  have hsum := statusResult_toNat s
  rw [← hword] at hsum
  refine ⟨_, exec_getStatus s, ?status, ?enable, ?overrun, ?sending, ?active, ?reserved, ?length, ?silence⟩
  case status => exact (extract_eq_iff _ _ _ _).mpr (show _ = 0 by omega)
  case enable => exact getLsbD_of_div_eq (by omega)
  case overrun => exact getLsbD_of_div_eq (by omega)
  case sending => rw [getLsbD_of_div_eq (x := s.txCount != 0) (by omega), bne_iff_ne]
  case active => exact getLsbD_of_div_eq (by omega)
  case reserved => exact (extract_eq_iff _ _ _ _).mpr (show _ = 0 by omega)
  case length =>
    rw [← State.qLen_eq_emod hhead, BitVec.extractLsb'_toNat, Nat.shiftRight_eq_div_pow]
    omega
  case silence => exact (extract_eq_iff _ _ _ _).mpr (by omega)

/-! ## ENABLE (46_control R710) -/

/-- Settles O9: START and GET_STATUS by their equations, every other instruction by `exec_withEnable`. -/
theorem enableGatesOnlyZc : Obligations.EnableGatesOnlyZc := by
  refine ⟨fun s h => if_pos h, fun i s t b hzc h => ?_⟩
  by_cases hstart : i = .start
  · subst hstart
    rw [exec_start] at h
    cases h
    exact ⟨_, by rw [exec_start, decide_eq_true rfl, Bool.or_true], fun _ => rfl⟩
  · rw [decide_eq_false hstart, Bool.or_false]
    by_cases hstatus : i = .getStatus
    · subst hstatus
      rw [exec_getStatus] at h
      cases h
      exact ⟨_, exec_getStatus _, fun hne => absurd rfl hne⟩
    · exact ⟨t.rsp, (exec_withEnable b s hzc hstart hstatus).trans (by rw [h]; rfl), fun _ => rfl⟩

end Sys2Proof.Machine
end

section
/-! The stops (60_exceptions R800 to R811): under the invariant no instruction faults, and only a TIMER nobody armed and event
code 11 are refused. -/

namespace Sys2Proof.Machine

variable {s : State}

/-! ## TIMER (42_bit_slot_timer R511, R512) -/

theorem exec_timer_of_not_armed (h : s.timerArmed = false) : exec .timer s = .refused .timerNotArmed :=
  if_pos h

/-- Settles O33: the request is looked at before anything else. -/
theorem timerIsRefusedUnlessArmed : Obligations.TimerIsRefusedUnlessArmed :=
  fun _ => exec_timer_of_not_armed

/-- An armed timer is at one of the sub-states 1 to `2*PHASES`, each of which has a step. -/
theorem State.TimerInv.exec_timer_eq_next (hs : s.TimerInv) (harmed : s.timerArmed = true) :
    ∃ t, exec .timer s = .next t := by
  obtain ⟨hmax, hidle, -, -⟩ := hs
  have hlow : s.slot.toNat ≠ 0 := fun h0 =>
    Bool.false_ne_true ((hidle.mp (BitVec.eq_of_toNat_eq h0)).symm.trans harmed)
  rcases execTimer_cases s with ⟨hoff, -⟩ | ⟨-, hout, -⟩ | ⟨-, -, -, h⟩ | ⟨-, -, -, h⟩ | ⟨-, -, -, -, h⟩ | ⟨-, -, -, -, h⟩
  · exact absurd (hoff.symm.trans harmed) Bool.false_ne_true
  · omega
  all_goals exact ⟨_, h⟩

/-! ## ZC (43_frame_encoder R552) -/

theorem exists_shape_of_producedFrame {f : Frame} (h : producedFrame f = true) : ∃ sh, frameShape f = some sh := by
  cases hshape : frameShape f with
  | none => simp [producedFrame, hshape] at h
  | some sh => exact ⟨sh, rfl⟩

/-- The entry the encoder is asked for is queued, so its frame is a produced one. -/
theorem State.FramesInv.head_shape (hs : s.FramesInv) (hq : s.QueueInv) (hsend : s.mayTransmit) :
    ∃ sh, frameShape (s.slotAt s.qHead).frame = some sh := by
  obtain ⟨-, hhead, -, hreps⟩ := hq
  obtain ⟨-, hcount, -⟩ := hsend
  obtain ⟨-, hproduced⟩ := hs s.qHead hhead
  exact exists_shape_of_producedFrame (hproduced ((hreps s.qHead hhead).mpr hcount))

theorem State.Inv.exec_zc_eq_next (hs : s.Inv) : ∃ t, exec .zc s = .next t := by
  obtain ⟨hlegal, hqueue, hframes, -⟩ := hs
  cases henable : s.enable with
  | false => exact ⟨s, if_pos henable⟩
  | true =>
    by_cases hsend : s.mayTransmit
    · obtain ⟨sh, hshape⟩ := hframes.head_shape hqueue hsend
      exact ⟨_, execZc_of_mayTransmit henable hlegal hsend hshape⟩
    · exact ⟨_, zcBeginsASilentHalfCycle s henable hlegal hsend⟩

/-! ## The step -/

/-- A command always answers; the two events need the invariant, and TIMER a request besides. -/
theorem State.Inv.exec_eq_next (hs : s.Inv) {i : Instr} (hi : i = .timer → s.timerArmed = true) :
    ∃ t, exec i s = .next t := by
  cases hcmd : isEvent i with
  | false =>
    obtain ⟨t, h, -⟩ := exec_answered s hcmd
    exact ⟨t, h⟩
  | true =>
    cases i with
    | zc => exact hs.exec_zc_eq_next
    | timer =>
      obtain ⟨-, -, -, -, htimer, -⟩ := hs
      exact htimer.exec_timer_eq_next (hi rfl)
    | _ => cases hcmd

theorem eq_event_of_decode_timer {w : PortWord} (h : decode w = .instr .timer) : w = .event 0b10 := by
  cases w with
  | command w =>
    obtain ⟨-, hop⟩ := decode_command_eq_instr_iff.mp h
    cases isEvent_of_decodeOp hop
  | event c => revert c; decide

/-- A command word is rejected for its reserved bits or its opcode, never as an event. -/
theorem decodeCommand_ne_reservedEvent (w : CommandWord) : decodeCommand w ≠ .reject .reservedEvent := by
  unfold decodeCommand
  split
  · simp
  · unfold decodeOp
    split <;> simp

theorem eq_event_of_decode_reservedEvent {w : PortWord} (h : decode w = .reject .reservedEvent) : w = .event 0b11 := by
  cases w with
  | command w => exact absurd h (decodeCommand_ne_reservedEvent w)
  | event c => revert c; decide

/-- The inputs no conforming provider presents, and why each is refused (60_exceptions R811; 30_encoding R339). -/
def State.Unsolicited (s : State) (r : Refusal) : Prop :=
  ∃ x rest, s.port = x :: rest ∧
    ((r = .timerNotArmed ∧ x.word = .event 0b10 ∧ s.timerArmed = false) ∨
      (r = .reservedEventCode ∧ x.word = .event 0b11))

/-- 60_exceptions R803, R811: what is presented is taken, or refused as not solicited. -/
theorem State.Inv.step_cases (hs : s.Inv) :
    (∃ t, step s = .next t) ∨ ∃ r, step s = .refused r ∧ s.Unsolicited r := by
  cases hport : s.port with
  | nil => exact .inl ⟨s, step_of_port_nil hport⟩
  | cons x rest =>
    have hpresented : (s.present x rest).Inv := hs
    cases hdec : decode x.word with
    | instr i =>
      rw [step_of_decode hport hdec]
      by_cases hi : i = .timer → s.timerArmed = true
      · exact .inl (hpresented.exec_eq_next hi)
      · obtain ⟨rfl, harmed⟩ := Classical.not_imp.mp hi
        have hoff : s.timerArmed = false := Bool.eq_false_of_not_eq_true harmed
        exact .inr ⟨_, exec_timer_of_not_armed hoff, x, rest, hport, .inl ⟨rfl, eq_event_of_decode_timer hdec, hoff⟩⟩
    | reject e =>
      rw [step_of_reject hport hdec]
      cases e with
      | reservedBits | reservedOpcode | noEvent => exact .inl ⟨_, rfl⟩
      | reservedEvent => exact .inr ⟨_, rfl, x, rest, hport, .inr ⟨rfl, eq_event_of_decode_reservedEvent hdec⟩⟩

/-- Settles O52: a step under the invariant is taken or refused, so it does not fault. -/
theorem invariantRulesOutEveryStop : Obligations.InvariantRulesOutEveryStop := by
  intro s hs
  rcases hs.step_cases with ⟨t, hstep⟩ | ⟨r, hstep, hr⟩ <;> rw [hstep]
  · exact ⟨fun _ => nofun, fun _ => nofun⟩
  · refine ⟨fun _ => nofun, fun r' h => ?_⟩
    cases h
    exact hr

end Sys2Proof.Machine
end

section
/-! The launch state meets the invariant (70_reset_and_hazards R900): an empty ring, an idle line side, a canonical store. -/

namespace Sys2Proof.Machine

variable (cfg : Config) (store : List Byte)

theorem State.launch_slotAt (i : Nat) : (State.launch cfg store).slotAt i = ⟨0, 0⟩ := by
  rw [State.slotAt, List.getD_eq_getElem?_getD]
  exact List.getElem?_getD_replicate_default_eq _ cfg.n i

/-- 10_state R107: the ring of a launch is empty. -/
theorem State.launch_not_queued (i : Nat) : ¬(State.launch cfg store).queued i := by
  have hlen : (State.launch cfg store).qLen = 0 :=
    (congrArg (· % cfg.n) (Nat.zero_add cfg.n)).trans (Nat.mod_self cfg.n)
  rw [State.queued, hlen]
  exact Nat.not_lt_zero _

theorem State.launch_queueInv (hn : 0 < cfg.n) : (State.launch cfg store).QueueInv := by
  refine ⟨List.length_replicate, hn, hn, fun i _ => iff_of_false (State.launch_not_queued cfg store i) ?_⟩
  rw [State.launch_slotAt]
  decide

theorem State.launch_framesInv : (State.launch cfg store).FramesInv := fun i _ =>
  ⟨.inl (by rw [State.launch_slotAt]), fun hqueued => absurd hqueued (State.launch_not_queued cfg store i)⟩

/-- 20_memory R208: only a PERSISTENT store has content at reset. -/
theorem Memory.atReset_eq_nil {b : Backend} (hb : b ≠ .persistent) : Memory.atReset b store = [] := by
  cases b with
  | none | volatile => rfl
  | persistent => exact absurd rfl hb

theorem State.launch_memInv : (State.launch cfg store).MemInv := by
  have hempty (hb : cfg.backend ≠ .persistent) : (State.launch cfg store).mem = [] := Memory.atReset_eq_nil store hb
  refine ⟨Memory.atReset_wf cfg.backend store, fun hnone => ?_, fun hvolatile => ?_, fun _ => rfl⟩
  · exact hempty (ne_of_eq_of_ne hnone nofun)
  · rw [hempty (ne_of_eq_of_ne hvolatile nofun)]
    exact nofun

/-- Settles O45: queue, frames and memory by their lemmas, everything else at rest. -/
theorem launchMeetsTheInvariant : Obligations.LaunchMeetsTheInvariant := by
  intro cfg store hlegal
  have ⟨hn, _⟩ := hlegal
  exact ⟨hlegal, State.launch_queueInv cfg store (Nat.two_pos.trans_le hn), State.launch_framesInv cfg store, .inl rfl,
    .of_idle rfl rfl rfl, .of_cleared (Nat.zero_le _) rfl fun _ => rfl, State.launch_memInv cfg store, nofun,
    fun _ => ⟨rfl, rfl, rfl, rfl, rfl, rfl, rfl, rfl, rfl, rfl, rfl⟩⟩

/-- Settles O46: the default parameters are legal. -/
theorem resetMeetsTheInvariant : Obligations.ResetMeetsTheInvariant :=
  launchMeetsTheInvariant Config.default [] (by decide)

end Sys2Proof.Machine
end
